-- ==== Sys2Proof/Word.lean ====
section
/-! DEFINITION. The words of the block: the 64-bit word of a register or a memory (R7), the 32-bit command word (R60) and
the pair of words a DoubleDouble or a table entry is (R20, R35). -/

namespace Sys2Proof

/-- A word: 64 bits, numbered 63 (most significant) down to 0 (00_scope.md R7). -/
abbrev Word := BitVec 64

/-- A command word: 32 bits (30_encoding.md R60). -/
abbrev Cmd := BitVec 32

/-- A DoubleDouble, the pair of words `(hi, lo)` (00_scope.md R20); a table entry is one (10_state.md R35). The block
attaches no meaning to the pair and checks no invariant on it (R35, R118). -/
structure DoubleDouble where
  hi : Word
  lo : Word
  deriving DecidableEq, Repr

end Sys2Proof
end

