-- ==== Sys2Proof/Syntax.lean ====
section
/-! DEFINITION. The 28 commands of the block, one constructor per row of spec/opcode_table.json (30_encoding.md R63), with the
operands in the order of the fields A to F. Operand types admit no odd pair, no region 3, no bank above 3 and no slot or degree
above 8; words that spell one of those decode to nothing (R66, R67). -/

namespace Sys2Proof

/-- A register number 0 to 15 (10_state.md R30). -/
abbrev Reg := Fin 16

/-- A pair of registers (10_state.md R32). Pair number `p` is the registers `x[2p]` (hi) and `x[2p+1]` (lo). -/
abbrev Pair := Fin 8

/-- The three regions of the table memory (10_state.md R35, 20_memory.md R46); "Region number 3 does not exist". -/
inductive Region where
  | exp
  | log
  | pow
  deriving DecidableEq, Repr

/-- A coefficient bank 0 to 3 (10_state.md R36). -/
abbrev Bank := Fin 4

/-- A coefficient slot, or a polynomial degree, 0 to 8 (20_memory.md R47, 45_poly.md R125). -/
abbrev Slot := Fin 9

/-- A bit position, or a field width minus one, 0 to 63 (30_encoding.md R68). -/
abbrev BitPos := Fin 64

/-- A command (30_encoding.md R63). -/
inductive Instr where
  /-- PUT, 40_transfer.md R80 -/
  | put (rd : Reg)
  /-- GET, 40_transfer.md R81 -/
  | get (rs : Reg)
  /-- GETS, 40_transfer.md R82 -/
  | gets
  /-- TWR, 41_table.md R85 -/
  | twr (pa : Pair) (ri : Reg) (region : Region)
  /-- CWR, 41_table.md R86 -/
  | cwr (ra : Reg) (bank : Bank) (slot : Slot)
  /-- LOCK, 41_table.md R87 -/
  | lock
  /-- TLU, 41_table.md R88 -/
  | tlu (pd : Pair) (ri : Reg) (region : Region)
  /-- XSGN, 42_classify.md R90 -/
  | xsgn (rd rs : Reg)
  /-- XEXP, 42_classify.md R91 -/
  | xexp (rd rs : Reg)
  /-- XMAN, 42_classify.md R92 -/
  | xman (rd rs : Reg)
  /-- BFX, 42_classify.md R93; `wm1` is the width minus one -/
  | bfx (rd rs : Reg) (lsb wm1 : BitPos)
  /-- BFXS, 42_classify.md R94 -/
  | bfxs (rd rs : Reg) (lsb wm1 : BitPos)
  /-- PACK, 42_classify.md R95 -/
  | pack (rd rs re rm : Reg)
  /-- EXPADD, 42_classify.md R100 -/
  | expadd (rd ra rn : Reg)
  /-- CLASS, 42_classify.md R96 -/
  | classify (rd rs : Reg)
  /-- ICLASS, 42_classify.md R97 -/
  | iclass (rd rs : Reg)
  /-- CMP, 42_classify.md R98 -/
  | cmp (rd ra rb : Reg)
  /-- CTEST, 42_classify.md R99 -/
  | ctest (rd rs : Reg) (mask : BitVec 12)
  /-- MUX2, 43_mux.md R106 -/
  | mux2 (rd rp ra rb : Reg)
  /-- MUX3, 43_mux.md R107 -/
  | mux3 (rd rp rq ra rb rc : Reg)
  /-- TWOSUM, 44_ddarith.md R111 -/
  | twosum (pd : Pair) (ra rb : Reg)
  /-- TWOPROD, 44_ddarith.md R112 -/
  | twoprod (pd : Pair) (ra rb : Reg)
  /-- DDADDD, 44_ddarith.md R113 -/
  | ddaddd (pd pa : Pair) (rb : Reg)
  /-- DDADD, 44_ddarith.md R114 -/
  | ddadd (pd pa pb : Pair)
  /-- DDMULD, 44_ddarith.md R115 -/
  | ddmuld (pd pa : Pair) (rb : Reg)
  /-- DDMUL, 44_ddarith.md R116 -/
  | ddmul (pd pa pb : Pair)
  /-- POLYH, 45_poly.md R126 -/
  | polyh (rd rs : Reg) (bank : Bank) (degree : Slot)
  /-- POLYE, 45_poly.md R127 -/
  | polye (rd rs : Reg) (bank : Bank) (degree : Slot)
  deriving DecidableEq, Repr

end Sys2Proof
end

