-- ==== Sys2Proof/WellFormed.lean ====
section
/-! DEFINITION. The one limit on a command that the operand types do not carry: a BFX or BFXS field must not run past bit 63
(30_encoding.md R67). -/

namespace Sys2Proof

/-- The bit field `[lsb + wm1 : lsb]` lies inside a word: not `lsb + wm1 + 1 > 64` (30_encoding.md R67). -/
abbrev fieldFits (lsb wm1 : BitPos) : Prop := lsb.val + wm1.val + 1 ≤ 64

/-- Whether some command word spells the command (30_encoding.md R64 to R67). -/
def Instr.wellFormed (i : Instr) : Bool :=
  match i with
  | .bfx _ _ lsb wm1 => fieldFits lsb wm1
  | .bfxs _ _ lsb wm1 => fieldFits lsb wm1
  | .put _ | .get _ | .gets | .twr _ _ _ | .cwr _ _ _ | .lock | .tlu _ _ _ | .xsgn _ _ | .xexp _ _ | .xman _ _
  | .pack _ _ _ _ | .expadd _ _ _ | .classify _ _ | .iclass _ _ | .cmp _ _ _ | .ctest _ _ _ | .mux2 _ _ _ _
  | .mux3 _ _ _ _ _ _ | .twosum _ _ _ | .twoprod _ _ _ | .ddaddd _ _ _ | .ddadd _ _ _ | .ddmuld _ _ _
  | .ddmul _ _ _ | .polyh _ _ _ _ | .polye _ _ _ _ => true

/-- A command that some command word spells. -/
abbrev Instr.WellFormed (i : Instr) : Prop := i.wellFormed = true

end Sys2Proof
end

