-- ==== Sys2Proof/Decode.lean ====
section
/-! DEFINITION. The decoder and the encoder of command words (30_encoding.md R60 to R68). The decoder is total and rejects by
name; every rejection is the one fault ILLEGAL (R64 to R67), taken by the step. -/

namespace Sys2Proof

/-- Why a word is no legal command. The block raises ILLEGAL in every case and does not record which (R64 to R67, R161). -/
inductive DecodeError where
  /-- an `op` value that R63 does not list (R64) -/
  | undefinedOp
  /-- a 1 in a bit that the format does not use (R65), the fields fixed to zero by R67 among them -/
  | reservedBit
  /-- an odd number in a pair field (R66) -/
  | oddPair
  /-- region 3, a slot or degree above 8, or a bit field that runs past bit 63 (R67) -/
  | outOfRange
  deriving DecidableEq, Repr

/-! ## The fields of the command word (R61) -/

/-- `op`, bits 31:26. -/
def fieldOp (w : Cmd) : BitVec 6 := w.extractLsb' 26 6
/-- `A`, bits 25:22. -/
def fieldA (w : Cmd) : BitVec 4 := w.extractLsb' 22 4
/-- `B`, bits 21:18. -/
def fieldB (w : Cmd) : BitVec 4 := w.extractLsb' 18 4
/-- `C`, bits 17:14. -/
def fieldC (w : Cmd) : BitVec 4 := w.extractLsb' 14 4
/-- `D`, bits 13:10. -/
def fieldD (w : Cmd) : BitVec 4 := w.extractLsb' 10 4
/-- `E`, bits 9:6. -/
def fieldE (w : Cmd) : BitVec 4 := w.extractLsb' 6 4
/-- `F`, bits 5:2. -/
def fieldF (w : Cmd) : BitVec 4 := w.extractLsb' 2 4
/-- `imm12`, bits 11:0, the immediate of format I. -/
def fieldImm (w : Cmd) : BitVec 12 := w.extractLsb' 0 12
/-- `lsb`, `imm12[11:6]` of BFX and BFXS (R68). -/
def fieldLsb (w : Cmd) : BitVec 6 := w.extractLsb' 6 6
/-- `wm1`, `imm12[5:0]` of BFX and BFXS (R68). -/
def fieldWm1 (w : Cmd) : BitVec 6 := w.extractLsb' 0 6

/-! ## Operands -/

/-- A register field names the register of its number (R61). -/
def regOf (f : BitVec 4) : Reg := f.toFin

/-- A pair field holds the even number of the pair's first register; an odd number makes the command illegal (R66). -/
def pairOf (f : BitVec 4) : Except DecodeError Pair :=
  if f.toNat % 2 = 0 then .ok ⟨f.toNat / 2, by omega⟩ else .error .oddPair

/-- A region field: 0 EXP, 1 LOG, 2 POW; region 3 does not exist and values above 3 have a bit of 17:16 set (R67). -/
def regionOf (f : BitVec 4) : Except DecodeError Region :=
  match f.toNat with
  | 0 => .ok .exp
  | 1 => .ok .log
  | 2 => .ok .pow
  | _ => .error .outOfRange

/-- A bank field: 0 to 3; more than 3 is illegal (R67). -/
def bankOf (f : BitVec 4) : Except DecodeError Bank :=
  if h : f.toNat < 4 then .ok ⟨f.toNat, h⟩ else .error .outOfRange

/-- A slot or degree field: 0 to 8; more than 8 is illegal (R67). -/
def slotOf (f : BitVec 4) : Except DecodeError Slot :=
  if h : f.toNat < 9 then .ok ⟨f.toNat, h⟩ else .error .outOfRange

/-- Bits `lo + len - 1 : lo` must be zero (R65, R67). -/
def zeroBits (w : Cmd) (lo len : Nat) : Except DecodeError Unit :=
  if w.extractLsb' lo len = 0 then .ok () else .error .reservedBit

/-! ## The eight formats (R62) -/

/-- Format Z: `op` alone. -/
def decodeZ (w : Cmd) (i : Instr) : Except DecodeError Instr := do
  zeroBits w 0 26
  return i

/-- Format R1: `op A`. -/
def decodeR1 (w : Cmd) (mk : Reg → Instr) : Except DecodeError Instr := do
  zeroBits w 0 22
  return mk (regOf (fieldA w))

/-- Format R2: `op A B`. -/
def decodeR2 (w : Cmd) (mk : Reg → Reg → Instr) : Except DecodeError Instr := do
  zeroBits w 0 18
  return mk (regOf (fieldA w)) (regOf (fieldB w))

/-- Format R3 with three registers: `op A B C` (CMP, EXPADD). -/
def decodeR3 (w : Cmd) (mk : Reg → Reg → Reg → Instr) : Except DecodeError Instr := do
  zeroBits w 0 14
  return mk (regOf (fieldA w)) (regOf (fieldB w)) (regOf (fieldC w))

/-- Format R3 with a pair in `A` (TWOSUM, TWOPROD). -/
def decodeR3P (w : Cmd) (mk : Pair → Reg → Reg → Instr) : Except DecodeError Instr := do
  zeroBits w 0 14
  let pd ← pairOf (fieldA w)
  return mk pd (regOf (fieldB w)) (regOf (fieldC w))

/-- Format R3 with pairs in `A` and `B` (DDADDD, DDMULD). -/
def decodeR3PP (w : Cmd) (mk : Pair → Pair → Reg → Instr) : Except DecodeError Instr := do
  zeroBits w 0 14
  let pd ← pairOf (fieldA w)
  let pa ← pairOf (fieldB w)
  return mk pd pa (regOf (fieldC w))

/-- Format R3 with pairs in `A`, `B` and `C` (DDADD, DDMUL). -/
def decodeR3PPP (w : Cmd) (mk : Pair → Pair → Pair → Instr) : Except DecodeError Instr := do
  zeroBits w 0 14
  let pd ← pairOf (fieldA w)
  let pa ← pairOf (fieldB w)
  let pb ← pairOf (fieldC w)
  return mk pd pa pb

/-- Format R4: `op A B C D` (PACK, MUX2). -/
def decodeR4 (w : Cmd) (mk : Reg → Reg → Reg → Reg → Instr) : Except DecodeError Instr := do
  zeroBits w 0 10
  return mk (regOf (fieldA w)) (regOf (fieldB w)) (regOf (fieldC w)) (regOf (fieldD w))

/-- Format R6: `op A B C D E F` (MUX3). -/
def decodeR6 (w : Cmd) (mk : Reg → Reg → Reg → Reg → Reg → Reg → Instr) : Except DecodeError Instr := do
  zeroBits w 0 2
  return mk (regOf (fieldA w)) (regOf (fieldB w)) (regOf (fieldC w)) (regOf (fieldD w)) (regOf (fieldE w))
    (regOf (fieldF w))

/-- Format I with a bit field in `imm12` (BFX, BFXS): the field must not run past bit 63 (R67). -/
def decodeIField (w : Cmd) (mk : Reg → Reg → BitPos → BitPos → Instr) : Except DecodeError Instr := do
  zeroBits w 12 6
  let lsb : BitPos := (fieldLsb w).toFin
  let wm1 : BitPos := (fieldWm1 w).toFin
  if fieldFits lsb wm1 then return mk (regOf (fieldA w)) (regOf (fieldB w)) lsb wm1
  else throw .outOfRange

/-- Format I with a mask in `imm12` (CTEST). -/
def decodeIMask (w : Cmd) (mk : Reg → Reg → BitVec 12 → Instr) : Except DecodeError Instr := do
  zeroBits w 12 6
  return mk (regOf (fieldA w)) (regOf (fieldB w)) (fieldImm w)

/-- Format M for the table memory (TWR, TLU): pair, index register, region; `D` is zero (R67). -/
def decodeMTab (w : Cmd) (mk : Pair → Reg → Region → Instr) : Except DecodeError Instr := do
  zeroBits w 0 14
  let p ← pairOf (fieldA w)
  let g ← regionOf (fieldC w)
  return mk p (regOf (fieldB w)) g

/-- Format M for a coefficient write (CWR): register, bank, slot; `B` is zero (R67). -/
def decodeMCoef (w : Cmd) (mk : Reg → Bank → Slot → Instr) : Except DecodeError Instr := do
  zeroBits w 0 10
  zeroBits w 18 4
  let b ← bankOf (fieldC w)
  let k ← slotOf (fieldD w)
  return mk (regOf (fieldA w)) b k

/-- Format M for a polynomial (POLYH, POLYE): destination, argument, bank, degree. -/
def decodeMPoly (w : Cmd) (mk : Reg → Reg → Bank → Slot → Instr) : Except DecodeError Instr := do
  zeroBits w 0 10
  let b ← bankOf (fieldC w)
  let n ← slotOf (fieldD w)
  return mk (regOf (fieldA w)) (regOf (fieldB w)) b n

/-! ## The opcode map (R63) -/

/-- The decoder: the command a word spells, or why it spells none. It looks at the word alone (R71). -/
def decode (w : Cmd) : Except DecodeError Instr :=
  match (fieldOp w).toNat with
  | 0x01 => decodeR1 w .put
  | 0x02 => decodeR1 w .get
  | 0x03 => decodeZ w .gets
  | 0x08 => decodeMTab w .twr
  | 0x09 => decodeMCoef w .cwr
  | 0x0A => decodeZ w .lock
  | 0x0B => decodeMTab w .tlu
  | 0x10 => decodeR2 w .xsgn
  | 0x11 => decodeR2 w .xexp
  | 0x12 => decodeR2 w .xman
  | 0x13 => decodeIField w .bfx
  | 0x14 => decodeIField w .bfxs
  | 0x15 => decodeR4 w .pack
  | 0x16 => decodeR3 w .expadd
  | 0x17 => decodeR2 w .classify
  | 0x18 => decodeR2 w .iclass
  | 0x19 => decodeR3 w .cmp
  | 0x1A => decodeIMask w .ctest
  | 0x20 => decodeR4 w .mux2
  | 0x21 => decodeR6 w .mux3
  | 0x28 => decodeR3P w .twosum
  | 0x29 => decodeR3P w .twoprod
  | 0x2A => decodeR3PP w .ddaddd
  | 0x2B => decodeR3PPP w .ddadd
  | 0x2C => decodeR3PP w .ddmuld
  | 0x2D => decodeR3PPP w .ddmul
  | 0x30 => decodeMPoly w .polyh
  | 0x31 => decodeMPoly w .polye
  | _ => .error .undefinedOp

/-- The command that a table word spells, for the host: `w` numbered as spec/opcode_table.json numbers it, of which the low
`nbits` bits are given and the rest are zero. A command word is 32 bits and crosses the interface whole, so no byte order
enters (R53, R60). -/
def decodeTableWord (nbits w : Nat) : Option Instr :=
  match decode (BitVec.ofNat 32 (w % 2 ^ nbits)) with
  | .ok i => some i
  | .error _ => none

/-! ## The encoder -/

/-- The field bits of a register number. -/
def regBits (r : Reg) : BitVec 4 := .ofNat 4 r.val
/-- The field bits of a pair: the even number of its first register (R32, R61). -/
def pairBits (p : Pair) : BitVec 4 := .ofNat 4 (2 * p.val)
/-- The field bits of a region number: EXP, LOG, POW are 0, 1, 2 (R69). -/
def regionBits (g : Region) : BitVec 4 :=
  match g with
  | .exp => 0
  | .log => 1
  | .pow => 2
/-- The field bits of a bank number. -/
def bankBits (b : Bank) : BitVec 4 := .ofNat 4 b.val
/-- The field bits of a slot or degree. -/
def slotBits (k : Slot) : BitVec 4 := .ofNat 4 k.val
/-- The field bits of a bit position. -/
def posBits (p : BitPos) : BitVec 6 := .ofNat 6 p.val

/-- A word from its opcode and its six 4-bit fields, `Z` zero (R61): `op << 26 | A << 22 | … | F << 2`. -/
def fieldsWord (op : BitVec 6) (a b c d e f : BitVec 4) : Cmd :=
  op.setWidth 32 <<< 26 ||| a.setWidth 32 <<< 22 ||| b.setWidth 32 <<< 18 ||| c.setWidth 32 <<< 14 |||
    d.setWidth 32 <<< 10 ||| e.setWidth 32 <<< 6 ||| f.setWidth 32 <<< 2

/-- A format I word from its opcode, `A`, `B` and `imm12`, bits 17:12 zero (R61, R62). -/
def immWord (op : BitVec 6) (a b : BitVec 4) (imm : BitVec 12) : Cmd :=
  op.setWidth 32 <<< 26 ||| a.setWidth 32 <<< 22 ||| b.setWidth 32 <<< 18 ||| imm.setWidth 32

/-- The immediate of BFX and BFXS, `lsb << 6 | wm1` (R68). -/
def fieldImmBits (lsb wm1 : BitPos) : BitVec 12 := (posBits lsb).setWidth 12 <<< 6 ||| (posBits wm1).setWidth 12

/-- The encoder: the one word of a well-formed command (R62, R63). -/
def encode (i : Instr) : Cmd :=
  match i with
  | .put rd => fieldsWord 0x01 (regBits rd) 0 0 0 0 0
  | .get rs => fieldsWord 0x02 (regBits rs) 0 0 0 0 0
  | .gets => fieldsWord 0x03 0 0 0 0 0 0
  | .twr pa ri g => fieldsWord 0x08 (pairBits pa) (regBits ri) (regionBits g) 0 0 0
  | .cwr ra b k => fieldsWord 0x09 (regBits ra) 0 (bankBits b) (slotBits k) 0 0
  | .lock => fieldsWord 0x0A 0 0 0 0 0 0
  | .tlu pd ri g => fieldsWord 0x0B (pairBits pd) (regBits ri) (regionBits g) 0 0 0
  | .xsgn rd rs => fieldsWord 0x10 (regBits rd) (regBits rs) 0 0 0 0
  | .xexp rd rs => fieldsWord 0x11 (regBits rd) (regBits rs) 0 0 0 0
  | .xman rd rs => fieldsWord 0x12 (regBits rd) (regBits rs) 0 0 0 0
  | .bfx rd rs lsb wm1 => immWord 0x13 (regBits rd) (regBits rs) (fieldImmBits lsb wm1)
  | .bfxs rd rs lsb wm1 => immWord 0x14 (regBits rd) (regBits rs) (fieldImmBits lsb wm1)
  | .pack rd rs re rm => fieldsWord 0x15 (regBits rd) (regBits rs) (regBits re) (regBits rm) 0 0
  | .expadd rd ra rn => fieldsWord 0x16 (regBits rd) (regBits ra) (regBits rn) 0 0 0
  | .classify rd rs => fieldsWord 0x17 (regBits rd) (regBits rs) 0 0 0 0
  | .iclass rd rs => fieldsWord 0x18 (regBits rd) (regBits rs) 0 0 0 0
  | .cmp rd ra rb => fieldsWord 0x19 (regBits rd) (regBits ra) (regBits rb) 0 0 0
  | .ctest rd rs mask => immWord 0x1A (regBits rd) (regBits rs) mask
  | .mux2 rd rp ra rb => fieldsWord 0x20 (regBits rd) (regBits rp) (regBits ra) (regBits rb) 0 0
  | .mux3 rd rp rq ra rb rc => fieldsWord 0x21 (regBits rd) (regBits rp) (regBits rq) (regBits ra) (regBits rb) (regBits rc)
  | .twosum pd ra rb => fieldsWord 0x28 (pairBits pd) (regBits ra) (regBits rb) 0 0 0
  | .twoprod pd ra rb => fieldsWord 0x29 (pairBits pd) (regBits ra) (regBits rb) 0 0 0
  | .ddaddd pd pa rb => fieldsWord 0x2A (pairBits pd) (pairBits pa) (regBits rb) 0 0 0
  | .ddadd pd pa pb => fieldsWord 0x2B (pairBits pd) (pairBits pa) (pairBits pb) 0 0 0
  | .ddmuld pd pa rb => fieldsWord 0x2C (pairBits pd) (pairBits pa) (regBits rb) 0 0 0
  | .ddmul pd pa pb => fieldsWord 0x2D (pairBits pd) (pairBits pa) (pairBits pb) 0 0 0
  | .polyh rd rs b n => fieldsWord 0x30 (regBits rd) (regBits rs) (bankBits b) (slotBits n) 0 0
  | .polye rd rs b n => fieldsWord 0x31 (regBits rd) (regBits rs) (bankBits b) (slotBits n) 0 0

end Sys2Proof
end

