-- ==== Sys2Proof/Config.lean ====
section
/-! DEFINITION. What an implementation fixes and the spec leaves open (00_scope.md R6): the size of region POW and the NaN
that an arithmetic primitive creates. Both are constants with no body, so no proof can see their values. -/

namespace Sys2Proof

/-- The arithmetic primitives that can create a NaN (00_scope.md R13, R15, R16). `fsub` is `fadd` of a negated operand
(R14), so it has no name of its own. -/
inductive ArithOp where
  | fadd
  | fmul
  | fma
  deriving DecidableEq, Repr

/-- `N_POW - 1`, a free value (DESIGN CHOICE, assumption log 4): 00_scope.md R6 leaves `N_POW` open. -/
opaque Config.nPowLessOne : Nat

/-- `N_POW`, the number of entries of region POW: "a natural number the model takes as an argument, `N_POW ≥ 1`"
(00_scope.md R6). -/
def Config.nPow : Nat := Config.nPowLessOne + 1

/-- The bits a NaN-creating primitive draws, a free value (DESIGN CHOICE, assumption log 3): a function of the operation and
its operands, before the quiet-NaN bits are forced (00_scope.md R18; `Sys2Proof.Machine.qnan` forces them). The third word is
the addend of `fma` and 0 for the other two. -/
opaque Config.nanDraw : ArithOp → Word → Word → Word → Word

end Sys2Proof
end

