-- ==== Sys2Proof/Machine/Float.lean ====
section
/-! DEFINITION. The binary64 primitives of 00_scope.md: fields, classes, exact values, rounding, `fadd`, `fneg`, `fsub`, `fmul`,
`fma`, `fcmp` (R9 to R18). Every value of a finite word is a whole number of units of 2^-1074, and every sum and product the
primitives round is a whole number of units of 2^-2148, so exact rationals are held as integers in those units. There are no
floating-point flags (R19). -/

namespace Sys2Proof.Machine

/-! ## Fields (R9) -/

/-- `sign(w) = w[63]`. -/
def sign (w : Word) : Bool := w.getLsbD 63
/-- `bexp(w) = w[62:52]`, the biased exponent, as a number. -/
def bexp (w : Word) : Nat := (w.extractLsb' 52 11).toNat
/-- `mant(w) = w[51:0]`, the mantissa, as a number. -/
def mant (w : Word) : Nat := (w.extractLsb' 0 52).toNat

/-- The word of a sign, an exponent field and a mantissa, `s ‖ e ‖ m`. -/
def joinFields (s : BitVec 1) (e : BitVec 11) (m : BitVec 52) : Word :=
  s.setWidth 64 <<< 63 ||| e.setWidth 64 <<< 52 ||| m.setWidth 64

/-! ## Classes (R10) -/

/-- The seven classes, in the document's order. -/
inductive FpClass where
  | nan
  | posInf
  | negInf
  | posZero
  | negZero
  | subnormal
  | normal
  deriving DecidableEq, Repr

/-- The class of a word (R10). -/
def classOf (w : Word) : FpClass :=
  if bexp w = 2047 then
    if mant w ≠ 0 then .nan else if sign w then .negInf else .posInf
  else if bexp w = 0 then
    if mant w ≠ 0 then .subnormal else if sign w then .negZero else .posZero
  else .normal

/-- `w` is a NaN. -/
abbrev IsNan (w : Word) : Prop := bexp w = 2047 ∧ mant w ≠ 0
/-- `w` is an infinity. -/
abbrev IsInf (w : Word) : Prop := bexp w = 2047 ∧ mant w = 0
/-- `w` is a zero of either sign. -/
abbrev IsZero (w : Word) : Prop := bexp w = 0 ∧ mant w = 0
/-- `w` is finite: a zero, a subnormal or a normal (R10). -/
abbrev IsFinite (w : Word) : Prop := bexp w ≠ 2047
/-- `w` is a quiet NaN: `bexp = 2047` and `mant[51] = 1` (R10, R18). -/
abbrev IsQuietNan (w : Word) : Prop := bexp w = 2047 ∧ w.getLsbD 51 = true

/-! ## Values (R11) -/

/-- `|val(w)|` in units of 2^-1074, for a finite word: `(2^52 + mant) · 2^(bexp - 1)` when normal, `mant` when subnormal or
zero. -/
def magUnits (w : Word) : Nat := if bexp w = 0 then mant w else (2 ^ 52 + mant w) * 2 ^ (bexp w - 1)

/-- `val(w)` in units of 2^-1074, for a finite word. -/
def units (w : Word) : Int := if sign w then -(magUnits w : Int) else (magUnits w : Int)

/-! ## Rounding (R12) -/

/-- The word with sign `s` and low 63 bits `n`. -/
def signMag (s : Bool) (n : Nat) : Word := BitVec.ofNat 64 ((if s then 2 ^ 63 else 0) + n)

/-- The infinity with sign `s`. -/
def infWord (s : Bool) : Word := signMag s (2047 * 2 ^ 52)

/-- The zero with sign `s`. -/
def zeroWord (s : Bool) : Word := signMag s 0

/-- The low 63 bits of the rounding of `m · 2^-2148`, `m` not 0. The last place kept is bit `p` of `m`: 52 places below the
leading bit, but never below 2^-1074 (gradual underflow). Half of it rounds up when the part below exceeds a half, or is a half
and the kept part is odd. The exponent field and the mantissa are one number, so a carry moves into the exponent by itself, and
what would be `2^1024` or more is the infinity. -/
def rneMag (m : Nat) : Nat :=
  let p := max (Nat.log2 m - 52) 1074
  let kept := m / 2 ^ p
  let rest := m % 2 ^ p
  let up := 2 ^ p < 2 * rest ∨ 2 ^ p = 2 * rest ∧ kept % 2 = 1
  let rounded := if up then kept + 1 else kept
  min ((p - 1074) * 2 ^ 52 + rounded) (2047 * 2 ^ 52)

/-- `rne(q, zs)` for `q` in units of 2^-2148 (R12): round to nearest, ties to even; the zero with sign `zs` when `q = 0`, else
the sign of `q`. -/
def rne (q : Int) (zs : Bool) : Word := if q = 0 then zeroWord zs else signMag (decide (q < 0)) (rneMag q.natAbs)

/-! ## QNAN (R18) -/

/-- `QNAN` of an operation and its operands: some quiet NaN, of which "a model may rely only on its being a quiet NaN" (R18;
assumption log 3). The bits are `Config.nanDraw`'s with `bexp = 2047` and `mant[51] = 1` forced. -/
def qnan (op : ArithOp) (a b c : Word) : Word := Config.nanDraw op a b c ||| 0x7FF8000000000000

/-- `QNAN` of `fadd` and `fmul`: their operands enter in numerical order, because the two are commutative (45_poly.md R127;
DEDUCED, assumption log 3). -/
def qnanCommutative (op : ArithOp) (a b : Word) : Word := if a.toNat ≤ b.toNat then qnan op a b 0 else qnan op b a 0

/-! ## Arithmetic (R13 to R16) -/

/-- `fneg(a)`: bit 63 inverted, for every word (R14). -/
def fneg (a : Word) : Word := a ^^^ 0x8000000000000000

/-- `fadd(a, b)` (R13). -/
def fadd (a b : Word) : Word :=
  if IsNan a ∨ IsNan b then qnanCommutative .fadd a b
  else if IsInf a ∧ IsInf b then (if sign a = sign b then a else qnanCommutative .fadd a b)
  else if IsInf a then a
  else if IsInf b then b
  else
    let q := units a + units b
    if q = 0 then zeroWord (sign a && sign b) else rne (q * 2 ^ 1074) false

/-- `fsub(a, b) = fadd(a, fneg(b))` (R14). -/
def fsub (a b : Word) : Word := fadd a (fneg b)

/-- `fmul(a, b)` (R15). -/
def fmul (a b : Word) : Word :=
  let s := sign a ^^ sign b
  if IsNan a ∨ IsNan b then qnanCommutative .fmul a b
  else if IsInf a ∧ IsZero b ∨ IsZero a ∧ IsInf b then qnanCommutative .fmul a b
  else if IsInf a ∨ IsInf b then infWord s
  else rne (units a * units b) s

/-- `fma(a, b, c)`: `a × b + c` with one rounding (R16). -/
def fma (a b c : Word) : Word :=
  let s := sign a ^^ sign b
  if IsNan a ∨ IsNan b ∨ IsNan c then qnan .fma a b c
  else if IsInf a ∧ IsZero b ∨ IsZero a ∧ IsInf b then qnan .fma a b c
  else if IsInf a ∨ IsInf b then (if IsInf c ∧ sign c ≠ s then qnan .fma a b c else infWord s)
  else if IsInf c then c
  else
    let q := units a * units b + units c * 2 ^ 1074
    if q = 0 then zeroWord (s && sign c) else rne q false

/-! ## Comparison (R17) -/

/-- The answers of `fcmp`. -/
inductive FpOrder where
  | lt
  | eq
  | gt
  | un
  deriving DecidableEq, Repr

/-- A word that is no NaN as an extended real in units of 2^-1074: the infinities stand beyond every finite value, whose
magnitude is below 2^2098 units. -/
def extUnits (w : Word) : Int := if IsInf w then (if sign w then -2 ^ 2098 else 2 ^ 2098) else units w

/-- `fcmp(a, b)` (R17). -/
def fcmp (a b : Word) : FpOrder :=
  if IsNan a ∨ IsNan b then .un
  else if extUnits a < extUnits b then .lt
  else if extUnits a = extUnits b then .eq
  else .gt

end Sys2Proof.Machine
end

