-- ==== Sys2Proof/Machine/Flags.lean ====
section
/-! DEFINITION. The block has no flags and no condition codes (10_state.md R38): the results of classification and comparison are
ordinary words. Here are those words and the predicate test: CLASS, ICLASS and CMP words (42_classify.md R96 to R98), predicates
(43_mux.md R105). -/

namespace Sys2Proof.Machine

/-- The bit of a class in a class word (R96). -/
def classBit (c : FpClass) : Word :=
  match c with
  | .nan => 0x001
  | .posInf => 0x002
  | .negInf => 0x004
  | .posZero => 0x008
  | .negZero => 0x010
  | .subnormal => 0x020
  | .normal => 0x040

/-- `classword(w)`: exactly one of bits 6:0, and bit 7 a copy of the sign (R96). -/
def classWord (w : Word) : Word := classBit (classOf w) ||| (if sign w then 0x080 else 0)

/-- The three answers of ICLASS (R97). -/
inductive IntClass where
  | nonint
  | even
  | odd
  deriving DecidableEq, Repr

/-- The integer class of a word, by the case list of R97. `u = bexp - 1023` is an integer; `f[51 - u : 0]` is the fraction part of
the mantissa and `f[52 - u]` the units bit. -/
def intClassOf (w : Word) : IntClass :=
  let u : Int := (bexp w : Int) - 1023
  if bexp w = 2047 then .nonint
  else if bexp w = 0 ∧ mant w = 0 then .even
  else if bexp w = 0 then .nonint
  else if u < 0 then .nonint
  else if u ≥ 53 then .even
  else if mant w % 2 ^ (52 - u.toNat) ≠ 0 then .nonint
  else if u = 0 then .odd
  else if (mant w).testBit (52 - u.toNat) then .odd
  else .even

/-- `iclassword(w)`: bit 0 NONINT, bit 1 EVEN, bit 2 ODD (R97). -/
def iclassWord (w : Word) : Word :=
  match intClassOf w with
  | .nonint => 0x1
  | .even => 0x2
  | .odd => 0x4

/-- `cmpword`: bit 0 LT, bit 1 EQ, bit 2 GT, bit 3 UN (R98). -/
def cmpWord (o : FpOrder) : Word :=
  match o with
  | .lt => 0x1
  | .eq => 0x2
  | .gt => 0x4
  | .un => 0x8

/-- A predicate is true when it is not all zeros (R105). -/
abbrev IsTrue (p : Word) : Prop := p ≠ 0

/-- The predicate word 1 or 0 (R99). -/
def predWord (b : Bool) : Word := if b then 1 else 0

end Sys2Proof.Machine
end

