-- ==== Sys2Proof/Machine/State.lean ====
section
/-! DEFINITION. The state of the block, as plain data, and the state after reset (10_state.md). "There is nothing else" than the
registers with their written marks, STATUS, TAB and COEF (10_state.md); beside them stands the host interface of R5, which a
step reads its command from and leaves its answer in. -/

namespace Sys2Proof.Machine

/-- The phase, `STATUS.PHASE` (10_state.md R37). -/
inductive Phase where
  /-- 0: TAB and COEF can be written and not read -/
  | init
  /-- 1: TAB and COEF can be read and not written -/
  | run
  deriving DecidableEq, Repr

/-- The fault codes of `STATUS.FAULT` (60_exceptions.md R161). These are the block's own exceptions: a command that raises one
still ends in a next state (R162). "Codes 7 to 15 are never produced", so they have no names. -/
inductive FaultCode where
  /-- 0: no fault has happened since reset -/
  | none
  /-- 1: the command word is not a legal encoding -/
  | illegal
  /-- 2: the command is not allowed in the current phase -/
  | phase
  /-- 3: a source register of the command is unwritten -/
  | unwritten
  /-- 4: a table index is at or beyond the size of its region -/
  | index
  /-- 5: the table entry or a coefficient slot to be read is unwritten -/
  | uninit
  /-- 6: EXPADD outside the range of normal exponents -/
  | exprange
  deriving DecidableEq, Repr

/-- The register STATUS (10_state.md R34), by its fields. The reserved bits read as 0 and nothing writes them, so they have no
storage; `statusWord` (Machine/Ops.lean) is the 64-bit word. -/
structure Status where
  /-- bit 0 -/
  phase : Phase
  /-- bits 7:4 -/
  fault : FaultCode
  /-- bits 63:32, `FCMD`: the command word that faulted -/
  fcmd : Cmd
  deriving DecidableEq, Repr

/-- The two memories (10_state.md R35, R36). Each is a list of (key, content) with keys strictly rising; an unlisted key is
unwritten, which is what reset leaves (R39). A table key is the entry's index; a COEF key is `coefKey` (Machine/Ops.lean). -/
structure Memory where
  /-- TAB region 0 -/
  exp : List (Nat × DoubleDouble)
  /-- TAB region 1 -/
  log : List (Nat × DoubleDouble)
  /-- TAB region 2 -/
  pow : List (Nat × DoubleDouble)
  /-- COEF, all four banks -/
  coef : List (Nat × Word)
  deriving DecidableEq, Repr

/-- What the host does next (00_scope.md R5, 70_reset_and_hazards.md R175). -/
inductive HostEvent where
  /-- the host presents a command word and a data word -/
  | transaction (cmd : Cmd) (wdata : Word)
  /-- the host applies reset -/
  | reset
  deriving DecidableEq, Repr

/-- The `status` of an answer; "3 is never produced" (00_scope.md R5, 60_exceptions.md R160). -/
inductive AnswerStatus where
  /-- 0: the command executed -/
  | ok
  /-- 1: this command faulted -/
  | fault
  /-- 2: an earlier command faulted and this one was ignored -/
  | halted
  deriving DecidableEq, Repr

/-- The block's answer to a transaction (00_scope.md R5). -/
structure Answer where
  status : AnswerStatus
  rdata : Word
  deriving DecidableEq, Repr

/-- The reasons the MODEL can stop with a fault: none. Every transaction has an answer and `step` is total (60_exceptions.md
R160, 93_implementation_defined.md U16); the block's own faults are `FaultCode`. Safe: no behaviour is cut off. -/
inductive Fault
  deriving DecidableEq, Repr

/-- The reasons the MODEL can refuse an instruction. -/
inductive Refusal where
  /-- Raised only by an arm of `exec` whose command has no meaning yet; no arm raises it. Safe: the model stops where the
  block goes on. -/
  | notModelled (mnemonic : String)
  deriving DecidableEq, Repr

/-- The state of the block and of its host interface. -/
structure State where
  /-- the registers `x[0]` to `x[15]`; `none` is a written mark of 0 (10_state.md R30, R31; DEDUCED, assumption log 1) -/
  regs : Vector (Option Word) 16
  /-- STATUS (R34) -/
  status : Status
  /-- TAB and COEF (R35, R36) -/
  mem : Memory
  /-- the command word of the transaction being executed (00_scope.md R5) -/
  cmd : Cmd
  /-- its data word -/
  wdata : Word
  /-- the last answer given; `none` before the first transaction after reset -/
  answer : Option Answer
  /-- the model's own field: what the host will do, the next event first (DESIGN CHOICE, assumption log 2) -/
  host : List HostEvent
  deriving DecidableEq, Repr

/-- STATUS after reset: phase INIT, no fault, FCMD 0 (10_state.md R39). -/
def Status.reset : Status := { phase := .init, fault := .none, fcmd := 0 }

/-- The memories after reset: every entry and every slot unwritten (10_state.md R39). -/
def Memory.empty : Memory := { exp := [], log := [], pow := [], coef := [] }

/-- The state right after reset (10_state.md R39): all registers unwritten, STATUS 0, TAB and COEF unwritten, no answer given.
`cmd`, `wdata` and `host` are the interface's and hold nothing yet (DESIGN CHOICE, assumption log 2). -/
def State.reset : State :=
  { regs := Vector.replicate 16 none
    status := .reset
    mem := .empty
    cmd := 0
    wdata := 0
    answer := none
    host := [] }

end Sys2Proof.Machine
end

