-- ==== Sys2Proof/Machine/Ops.lean ====
section
/-! DEFINITION. The named operations on the state: registers and pairs, the two memories, STATUS, the answers, and taking a
fault (60_exceptions.md R162), the block's one kind of exception. There is no return from a fault (R166). -/

namespace Sys2Proof.Machine

/-- What executing a command answers. -/
abbrev Result := Host.Outcome State Fault Refusal

/-! ## Registers and pairs (10_state.md R30 to R32) -/

/-- The register `x[r]`, `none` when it is unwritten (R31). -/
def readReg (s : State) (r : Reg) : Option Word := s.regs[r]

/-- The write `x[r] <- w`, which sets the written mark `v[r]` (R31). No register is hardwired (R30). -/
def writeReg (s : State) (r : Reg) (w : Word) : State := { s with regs := s.regs.set r (some w) }

/-- The pair's first register, `hi` (R32). -/
def pairHi (p : Pair) : Reg := ⟨2 * p.val, by omega⟩

/-- The pair's second register, `lo` (R32). -/
def pairLo (p : Pair) : Reg := ⟨2 * p.val + 1, by omega⟩

/-- The write of a DoubleDouble to a pair: both registers (R32, 70_reset_and_hazards.md R178). -/
def writePair (s : State) (p : Pair) (d : DoubleDouble) : State :=
  writeReg (writeReg s (pairHi p) d.hi) (pairLo p) d.lo

/-! ## Memory cells

A memory is a list of (key, content) with keys strictly rising. An unlisted key is unwritten. -/

/-- The content at a key, `none` when it is unwritten. -/
def cellRead {α : Type} (m : List (Nat × α)) (k : Nat) : Option α :=
  match m with
  | [] => none
  | (a, v) :: rest => if a = k then some v else cellRead rest k

/-- The memory with content `v` at key `k`, in canonical form if `m` is. -/
def cellWrite {α : Type} (m : List (Nat × α)) (k : Nat) (v : α) : List (Nat × α) :=
  match m with
  | [] => [(k, v)]
  | (a, u) :: rest =>
    if k < a then (k, v) :: (a, u) :: rest
    else if a = k then (k, v) :: rest
    else (a, u) :: cellWrite rest k v

/-- Canonical form: keys strictly rising, every key below the size of its space. -/
abbrev CellsWf {α : Type} (size : Nat) (m : List (Nat × α)) : Prop :=
  (m.map Prod.fst).Pairwise (· < ·) ∧ ∀ k ∈ m.map Prod.fst, k < size

/-! ## The table memory (10_state.md R35, 20_memory.md R46, R48, R49) -/

/-- The number of entries of a region: 64, 129 or `N_POW` (R46). -/
def regionSize (g : Region) : Nat :=
  match g with
  | .exp => 64
  | .log => 129
  | .pow => Config.nPow

/-- The cells of a region. -/
def regionCells (m : Memory) (g : Region) : List (Nat × DoubleDouble) :=
  match g with
  | .exp => m.exp
  | .log => m.log
  | .pow => m.pow

/-- The entry `TAB[g][k]`, `none` when it is unwritten. -/
def tabRead (m : Memory) (g : Region) (k : Nat) : Option DoubleDouble := cellRead (regionCells m g) k

/-- `TAB[g][k]` becomes the pair, both words together (R49). -/
def tabWrite (m : Memory) (g : Region) (k : Nat) (d : DoubleDouble) : Memory :=
  match g with
  | .exp => { m with exp := cellWrite m.exp k d }
  | .log => { m with log := cellWrite m.log k d }
  | .pow => { m with pow := cellWrite m.pow k d }

/-! ## The coefficient memory (10_state.md R36, 20_memory.md R47, R50, R51) -/

/-- The number of slots of all banks: `NBANK` times `NCOEF` (00_scope.md R6). -/
def coefSize : Nat := 36

/-- The key of slot `k` of bank `b`: nine slots to a bank. -/
def coefKey (b : Bank) (k : Slot) : Nat := 9 * b.val + k.val

/-- The coefficient `COEF[b][k]`, `none` when it is unwritten. -/
def coefRead (m : Memory) (b : Bank) (k : Slot) : Option Word := cellRead m.coef (coefKey b k)

/-- `COEF[b][k]` becomes the word (R51). -/
def coefWrite (m : Memory) (b : Bank) (k : Slot) (w : Word) : Memory :=
  { m with coef := cellWrite m.coef (coefKey b k) w }

/-- The memories are in canonical form, and no entry lies outside its region or bank. -/
abbrev Memory.wf (m : Memory) : Prop :=
  CellsWf (regionSize .exp) m.exp ∧ CellsWf (regionSize .log) m.log ∧ CellsWf (regionSize .pow) m.pow ∧
    CellsWf coefSize m.coef

/-! ## STATUS (10_state.md R34) -/

/-- The code of a fault (60_exceptions.md R161). -/
def faultNumber (c : FaultCode) : Nat :=
  match c with
  | .none => 0
  | .illegal => 1
  | .phase => 2
  | .unwritten => 3
  | .index => 4
  | .uninit => 5
  | .exprange => 6

/-- The PHASE bit: 0 is INIT, 1 is RUN (R34). -/
def phaseBit (p : Phase) : BitVec 1 :=
  match p with
  | .init => 0
  | .run => 1

/-- The 64-bit word STATUS: `FCMD` in 63:32, zeros in 31:8, `FAULT` in 7:4, zeros in 3:1, `PHASE` in bit 0 (R34). -/
def statusWord (t : Status) : Word :=
  t.fcmd.setWidth 64 <<< 32 ||| BitVec.ofNat 64 (faultNumber t.fault) <<< 4 ||| (phaseBit t.phase).setWidth 64

/-! ## The outcomes of a transaction (60_exceptions.md R160) -/

/-- The status number of an answer (00_scope.md R5). -/
def answerNumber (a : AnswerStatus) : BitVec 2 :=
  match a with
  | .ok => 0
  | .fault => 1
  | .halted => 2

/-- The state with an answer given. -/
def answered (s : State) (status : AnswerStatus) (rdata : Word) : State := { s with answer := some ⟨status, rdata⟩ }

/-- The command is complete and answers `OK` with a data word. -/
def answerData (s : State) (rdata : Word) : Result := .next (answered s .ok rdata)

/-- The command is complete and answers `OK` with `rdata = 0`, as every command but GET and GETS does (00_scope.md R5). -/
def complete (s : State) : Result := answerData s 0

/-- The record of a fault in STATUS: `STATUS.FAULT <- code`, `STATUS.FCMD <- cmd`, the phase kept (60_exceptions.md R162). -/
def faultState (code : FaultCode) (s : State) : State :=
  { s with status := { s.status with fault := code, fcmd := s.cmd } }

/-- Taking a fault (60_exceptions.md R162): STATUS records it, the answer is FAULT with `rdata = 0`, and nothing else changes.
The block is halted from then on. -/
def raise (code : FaultCode) (s : State) : Result := .next (answered (faultState code s) .fault 0)

/-- The block is halted: `STATUS.FAULT` is not zero (60_exceptions.md R163). -/
abbrev Halted (s : State) : Prop := s.status.fault ≠ .none

/-- The answer of a halted block to every command but GETS: HALTED, `rdata = 0`, nothing changes (R163). -/
def answerHalted (s : State) : Result := .next (answered s .halted 0)

/-- Every command but GETS: ignored while the block is halted, else executed (R163, R164 test 0). -/
def command (s : State) (body : Result) : Result := if Halted s then answerHalted s else body

/-- A command that is allowed in phase `p` only: PHASE otherwise (10_state.md R37). -/
def inPhase (p : Phase) (s : State) (body : Result) : Result := if s.status.phase = p then body else raise .phase s

/-- A word that is no legal command: ILLEGAL (30_encoding.md R64 to R67), unless the block is halted. -/
def illegalWord (s : State) : Result := command s (raise .illegal s)

/-! ## The access primitives that can fault (20_memory.md R48 to R50) -/

/-- The index test of `TabRead` and `TabWrite`: INDEX when `k ≥ size(g)`. -/
def withIndex (s : State) (g : Region) (k : Nat) (body : Result) : Result :=
  if k < regionSize g then body else raise .index s

/-- `TabRead(g, k)` (R48): INDEX, then UNINIT, else the pair. -/
def withEntry (s : State) (g : Region) (k : Nat) (body : DoubleDouble → Result) : Result :=
  withIndex s g k <|
    match tabRead s.mem g k with
    | some d => body d
    | none => raise .uninit s

/-- The coefficients of slots 0 to `n` of a bank, or `none` if any of them is unwritten (R50, 45_poly.md R125). -/
def readCoefs (m : Memory) (b : Bank) (n : Slot) : Option (List Word) :=
  ((List.finRange 9).filter (· ≤ n)).mapM (coefRead m b)

/-- `CoefRead` of slots 0 to `n` (R50): UNINIT if any is unwritten, else the list `[c[0], …, c[n]]`. -/
def withCoefs (s : State) (b : Bank) (n : Slot) (body : List Word → Result) : Result :=
  match readCoefs s.mem b n with
  | some cs => body cs
  | none => raise .uninit s

/-! ## The host (00_scope.md R5, 70_reset_and_hazards.md R175) -/

/-- What the host does next. -/
inductive Fetched where
  /-- nothing: the block is idle -/
  | idle
  /-- reset, with the state it leaves -/
  | reset (s : State)
  /-- a transaction with this command word, and the state with it on the interface -/
  | command (w : Cmd) (s : State)

/-- Reset: the state of 10_state.md R39; "Nothing survives reset". What the host does afterwards is the host's. -/
def applyReset (rest : List HostEvent) : State := { State.reset with host := rest }

/-- A transaction is presented: its words are on the interface. -/
def present (s : State) (w : Cmd) (data : Word) (rest : List HostEvent) : State :=
  { s with cmd := w, wdata := data, host := rest }

/-- The next event of the host. -/
def fetch (s : State) : Fetched :=
  match s.host with
  | [] => .idle
  | .reset :: rest => .reset (applyReset rest)
  | .transaction w data :: rest => .command w (present s w data rest)

/-- The state with a transaction put before all that the host will do. -/
def pushTransaction (s : State) (w : Cmd) (data : Word) : State := { s with host := .transaction w data :: s.host }

end Sys2Proof.Machine
end

