-- ==== Sys2Proof/Machine/Operands.lean ====
section
/-! DEFINITION. The operand forms: a source register, a source pair, several sources, the immediates of formats I and M
(30_encoding.md R68). Reading an unwritten register raises UNWRITTEN (10_state.md R31); every command reads all its sources
before it writes anything (70_reset_and_hazards.md R178). -/

namespace Sys2Proof.Machine

/-- A source register: its word, or UNWRITTEN. -/
def withReg (s : State) (r : Reg) (body : Word → Result) : Result :=
  match readReg s r with
  | some w => body w
  | none => raise .unwritten s

/-- A source pair: both of its words, or UNWRITTEN (60_exceptions.md R164: "those of a pair included"). -/
def withPair (s : State) (p : Pair) (body : DoubleDouble → Result) : Result :=
  withReg s (pairHi p) fun h => withReg s (pairLo p) fun l => body ⟨h, l⟩

/-- The bit field `w[lsb + wm1 : lsb]`, zero-extended (42_classify.md R93). -/
def zextField (w : Word) (lsb wm1 : BitPos) : Word := (w.extractLsb' lsb.val (wm1.val + 1)).setWidth 64

/-- The bit field `w[lsb + wm1 : lsb]`, sign-extended (42_classify.md R94). -/
def sextField (w : Word) (lsb wm1 : BitPos) : Word := (w.extractLsb' lsb.val (wm1.val + 1)).signExtend 64

/-- The mask of CTEST, `zext_64(imm12)` (30_encoding.md R68). -/
def zextMask (mask : BitVec 12) : Word := mask.setWidth 64

end Sys2Proof.Machine
end

