-- ==== Sys2Proof/Machine/Classify.lean ====
section
/-! DEFINITION. The bit-extraction and classification commands (42_classify.md R90 to R100). All work in both phases and none
touches memory. -/

namespace Sys2Proof.Machine

/-- A command with one source and one destination register: `x[rd] <- f(x[rs])`. -/
def unaryCommand (f : Word → Word) (rd rs : Reg) (s : State) : Result :=
  command s <| withReg s rs fun w => complete (writeReg s rd (f w))

/-- A command with two sources and one destination register: `x[rd] <- f(x[ra], x[rb])`. -/
def binaryCommand (f : Word → Word → Word) (rd ra rb : Reg) (s : State) : Result :=
  command s <| withReg s ra fun a => withReg s rb fun b => complete (writeReg s rd (f a b))

/-- XSGN (R90): `zext_64(x[rs][63])`. -/
def execXsgn (rd rs : Reg) (s : State) : Result := unaryCommand (fun w => (w.extractLsb' 63 1).setWidth 64) rd rs s

/-- XEXP (R91): `zext_64(x[rs][62:52])`. -/
def execXexp (rd rs : Reg) (s : State) : Result := unaryCommand (fun w => (w.extractLsb' 52 11).setWidth 64) rd rs s

/-- XMAN (R92): `zext_64(x[rs][51:0])`. -/
def execXman (rd rs : Reg) (s : State) : Result := unaryCommand (fun w => (w.extractLsb' 0 52).setWidth 64) rd rs s

/-- A bit-field command: ILLEGAL when the field runs past bit 63 (R93; the decoder gives no such command). -/
def fieldCommand (f : Word → BitPos → BitPos → Word) (rd rs : Reg) (lsb wm1 : BitPos) (s : State) : Result :=
  if fieldFits lsb wm1 then unaryCommand (fun w => f w lsb wm1) rd rs s else illegalWord s

/-- BFX (R93): the field `x[rs][lsb + wm1 : lsb]`, zero-extended. -/
def execBfx (rd rs : Reg) (lsb wm1 : BitPos) (s : State) : Result := fieldCommand zextField rd rs lsb wm1 s

/-- BFXS (R94): the field, sign-extended. -/
def execBfxs (rd rs : Reg) (lsb wm1 : BitPos) (s : State) : Result := fieldCommand sextField rd rs lsb wm1 s

/-- `x[rs][0] ‖ x[re][10:0] ‖ x[rm][51:0]` (R95). -/
def packWord (ws we wm : Word) : Word :=
  joinFields (ws.extractLsb' 0 1) (we.extractLsb' 0 11) (wm.extractLsb' 0 52)

/-- PACK (R95): a word from a sign, an exponent and a mantissa; higher bits of the sources are ignored. -/
def execPack (rd rs re rm : Reg) (s : State) : Result :=
  command s <| withReg s rs fun ws => withReg s re fun we => withReg s rm fun wm =>
    complete (writeReg s rd (packWord ws we wm))

/-- The word of `w` with exponent field `E + n`, or `none` where R100 raises EXPRANGE: `w` not normal, or `E + n` outside 1 to
2046, as mathematical integers. -/
def expAdd (w n : Word) : Option Word :=
  let e : Int := bexp w + n.toInt
  if bexp w = 0 ∨ bexp w = 2047 then none
  else if e < 1 ∨ 2046 < e then none
  else some (joinFields (w.extractLsb' 63 1) (BitVec.ofInt 11 e) (w.extractLsb' 0 52))

/-- EXPADD (R100). -/
def execExpadd (rd ra rn : Reg) (s : State) : Result :=
  command s <| withReg s ra fun w => withReg s rn fun n =>
    match expAdd w n with
    | some r => complete (writeReg s rd r)
    | none => raise .exprange s

/-- CLASS (R96). -/
def execClassify (rd rs : Reg) (s : State) : Result := unaryCommand classWord rd rs s

/-- ICLASS (R97). -/
def execIclass (rd rs : Reg) (s : State) : Result := unaryCommand iclassWord rd rs s

/-- CMP (R98). -/
def execCmp (rd ra rb : Reg) (s : State) : Result := binaryCommand (fun a b => cmpWord (fcmp a b)) rd ra rb s

/-- CTEST (R99): 1 if `x[rs] AND zext_64(mask)` is not 0, else 0. -/
def execCtest (rd rs : Reg) (mask : BitVec 12) (s : State) : Result :=
  unaryCommand (fun w => predWord (w &&& zextMask mask ≠ 0)) rd rs s

end Sys2Proof.Machine
end

