-- ==== Sys2Proof/Machine/DoubleDouble.lean ====
section
/-! DEFINITION. The double-double adder/multiplier (44_ddarith.md R110 to R119). Each command runs one fixed sequence of rounded
operations on every operand, NaNs and infinities included, and faults on no operand value (R119). -/

namespace Sys2Proof.Machine

/-- `FastTwoSum(a, b)`, three operations (R110). -/
def fastTwoSum (a b : Word) : DoubleDouble :=
  let s := fadd a b
  let z := fsub s a
  let e := fsub b z
  ⟨s, e⟩

/-- `TwoSum(a, b)`, six operations (R111). -/
def twoSum (a b : Word) : DoubleDouble :=
  let s := fadd a b
  let bb := fsub s a
  let aa := fsub s bb
  let db := fsub b bb
  let da := fsub a aa
  let e := fadd da db
  ⟨s, e⟩

/-- `TwoProd(a, b)`, two operations (R112): the only use of `fma`. -/
def twoProd (a b : Word) : DoubleDouble :=
  let p := fmul a b
  let e := fma a b (fneg p)
  ⟨p, e⟩

/-- The sum of a DoubleDouble and a double, ten operations (R113). -/
def ddAddD (a : DoubleDouble) (b : Word) : DoubleDouble :=
  let t := twoSum a.hi b
  let v := fadd t.lo a.lo
  fastTwoSum t.hi v

/-- The sum of two DoubleDoubles, twenty operations (R114). -/
def ddAdd (a b : DoubleDouble) : DoubleDouble :=
  let s := twoSum a.hi b.hi
  let t := twoSum a.lo b.lo
  let c := fadd s.lo t.hi
  let v := fastTwoSum s.hi c
  let w := fadd t.lo v.lo
  fastTwoSum v.hi w

/-- The product of a DoubleDouble and a double, seven operations (R115). -/
def ddMulD (a : DoubleDouble) (b : Word) : DoubleDouble :=
  let c := twoProd a.hi b
  let cl2 := fmul a.lo b
  let cl3 := fadd c.lo cl2
  fastTwoSum c.hi cl3

/-- The product of two DoubleDoubles, nine operations (R116): `al × bl` is not computed. -/
def ddMul (a b : DoubleDouble) : DoubleDouble :=
  let c := twoProd a.hi b.hi
  let tl1 := fmul a.hi b.lo
  let tl2 := fmul a.lo b.hi
  let cl2 := fadd tl1 tl2
  let cl3 := fadd c.lo cl2
  fastTwoSum c.hi cl3

/-- TWOSUM (R111). -/
def execTwosum (pd : Pair) (ra rb : Reg) (s : State) : Result :=
  command s <| withReg s ra fun a => withReg s rb fun b => complete (writePair s pd (twoSum a b))

/-- TWOPROD (R112). -/
def execTwoprod (pd : Pair) (ra rb : Reg) (s : State) : Result :=
  command s <| withReg s ra fun a => withReg s rb fun b => complete (writePair s pd (twoProd a b))

/-- DDADDD (R113). -/
def execDdaddd (pd pa : Pair) (rb : Reg) (s : State) : Result :=
  command s <| withPair s pa fun a => withReg s rb fun b => complete (writePair s pd (ddAddD a b))

/-- DDADD (R114). -/
def execDdadd (pd pa pb : Pair) (s : State) : Result :=
  command s <| withPair s pa fun a => withPair s pb fun b => complete (writePair s pd (ddAdd a b))

/-- DDMULD (R115). -/
def execDdmuld (pd pa : Pair) (rb : Reg) (s : State) : Result :=
  command s <| withPair s pa fun a => withReg s rb fun b => complete (writePair s pd (ddMulD a b))

/-- DDMUL (R116). -/
def execDdmul (pd pa pb : Pair) (s : State) : Result :=
  command s <| withPair s pa fun a => withPair s pb fun b => complete (writePair s pd (ddMul a b))

end Sys2Proof.Machine
end

