-- ==== Sys2Proof/Machine/Mux.lean ====
section
/-! DEFINITION. The multiplexers MUX2 and MUX3 (43_mux.md R105 to R107). All inputs are read, the unselected ones included. -/

namespace Sys2Proof.Machine

/-- The select of MUX2 (R106). -/
def mux2 (p a b : Word) : Word := if IsTrue p then a else b

/-- The priority select of MUX3 (R107). -/
def mux3 (p q a b c : Word) : Word := if IsTrue p then a else if IsTrue q then b else c

/-- MUX2 (R106): `x[rd] <- x[ra] if uint(x[rp]) ≠ 0 else x[rb]`. -/
def execMux2 (rd rp ra rb : Reg) (s : State) : Result :=
  command s <| withReg s rp fun p => withReg s ra fun a => withReg s rb fun b =>
    complete (writeReg s rd (mux2 p a b))

/-- MUX3 (R107): two predicates in priority order. -/
def execMux3 (rd rp rq ra rb rc : Reg) (s : State) : Result :=
  command s <| withReg s rp fun p => withReg s rq fun q =>
    withReg s ra fun a => withReg s rb fun b => withReg s rc fun c =>
      complete (writeReg s rd (mux3 p q a b c))

end Sys2Proof.Machine
end

