-- ==== Sys2Proof/Machine/Poly.lean ====
section
/-! DEFINITION. The polynomial evaluator POLYH, POLYE (45_poly.md R125 to R127): `fmul` and `fadd`, never `fma`. -/

namespace Sys2Proof.Machine

/-- Horner's scheme on the coefficients `[c[0], …, c[n]]` (R126): highest coefficient first, `acc <- fadd(fmul(acc, r), c[k])`.
The empty list does not arise. -/
def horner (cs : List Word) (r : Word) : Word :=
  match cs with
  | [] => 0
  | [c] => c
  | c :: c' :: rest => fadd (fmul (horner (c' :: rest) r) r) c

/-- One level of Estrin's scheme (R127): each pair of neighbours becomes `fadd(cs[2i], fmul(cs[2i+1], y))`; an unpaired last
element passes unchanged. -/
def estrinLevel (cs : List Word) (y : Word) : List Word :=
  match cs with
  | [] => []
  | [c] => [c]
  | c :: c' :: rest => fadd c (fmul c' y) :: estrinLevel rest y

/-- Estrin's scheme (R127) in at most `fuel` levels; a list of one element is the result. The list's length is fuel enough, since
each level shortens a list of two or more. -/
def estrin (fuel : Nat) (cs : List Word) (y : Word) : Word :=
  match fuel, cs with
  | _, [] => 0
  | _, [c] => c
  | 0, c :: _ :: _ => c
  | fuel + 1, c :: c' :: rest => estrin fuel (estrinLevel (c :: c' :: rest) y) (fmul y y)

/-- A polynomial command (R125): RUN only; PHASE, UNWRITTEN, UNINIT in that order. -/
def polyCommand (eval : List Word → Word → Word) (rd rs : Reg) (bank : Bank) (degree : Slot) (s : State) : Result :=
  command s <| inPhase .run s <|
    withReg s rs fun r => withCoefs s bank degree fun cs => complete (writeReg s rd (eval cs r))

/-- POLYH (R126). -/
def execPolyh (rd rs : Reg) (bank : Bank) (degree : Slot) (s : State) : Result :=
  polyCommand horner rd rs bank degree s

/-- POLYE (R127). -/
def execPolye (rd rs : Reg) (bank : Bank) (degree : Slot) (s : State) : Result :=
  polyCommand (fun cs r => estrin cs.length cs r) rd rs bank degree s

end Sys2Proof.Machine
end

