-- ==== Sys2Proof/Machine/Table.lean ====
section
/-! DEFINITION. The table and coefficient memory commands TWR, CWR, LOCK, TLU (41_table.md R85 to R88). -/

namespace Sys2Proof.Machine

/-- TWR (R85): `TAB[g][uint(x[ri])] <- (x[pa], x[pa+1])`, in phase INIT only; PHASE, UNWRITTEN, INDEX in that order. -/
def execTwr (pa : Pair) (ri : Reg) (g : Region) (s : State) : Result :=
  command s <| inPhase .init s <|
    withReg s ri fun k => withPair s pa fun d =>
      withIndex s g k.toNat <| complete { s with mem := tabWrite s.mem g k.toNat d }

/-- CWR (R86): `COEF[bank][slot] <- x[ra]`, in phase INIT only. -/
def execCwr (ra : Reg) (bank : Bank) (slot : Slot) (s : State) : Result :=
  command s <| inPhase .init s <|
    withReg s ra fun w => complete { s with mem := coefWrite s.mem bank slot w }

/-- LOCK (R87): `STATUS.PHASE <- RUN`; in phase RUN it changes nothing. -/
def execLock (s : State) : Result := command s <| complete { s with status := { s.status with phase := .run } }

/-- TLU (R88): `(x[pd], x[pd+1]) <- TAB[g][uint(x[ri])]`, in phase RUN only; PHASE, UNWRITTEN, INDEX, UNINIT in that order. -/
def execTlu (pd : Pair) (ri : Reg) (g : Region) (s : State) : Result :=
  command s <| inPhase .run s <|
    withReg s ri fun k => withEntry s g k.toNat fun d => complete (writePair s pd d)

end Sys2Proof.Machine
end

