-- ==== Sys2Proof/Machine/Transfer.lean ====
section
/-! DEFINITION. The host transfer commands PUT, GET, GETS (40_transfer.md R80 to R82). -/

namespace Sys2Proof.Machine

/-- PUT (R80): `x[rd] <- wdata`. -/
def execPut (rd : Reg) (s : State) : Result := command s <| complete (writeReg s rd s.wdata)

/-- GET (R81): `rdata <- x[rs]`; no state changes. -/
def execGet (rs : Reg) (s : State) : Result := command s <| withReg s rs fun w => answerData s w

/-- GETS (R82): `rdata <- STATUS`; executes also when the block is halted (60_exceptions.md R163). -/
def execGets (s : State) : Result := answerData s (statusWord s.status)

end Sys2Proof.Machine
end

