-- ==== Sys2Proof/Machine/Dispatch.lean ====
section
/-! DEFINITION. The dispatch of a command to its meaning, one arm per constructor of Instr (30_encoding.md R63). -/

namespace Sys2Proof.Machine

def exec (i : Instr) (s : State) : Host.Outcome State Fault Refusal :=
  match i with
  | .put rd => Sys2Proof.Machine.execPut rd s
  | .get rs => Sys2Proof.Machine.execGet rs s
  | .gets => Sys2Proof.Machine.execGets s
  | .twr pa ri region => Sys2Proof.Machine.execTwr pa ri region s
  | .cwr ra bank slot => Sys2Proof.Machine.execCwr ra bank slot s
  | .lock => Sys2Proof.Machine.execLock s
  | .tlu pd ri region => Sys2Proof.Machine.execTlu pd ri region s
  | .xsgn rd rs => Sys2Proof.Machine.execXsgn rd rs s
  | .xexp rd rs => Sys2Proof.Machine.execXexp rd rs s
  | .xman rd rs => Sys2Proof.Machine.execXman rd rs s
  | .bfx rd rs lsb wm1 => Sys2Proof.Machine.execBfx rd rs lsb wm1 s
  | .bfxs rd rs lsb wm1 => Sys2Proof.Machine.execBfxs rd rs lsb wm1 s
  | .pack rd rs re rm => Sys2Proof.Machine.execPack rd rs re rm s
  | .expadd rd ra rn => Sys2Proof.Machine.execExpadd rd ra rn s
  | .classify rd rs => Sys2Proof.Machine.execClassify rd rs s
  | .iclass rd rs => Sys2Proof.Machine.execIclass rd rs s
  | .cmp rd ra rb => Sys2Proof.Machine.execCmp rd ra rb s
  | .ctest rd rs mask => Sys2Proof.Machine.execCtest rd rs mask s
  | .mux2 rd rp ra rb => Sys2Proof.Machine.execMux2 rd rp ra rb s
  | .mux3 rd rp rq ra rb rc => Sys2Proof.Machine.execMux3 rd rp rq ra rb rc s
  | .twosum pd ra rb => Sys2Proof.Machine.execTwosum pd ra rb s
  | .twoprod pd ra rb => Sys2Proof.Machine.execTwoprod pd ra rb s
  | .ddaddd pd pa rb => Sys2Proof.Machine.execDdaddd pd pa rb s
  | .ddadd pd pa pb => Sys2Proof.Machine.execDdadd pd pa pb s
  | .ddmuld pd pa rb => Sys2Proof.Machine.execDdmuld pd pa rb s
  | .ddmul pd pa pb => Sys2Proof.Machine.execDdmul pd pa pb s
  | .polyh rd rs bank degree => Sys2Proof.Machine.execPolyh rd rs bank degree s
  | .polye rd rs bank degree => Sys2Proof.Machine.execPolye rd rs bank degree s

end Sys2Proof.Machine
end

