-- ==== Sys2Proof/Machine/Step.lean ====
section
/-! DEFINITION. One step of the model: one event of the host (00_scope.md R5, 70_reset_and_hazards.md R175). A transaction is
executed whole and answered. -/

namespace Sys2Proof.Machine

/-- One step. With nothing from the host the state does not change: "The block never acts on its own" (R5). Reset gives the
state of 10_state.md R39 and no answer (R175). A transaction's word is decoded (R71) and the command executed; a word that is no
legal command raises ILLEGAL (R64 to R67). -/
def step (s : State) : Host.Outcome State Fault Refusal :=
  match fetch s with
  | .idle => .next s
  | .reset t => .next t
  | .command w t =>
    match decode w with
    | .ok i => exec i t
    | .error _ => illegalWord t

/-- The state with the transaction of a table word put before all that the host will do, for the host of this project; its data
word is 0. -/
def State.withFetchWord (s : State) (nbits w : Nat) : State :=
  pushTransaction s (BitVec.ofNat 32 (w % 2 ^ nbits)) 0

end Sys2Proof.Machine
end

