-- ==== Sys2Proof/Safety.lean ====
section
/-! DEFINITION. The terms in which claims about the block are made: exact values and rounding as 00_scope.md states them (R11,
R12), what a command may change, the fault rules of 60_exceptions.md (R161, R162, R164) as tables, the opcode map of
30_encoding.md (R63), and the invariant of the block. Nothing here is used by the machine. -/

namespace Sys2Proof.Machine

/-! ## Values and rounding -/

/-- `val(w)`, the value of a finite word (R11). -/
def val (w : Word) : ℚ :=
  (if sign w then -1 else 1) *
    (if bexp w = 0 then (2 : ℚ) ^ (-1022 : ℤ) * (mant w / 2 ^ 52)
     else (2 : ℚ) ^ ((bexp w : ℤ) - 1023) * (1 + mant w / 2 ^ 52))

/-- `ulp(h)`, the gap above `|val(h)|`, for a finite word (R20). -/
def ulp (h : Word) : ℚ := if bexp h = 0 then (2 : ℚ) ^ (-1074 : ℤ) else (2 : ℚ) ^ ((bexp h : ℤ) - 1075)

/-- `w` is the word that R12 gives for `rne(q, zs)`: a zero of sign `zs` for `q = 0`; the infinity with the sign of `q` from
`2^1024 - 2^970` on; else the nearest finite word, an even mantissa where two values are equally near, with the sign of `q`. -/
def IsRne (q : ℚ) (zs : Bool) (w : Word) : Prop :=
  if q = 0 then IsZero w ∧ sign w = zs
  else if 2 ^ 1024 - 2 ^ 970 ≤ |q| then IsInf w ∧ sign w = decide (q < 0)
  else IsFinite w ∧ sign w = decide (q < 0) ∧
    (∀ v : Word, IsFinite v → |val w - q| ≤ |val v - q|) ∧
    (∀ v : Word, IsFinite v → val v ≠ val w → |val v - q| = |val w - q| → w.getLsbD 0 = false)

/-! ## What a command changes -/

/-- Everything but the registers and the answer is as before. -/
def KeepsTheRest (s t : State) : Prop :=
  t.status = s.status ∧ t.mem = s.mem ∧ t.cmd = s.cmd ∧ t.wdata = s.wdata ∧ t.host = s.host

/-- From `s` to `t` the command answered `OK` with `rdata = 0`, wrote `w` to register `r`, and changed nothing else. -/
def WritesReg (s t : State) (r : Reg) (w : Word) : Prop :=
  t.answer = some ⟨.ok, 0⟩ ∧ readReg t r = some w ∧ (∀ r', r' ≠ r → readReg t r' = readReg s r') ∧ KeepsTheRest s t

/-- From `s` to `t` the command answered `OK` with `rdata = 0`, wrote `h` to `x[2p]` and `l` to `x[2p+1]`, and changed nothing
else. -/
def WritesPair (s t : State) (p : Pair) (h l : Word) : Prop :=
  t.answer = some ⟨.ok, 0⟩ ∧ readReg t (pairHi p) = some h ∧ readReg t (pairLo p) = some l ∧
    (∀ r, r ≠ pairHi p → r ≠ pairLo p → readReg t r = readReg s r) ∧ KeepsTheRest s t

/-- From `s` to `t` the command answered `OK` with `rdata` and changed nothing. -/
def AnswersOnly (s t : State) (rdata : Word) : Prop :=
  t.answer = some ⟨.ok, rdata⟩ ∧ (∀ r, readReg t r = readReg s r) ∧ KeepsTheRest s t

/-- The command raised fault `c` in state `s`: FAULT and FCMD are set, the phase is kept, the answer is FAULT with `rdata = 0`,
nothing else changes (R162). -/
def FaultsWith (s : State) (c : FaultCode) (r : Result) : Prop :=
  r = .next { s with status := ⟨s.status.phase, c, s.cmd⟩, answer := some ⟨.fault, 0⟩ }

/-- Some register of the list is unwritten. -/
abbrev SomeUnwritten (s : State) (rs : List Reg) : Prop := ∃ r ∈ rs, readReg s r = none

/-- The word spells no command (R64 to R67). -/
def NoCommand (w : Cmd) : Prop := ∃ e, decode w = .error e

/-- The word raises ILLEGAL in whatever state a block that has not faulted is (R64 to R67, R71). -/
def RaisesIllegal (w : Cmd) : Prop :=
  ∀ (s : State) (data : Word) (rest : List HostEvent), s.host = .transaction w data :: rest → ¬ Halted s →
    FaultsWith (present s w data rest) .illegal (step s)

/-- A word with opcode `op` that meets `bad` raises ILLEGAL: the entry ILLEGAL of a command's list of faults. -/
def IllegalWhen (op : Nat) (bad : Cmd → Prop) : Prop := ∀ w : Cmd, (fieldOp w).toNat = op → bad w → RaisesIllegal w

/-- The number `n` placed at bit `k` of a command word, `n << k` in the rules' notation. -/
def shl (n k : Nat) : Cmd := BitVec.ofNat 32 n <<< k

/-- The words of slots 0 to `n` of a bank are `c 0` to `c n`. -/
def CoefsAre (m : Memory) (b : Bank) (n : Slot) (c : Nat → Word) : Prop :=
  ∀ k : Slot, k ≤ n → coefRead m b k = some (c k.val)

/-- Horner's scheme of 45_poly.md R126: `acc <- c[n]`, then `acc <- fadd(fmul(acc, r), c[k])` for `k` from `n - 1` down to 0. -/
def hornerRule (c : Nat → Word) (n : Nat) (r : Word) : Word :=
  (List.range n).foldr (fun k acc => fadd (fmul acc r) (c k)) (c n)

/-- Estrin's scheme written out for each degree, the table of 45_poly.md R127. -/
def estrinTable (c : Nat → Word) (n : Nat) (r : Word) : Word :=
  let r2 := fmul r r
  let r4 := fmul r2 r2
  let r8 := fmul r4 r4
  let p := fun k => fadd (c k) (fmul (c (k + 1)) r)
  match n with
  | 0 => c 0
  | 1 => p 0
  | 2 => fadd (p 0) (fmul (c 2) r2)
  | 3 => fadd (p 0) (fmul (p 2) r2)
  | 4 => fadd (fadd (p 0) (fmul (p 2) r2)) (fmul (c 4) r4)
  | 5 => fadd (fadd (p 0) (fmul (p 2) r2)) (fmul (p 4) r4)
  | 6 => fadd (fadd (p 0) (fmul (p 2) r2)) (fmul (fadd (p 4) (fmul (c 6) r2)) r4)
  | 7 => fadd (fadd (p 0) (fmul (p 2) r2)) (fmul (fadd (p 4) (fmul (p 6) r2)) r4)
  | _ => fadd (fadd (fadd (p 0) (fmul (p 2) r2)) (fmul (fadd (p 4) (fmul (p 6) r2)) r4)) (fmul (c 8) r8)

/-! ## The fault rules as tables -/

/-- The phase that a command needs (10_state.md R37). -/
def phaseNeeded (i : Instr) : Option Phase :=
  match i with
  | .twr _ _ _ | .cwr _ _ _ => some .init
  | .tlu _ _ _ | .polyh _ _ _ _ | .polye _ _ _ _ => some .run
  | .put _ | .get _ | .gets | .lock | .xsgn _ _ | .xexp _ _ | .xman _ _ | .bfx _ _ _ _ | .bfxs _ _ _ _ | .pack _ _ _ _
  | .expadd _ _ _ | .classify _ _ | .iclass _ _ | .cmp _ _ _ | .ctest _ _ _ | .mux2 _ _ _ _ | .mux3 _ _ _ _ _ _
  | .twosum _ _ _ | .twoprod _ _ _ | .ddaddd _ _ _ | .ddadd _ _ _ | .ddmuld _ _ _ | .ddmul _ _ _ => none

/-- The registers a command reads, both of a pair (10_state.md R31, 60_exceptions.md R164). -/
def sources (i : Instr) : List Reg :=
  match i with
  | .put _ | .gets | .lock => []
  | .get rs => [rs]
  | .twr pa ri _ => [ri, pairHi pa, pairLo pa]
  | .cwr ra _ _ => [ra]
  | .tlu _ ri _ => [ri]
  | .xsgn _ rs | .xexp _ rs | .xman _ rs | .bfx _ rs _ _ | .bfxs _ rs _ _ | .classify _ rs | .iclass _ rs
  | .ctest _ rs _ | .polyh _ rs _ _ | .polye _ rs _ _ => [rs]
  | .pack _ rs re rm => [rs, re, rm]
  | .expadd _ ra rn => [ra, rn]
  | .cmp _ ra rb | .twosum _ ra rb | .twoprod _ ra rb => [ra, rb]
  | .mux2 _ rp ra rb => [rp, ra, rb]
  | .mux3 _ rp rq ra rb rc => [rp, rq, ra, rb, rc]
  | .ddaddd _ pa rb | .ddmuld _ pa rb => [pairHi pa, pairLo pa, rb]
  | .ddadd _ pa pb | .ddmul _ pa pb => [pairHi pa, pairLo pa, pairHi pb, pairLo pb]

/-- The registers a command writes when it completes; "No command writes more than two registers" (70_reset_and_hazards.md
R178). -/
def destinations (i : Instr) : List Reg :=
  match i with
  | .get _ | .gets | .twr _ _ _ | .cwr _ _ _ | .lock => []
  | .put rd | .xsgn rd _ | .xexp rd _ | .xman rd _ | .bfx rd _ _ _ | .bfxs rd _ _ _ | .pack rd _ _ _ | .expadd rd _ _
  | .classify rd _ | .iclass rd _ | .cmp rd _ _ | .ctest rd _ _ | .mux2 rd _ _ _ | .mux3 rd _ _ _ _ _
  | .polyh rd _ _ _ | .polye rd _ _ _ => [rd]
  | .tlu pd _ _ | .twosum pd _ _ | .twoprod pd _ _ | .ddaddd pd _ _ | .ddadd pd _ _ | .ddmuld pd _ _
  | .ddmul pd _ _ => [pairHi pd, pairLo pd]

/-- The word of a register as a number, 0 when it is unwritten. -/
def regNat (s : State) (r : Reg) : Nat := ((readReg s r).getD 0).toNat

/-- EXPADD's range rule (42_classify.md R100): the source is not normal, or `E + n` leaves 1 to 2046. -/
abbrev OutsideExpRange (w n : Word) : Prop :=
  bexp w = 0 ∨ bexp w = 2047 ∨ (bexp w : Int) + n.toInt < 1 ∨ 2046 < (bexp w : Int) + n.toInt

/-- The fault that a command raises in a state whose FAULT is 0: the first in the order of tests of 60_exceptions.md R164, or
`none`. -/
def firstFault (i : Instr) (s : State) : FaultCode :=
  if i.wellFormed = false then .illegal
  else if (phaseNeeded i).any (· ≠ s.status.phase) then .phase
  else if SomeUnwritten s (sources i) then .unwritten
  else
    match i with
    | .twr _ ri g => if regionSize g ≤ regNat s ri then .index else .none
    | .tlu _ ri g =>
      if regionSize g ≤ regNat s ri then .index
      else if tabRead s.mem g (regNat s ri) = none then .uninit
      else .none
    | .polyh _ _ b n | .polye _ _ b n => if ∃ k : Slot, k ≤ n ∧ coefRead s.mem b k = none then .uninit else .none
    | .expadd _ ra rn =>
      if OutsideExpRange ((readReg s ra).getD 0) ((readReg s rn).getD 0) then .exprange else .none
    | _ => .none

/-- Whether a legal command can raise a fault, by the column "by which commands" of 60_exceptions.md R161. -/
def canRaise (i : Instr) (c : FaultCode) : Bool :=
  match c with
  | .none | .illegal => false
  | .phase => (phaseNeeded i).isSome
  | .unwritten => sources i ≠ []
  | .index => match i with
    | .twr _ _ _ | .tlu _ _ _ => true
    | _ => false
  | .uninit => match i with
    | .tlu _ _ _ | .polyh _ _ _ _ | .polye _ _ _ _ => true
    | _ => false
  | .exprange => match i with
    | .expadd _ _ _ => true
    | _ => false

/-! ## The opcode map (30_encoding.md R63) -/

/-- A row of the opcode map. -/
structure OpcodeRow where
  mnemonic : String
  /-- the column "match" -/
  fixedBits : Cmd
  /-- the column "mask" -/
  mask : Cmd
  deriving DecidableEq, Repr

/-- The row of a command in the map of R63. -/
def opcodeRow (i : Instr) : OpcodeRow :=
  match i with
  | .put _ => ⟨"PUT", 0x04000000, 0xFC3FFFFF⟩
  | .get _ => ⟨"GET", 0x08000000, 0xFC3FFFFF⟩
  | .gets => ⟨"GETS", 0x0C000000, 0xFFFFFFFF⟩
  | .twr _ _ _ => ⟨"TWR", 0x20000000, 0xFC433FFF⟩
  | .cwr _ _ _ => ⟨"CWR", 0x24000000, 0xFC3F03FF⟩
  | .lock => ⟨"LOCK", 0x28000000, 0xFFFFFFFF⟩
  | .tlu _ _ _ => ⟨"TLU", 0x2C000000, 0xFC433FFF⟩
  | .xsgn _ _ => ⟨"XSGN", 0x40000000, 0xFC03FFFF⟩
  | .xexp _ _ => ⟨"XEXP", 0x44000000, 0xFC03FFFF⟩
  | .xman _ _ => ⟨"XMAN", 0x48000000, 0xFC03FFFF⟩
  | .bfx _ _ _ _ => ⟨"BFX", 0x4C000000, 0xFC03F000⟩
  | .bfxs _ _ _ _ => ⟨"BFXS", 0x50000000, 0xFC03F000⟩
  | .pack _ _ _ _ => ⟨"PACK", 0x54000000, 0xFC0003FF⟩
  | .expadd _ _ _ => ⟨"EXPADD", 0x58000000, 0xFC003FFF⟩
  | .classify _ _ => ⟨"CLASS", 0x5C000000, 0xFC03FFFF⟩
  | .iclass _ _ => ⟨"ICLASS", 0x60000000, 0xFC03FFFF⟩
  | .cmp _ _ _ => ⟨"CMP", 0x64000000, 0xFC003FFF⟩
  | .ctest _ _ _ => ⟨"CTEST", 0x68000000, 0xFC03F000⟩
  | .mux2 _ _ _ _ => ⟨"MUX2", 0x80000000, 0xFC0003FF⟩
  | .mux3 _ _ _ _ _ _ => ⟨"MUX3", 0x84000000, 0xFC000003⟩
  | .twosum _ _ _ => ⟨"TWOSUM", 0xA0000000, 0xFC403FFF⟩
  | .twoprod _ _ _ => ⟨"TWOPROD", 0xA4000000, 0xFC403FFF⟩
  | .ddaddd _ _ _ => ⟨"DDADDD", 0xA8000000, 0xFC443FFF⟩
  | .ddadd _ _ _ => ⟨"DDADD", 0xAC000000, 0xFC447FFF⟩
  | .ddmuld _ _ _ => ⟨"DDMULD", 0xB0000000, 0xFC443FFF⟩
  | .ddmul _ _ _ => ⟨"DDMUL", 0xB4000000, 0xFC447FFF⟩
  | .polyh _ _ _ _ => ⟨"POLYH", 0xC0000000, 0xFC0303FF⟩
  | .polye _ _ _ _ => ⟨"POLYE", 0xC4000000, 0xFC0303FF⟩

/-- The further limits of R67 that the masks cannot say, for a word whose opcode is `op`: region 3, a degree or slot above 8, a
bit field that runs past bit 63. -/
def withinLimits (w : Cmd) : Prop :=
  match (fieldOp w).toNat with
  | 0x08 | 0x0B => (fieldC w).toNat ≠ 3
  | 0x09 | 0x30 | 0x31 => (fieldD w).toNat ≤ 8
  | 0x13 | 0x14 => (fieldLsb w).toNat + (fieldWm1 w).toNat + 1 ≤ 64
  | _ => True

/-- The `op` values that R63 lists. -/
def definedOps : List Nat :=
  [0x01, 0x02, 0x03, 0x08, 0x09, 0x0A, 0x0B, 0x10, 0x11, 0x12, 0x13, 0x14, 0x15, 0x16, 0x17, 0x18, 0x19, 0x1A, 0x20, 0x21,
    0x28, 0x29, 0x2A, 0x2B, 0x2C, 0x2D, 0x30, 0x31]

/-- The bits that the format of an opcode does not use (30_encoding.md R62): for format M the used bits are those of R4. -/
def unusedBits (op : Nat) : Cmd :=
  match op with
  | 0x03 | 0x0A => 0x03FFFFFF
  | 0x01 | 0x02 => 0x003FFFFF
  | 0x10 | 0x11 | 0x12 | 0x17 | 0x18 => 0x0003FFFF
  | 0x16 | 0x19 | 0x28 | 0x29 | 0x2A | 0x2B | 0x2C | 0x2D => 0x00003FFF
  | 0x15 | 0x20 | 0x08 | 0x09 | 0x0B | 0x30 | 0x31 => 0x000003FF
  | 0x21 => 0x00000003
  | 0x13 | 0x14 | 0x1A => 0x0003F000
  | _ => 0

/-! ## The invariant -/

/-- FCMD is 0 while FAULT is 0 (R34), and otherwise FCMD is a word that can raise the recorded fault (R161). -/
def recordFits (t : Status) : Prop :=
  match t.fault with
  | .none => t.fcmd = 0
  | .illegal => NoCommand t.fcmd
  | c => ∃ i, decode t.fcmd = .ok i ∧ canRaise i c = true

/-- The invariant of the block, which reset establishes and every step keeps: the memories are in canonical form with no entry
outside its region (R46, R47); the fault record fits; an answer other than `OK` carries `rdata = 0` and the block is halted
(R160, R162, R163). -/
def State.Inv (s : State) : Prop :=
  s.mem.wf ∧ recordFits s.status ∧ ∀ a, s.answer = some a → a.status ≠ .ok → a.rdata = 0 ∧ Halted s

end Sys2Proof.Machine
end

