-- ==== Sys2Proof/Certificates/Slice0/Obligations.lean ====
section
/-! DEFINITION. The statements about the model for the provers. Each docstring names the rule of spec/ that the statement
formalises or rests on. Terms: Safety.lean. -/

open Sys2Proof Sys2Proof.Machine

/-! ## Encoding (30_encoding.md) -/

/-- Decoding the word of a well-formed command gives the command, for every command and every operand (R60 to R63, R68). -/
def Obligations.DecodeOfEncodeIsTheCommand : Prop := ∀ i : Instr, i.WellFormed → decode (encode i) = .ok i

/-- A word that decodes to a command is that command's word: no bit is ignored, and no two words spell one command (R62, R65). -/
def Obligations.EncodeOfDecodedWordIsTheWord : Prop :=
  ∀ (w : Cmd) (i : Instr), decode w = .ok i → i.WellFormed ∧ encode i = w

/-- R63: a legal word meets `w AND mask = match` of its mnemonic; and of the words that meet it, exactly those within the further
limits are legal, and they spell that mnemonic. -/
def Obligations.CandidateWordsWithinLimitsAreLegal : Prop :=
  (∀ (w : Cmd) (i : Instr), decode w = .ok i → w &&& (opcodeRow i).mask = (opcodeRow i).fixedBits) ∧
  ∀ (w : Cmd) (j : Instr), w &&& (opcodeRow j).mask = (opcodeRow j).fixedBits →
    (withinLimits w ↔ ∃ i, decode w = .ok i ∧ opcodeRow i = opcodeRow j)

/-- R64: exactly the 36 listed `op` values are undefined, and a word with one of them raises ILLEGAL whatever its other bits. -/
def Obligations.UndefinedOpcodeRaisesIllegal : Prop :=
  ((List.range 64).filter (· ∉ definedOps) =
    [0x00, 0x04, 0x05, 0x06, 0x07, 0x0C, 0x0D, 0x0E, 0x0F, 0x1B, 0x1C, 0x1D, 0x1E, 0x1F, 0x22, 0x23, 0x24, 0x25, 0x26, 0x27,
      0x2E, 0x2F, 0x32, 0x33, 0x34, 0x35, 0x36, 0x37, 0x38, 0x39, 0x3A, 0x3B, 0x3C, 0x3D, 0x3E, 0x3F]) ∧
  ∀ w : Cmd, (decode w = .error .undefinedOp ↔ (fieldOp w).toNat ∉ definedOps) ∧
    ((fieldOp w).toNat ∉ definedOps → RaisesIllegal w)

/-- R65: a word with a defined `op` and a 1 in any bit its format does not use raises ILLEGAL; the bits a format uses are those of
R62, so in format I bits 1:0 belong to `imm12` and are not among them (assumption log 6). -/
def Obligations.UnusedBitRaisesIllegal : Prop :=
  ∀ w : Cmd, (fieldOp w).toNat ∈ definedOps → w &&& unusedBits (fieldOp w).toNat ≠ 0 → RaisesIllegal w

/-- R66: an odd number in any pair field raises ILLEGAL. -/
def Obligations.OddPairFieldRaisesIllegal : Prop :=
  ∀ w : Cmd,
    ((fieldOp w).toNat ∈ [0x08, 0x0B, 0x28, 0x29, 0x2A, 0x2B, 0x2C, 0x2D] ∧ (fieldA w).toNat % 2 = 1 ∨
      (fieldOp w).toNat ∈ [0x2A, 0x2B, 0x2C, 0x2D] ∧ (fieldB w).toNat % 2 = 1 ∨
      (fieldOp w).toNat ∈ [0x2B, 0x2D] ∧ (fieldC w).toNat % 2 = 1) → RaisesIllegal w

/-- R67: each field of limited range raises ILLEGAL outside its range; every degree 0 to 8 is legal. -/
def Obligations.FieldOutOfRangeRaisesIllegal : Prop :=
  (∀ (rd rs : Reg) (b : Bank) (n : Slot),
    decode (0xC0000000 ||| shl rd 22 ||| shl rs 18 ||| shl b 14 ||| shl n 10) = .ok (.polyh rd rs b n) ∧
    decode (0xC4000000 ||| shl rd 22 ||| shl rs 18 ||| shl b 14 ||| shl n 10) = .ok (.polye rd rs b n)) ∧
  ∀ w : Cmd,
    ((fieldOp w).toNat ∈ [0x08, 0x09, 0x0B, 0x30, 0x31] ∧ 3 < (fieldC w).toNat ∨
      (fieldOp w).toNat ∈ [0x08, 0x0B] ∧ ((fieldC w).toNat = 3 ∨ fieldD w ≠ 0) ∨
      (fieldOp w).toNat = 0x09 ∧ fieldB w ≠ 0 ∨
      (fieldOp w).toNat ∈ [0x09, 0x30, 0x31] ∧ 8 < (fieldD w).toNat ∨
      (fieldOp w).toNat ∈ [0x13, 0x14] ∧ 64 < (fieldLsb w).toNat + (fieldWm1 w).toNat + 1) → RaisesIllegal w

/-- Words written out in the rules' examples decode to the commands the rules say (R80 to R127). -/
def Obligations.WordsOfTheRulesExamplesDecode : Prop :=
  decode 0x04C00000 = .ok (.put 3) ∧ decode 0x0C000000 = .ok .gets ∧ decode 0x21080000 = .ok (.twr 2 2 .exp) ∧
  decode 0x25804C00 = .ok (.cwr 6 1 3) ∧ decode 0x2E084000 = .ok (.tlu 4 2 .log) ∧
  decode 0x504801B9 = .ok (.bfxs 1 2 6 57) ∧ decode 0x5448D000 = .ok (.pack 1 2 3 4) ∧
  decode 0x68480018 = .ok (.ctest 1 2 0x018) ∧ decode 0x8448D158 = .ok (.mux3 1 2 3 4 5 6) ∧
  decode 0xA9904000 = .ok (.ddaddd 3 2 1) ∧ decode 0xB6118000 = .ok (.ddmul 4 2 3) ∧
  decode 0xC4481400 = .ok (.polye 1 2 0 5)

/-! ## The step and the host (00_scope.md R5) -/

/-- One step serves one event of the host: nothing with no event ("The block never acts on its own", R5); reset (R175); a
transaction, whose command is executed, or which raises ILLEGAL (R5, R71). The list of the host's events, `cmd` and
`wdata` as fields of the state, and their value 0 in the state a reset leaves are the model's choice (DESIGN CHOICE, assumption
log 2); that a reset leaves no answer and lets the host's list go on is the model's too (DEDUCED, assumption log 5). -/
def Obligations.StepServesOneHostEvent : Prop :=
  ∀ s : State,
    (s.host = [] → step s = .next s) ∧
    (∀ rest, s.host = .reset :: rest → step s = .next { State.reset with host := rest }) ∧
    (∀ w data rest i, s.host = .transaction w data :: rest → decode w = .ok i →
      step s = exec i { s with cmd := w, wdata := data, host := rest }) ∧
    (∀ w data rest, s.host = .transaction w data :: rest → NoCommand w →
      step s = illegalWord { s with cmd := w, wdata := data, host := rest })

/-- R160: every transaction has exactly one of three outcomes. OK: `rdata` is 0 unless the command is GET or GETS, and no fault is
recorded. FAULT: only STATUS and the answer change. HALTED: nothing but the answer changes. -/
def Obligations.EveryTransactionHasOneOutcome : Prop :=
  ∀ (s : State) (w : Cmd) (data : Word) (rest : List HostEvent), s.host = .transaction w data :: rest →
    ∃ t, step s = .next t ∧
      ((∃ rd, t.answer = some ⟨.ok, rd⟩ ∧ t.status.fault = s.status.fault ∧ t.status.fcmd = s.status.fcmd ∧
          (rd ≠ 0 → ∃ i, decode w = .ok i ∧ (i = .gets ∨ ∃ r, i = .get r))) ∨
        (¬ Halted s ∧ ∃ c, c ≠ .none ∧ FaultsWith (present s w data rest) c (.next t)) ∨
        (Halted s ∧ w ≠ 0x0C000000 ∧ t = answered (present s w data rest) .halted 0))

/-- R39, R175: the state after reset, and the state that a reset of the host leaves: all registers, table entries and coefficient
slots unwritten, STATUS 0. -/
def Obligations.ResetLeavesEverythingUnwritten : Prop :=
  ∀ t : State, (t = State.reset ∨ ∃ s rest, s.host = .reset :: rest ∧ step s = .next t) →
    (∀ r, readReg t r = none) ∧ statusWord t.status = 0 ∧ t.status = ⟨.init, .none, 0⟩ ∧
    (∀ g k, tabRead t.mem g k = none) ∧ (∀ b k, coefRead t.mem b k = none)

/-- R163: while halted, the one word 0x0C000000 answers OK with STATUS; every other word, legal or not, answers HALTED with
`rdata = 0`; neither changes the registers, the memories or STATUS. -/
def Obligations.HaltedBlockServesOnlyGets : Prop :=
  ∀ (s : State) (w : Cmd) (data : Word) (rest : List HostEvent), Halted s → s.host = .transaction w data :: rest →
    ∃ t, step s = .next t ∧ t.regs = s.regs ∧ t.mem = s.mem ∧ t.status = s.status ∧
      t.answer = some (if w = 0x0C000000 then ⟨.ok, statusWord s.status⟩ else ⟨.halted, 0⟩)

/-- R162: a transaction that raises a fault sets FAULT and FCMD, keeps the phase, answers FAULT with `rdata = 0`, and changes nothing
else: no register, no mark, no table entry, no coefficient slot. -/
def Obligations.FaultChangesOnlyStatus : Prop :=
  ∀ (s t : State) (w : Cmd) (data : Word) (rest : List HostEvent), ¬ Halted s → s.host = .transaction w data :: rest →
    step s = .next t → Halted t →
    t.status.fcmd = w ∧ t.status.phase = s.status.phase ∧ t.answer = some ⟨.fault, 0⟩ ∧ t.regs = s.regs ∧ t.mem = s.mem ∧
    t.host = rest

/-- R164: on a halted block nothing is tested; else a word that spells no command raises ILLEGAL, and the fault that a command raises
is the first in the order ILLEGAL, PHASE, UNWRITTEN, INDEX, UNINIT, EXPRANGE whose condition holds, none when no condition holds. -/
def Obligations.FirstFaultInOrderIsRaised : Prop :=
  (∀ (i : Instr) (s : State), Halted s → i ≠ .gets → exec i s = .next (answered s .halted 0)) ∧
  (∀ w : Cmd, NoCommand w → RaisesIllegal w) ∧
  ∀ (i : Instr) (s : State), ¬ Halted s → ∃ t, exec i s = .next t ∧ t.status.fault = firstFault i s

/-- Every step keeps the invariant of the block: memories canonical and inside their regions (R46, R47), the fault record fits
(R34, R161), answers other than OK carry 0 (R5). From every state, not only those a run reaches. -/
def Obligations.EveryStepKeepsTheInvariant : Prop := ∀ s t : State, s.Inv → step s = .next t → t.Inv

/-- The invariant holds after reset (R39). -/
def Obligations.InvariantHoldsAfterReset : Prop := State.reset.Inv

/-- R37: the phase goes from INIT to RUN by LOCK and never back except by reset; TWR and CWR raise PHASE in RUN, TLU, POLYH and
POLYE in INIT; every other command executes the same in both phases (LOCK sets RUN in both; GETS reads the phase). -/
def Obligations.PhaseIsALifecycle : Prop :=
  (∀ s t : State, step s = .next t → t.status.phase ≠ s.status.phase →
    (s.status.phase = .init ∧ ∃ data rest, s.host = .transaction 0x28000000 data :: rest) ∨
      (s.status.phase = .run ∧ ∃ rest, s.host = .reset :: rest)) ∧
  (∀ (i : Instr) (p : Phase) (s : State), phaseNeeded i = some p → ¬ Halted s → s.status.phase ≠ p →
    FaultsWith s .phase (exec i s)) ∧
  (∀ (i : Instr) (p : Phase) (s t : State), phaseNeeded i = none → i ≠ .gets → i ≠ .lock → exec i s = .next t →
    exec i { s with status := { s.status with phase := p } } = .next { t with status := { t.status with phase := p } }) ∧
  ∀ s : State, ¬ Halted s → ∃ t, exec .lock s = .next t ∧ t.status.phase = .run

/-- "Immutable until reset" (R57, R87): from any state in phase RUN, however many steps the block takes, the memories keep their
contents and the phase stays RUN as long as the host applies no reset. -/
def Obligations.MemoriesAreImmutableAfterLock : Prop :=
  ∀ (n : Nat) (s t : State), s.status.phase = .run → .reset ∉ s.host → Sys2Proof.core.run n s = .next t →
    t.mem = s.mem ∧ t.status.phase = .run

/-- In phase INIT the memories "cannot be read" (R37): what they hold influences no register, no answer and no STATUS, whatever the
command. -/
def Obligations.MemoriesAreUnobservableInInit : Prop :=
  ∀ (i : Instr) (s t : State) (m : Memory), s.status.phase = .init → exec i s = .next t →
    ∃ m', exec i { s with mem := m } = .next { t with mem := m' }

/-- R31: a command that reads an unwritten register raises UNWRITTEN and writes nothing; a completed command's destinations are
written; nothing but reset clears a written mark. -/
def Obligations.WrittenMarks : Prop :=
  (∀ (i : Instr) (s : State), i.WellFormed → ¬ Halted s → (∀ p, phaseNeeded i = some p → s.status.phase = p) →
    SomeUnwritten s (sources i) → FaultsWith s .unwritten (exec i s)) ∧
  (∀ (i : Instr) (s t : State) (rd : Word), exec i s = .next t → t.answer = some ⟨.ok, rd⟩ →
    ∀ r ∈ destinations i, readReg t r ≠ none) ∧
  ∀ s t : State, step s = .next t → (∀ rest, s.host ≠ .reset :: rest) → ∀ r, readReg s r ≠ none → readReg t r ≠ none

/-- "for every other command `wdata` is ignored, whatever its value" (R60): two runs that differ only in the data word go the same
way. -/
def Obligations.DataWordIsIgnoredExceptByPut : Prop :=
  ∀ (i : Instr) (s t : State) (d : Word), (∀ rd, i ≠ .put rd) → exec i s = .next t →
    exec i { s with wdata := d } = .next { t with wdata := d }

/-- The register frame of every command, completed or not: only its destinations, at most two (R178), can change; the phase only by
LOCK; FAULT and FCMD only when the command faults; the interface's words and the host's plans never. -/
def Obligations.RegisterAndStatusFrame : Prop :=
  ∀ (i : Instr) (s t : State), exec i s = .next t →
    (∀ r, r ∉ destinations i → readReg t r = readReg s r) ∧ (destinations i).length ≤ 2 ∧
    (i ≠ .lock → t.status.phase = s.status.phase) ∧
    (t.answer ≠ some ⟨.fault, 0⟩ → t.status.fault = s.status.fault ∧ t.status.fcmd = s.status.fcmd) ∧
    t.cmd = s.cmd ∧ t.wdata = s.wdata ∧ t.host = s.host

/-- The memory frame of every command: "Only five commands reach memory" and only TWR and CWR write (R45, R49, R51): TWR no entry
but the one its index register names, CWR no slot but its own, every other command nothing. -/
def Obligations.MemoryFrame : Prop :=
  ∀ (i : Instr) (s t : State), exec i s = .next t →
    (∀ g k, (∀ pa ri, i = .twr pa ri g → k ≠ regNat s ri) → tabRead t.mem g k = tabRead s.mem g k) ∧
    (∀ b k, (∀ ra, i ≠ .cwr ra b k) → coefRead t.mem b k = coefRead s.mem b k) ∧
    ((∀ pa ri g, i ≠ .twr pa ri g) → (∀ ra b k, i ≠ .cwr ra b k) → t.mem = s.mem)

/-! ## Host transfer commands (40_transfer.md) -/

/-- R80: PUT writes the data word to `x[rd]`; its word; the reserved bits. -/
def Obligations.PutWritesTheDataWord : Prop :=
  (∀ rd : Reg, encode (.put rd) = 0x04000000 ||| shl rd 22) ∧
  (∀ (rd : Reg) (s : State), ¬ Halted s → ∃ t, exec (.put rd) s = .next t ∧ WritesReg s t rd s.wdata) ∧
  IllegalWhen 0x01 fun w => w.extractLsb' 0 22 ≠ 0

/-- R81: GET answers `x[rs]` and changes nothing; UNWRITTEN. -/
def Obligations.GetReturnsTheRegister : Prop :=
  (∀ rs : Reg, encode (.get rs) = 0x08000000 ||| shl rs 22) ∧
  (∀ (rs : Reg) (s : State) (w : Word), ¬ Halted s → readReg s rs = some w →
    ∃ t, exec (.get rs) s = .next t ∧ AnswersOnly s t w) ∧
  (∀ (rs : Reg) (s : State), ¬ Halted s → readReg s rs = none → FaultsWith s .unwritten (exec (.get rs) s)) ∧
  IllegalWhen 0x02 fun w => w.extractLsb' 0 22 ≠ 0

/-- R82 with the layout of R34: GETS answers STATUS and changes nothing, in every state, halted or not; bit 0 is PHASE, bits 7:4 are
FAULT (0 to 6), bits 63:32 are FCMD, all others read as 0. -/
def Obligations.GetsReturnsStatus : Prop :=
  encode .gets = 0x0C000000 ∧
  (∀ s : State, ∃ t rd, exec .gets s = .next t ∧ AnswersOnly s t rd ∧
    rd.extractLsb' 0 1 = phaseBit s.status.phase ∧ rd.extractLsb' 1 3 = 0 ∧
    (rd.extractLsb' 4 4).toNat = faultNumber s.status.fault ∧ faultNumber s.status.fault ≤ 6 ∧
    rd.extractLsb' 8 24 = 0 ∧ rd.extractLsb' 32 32 = s.status.fcmd) ∧
  (IllegalWhen 0x03 fun w => w.extractLsb' 0 26 ≠ 0) ∧
  ∀ (s : State) (w : Cmd) (data : Word) (rest : List HostEvent), Halted s → s.host = .transaction w data :: rest →
    w ≠ 0x0C000000 → ∃ t, step s = .next t ∧ t.answer = some ⟨.halted, 0⟩

/-! ## Table and coefficient memory commands (41_table.md) -/

/-- R85 with R49: in phase INIT, TWR makes `TAB[g][k]` the pair of words, `k` the whole index register unsigned, and changes nothing
else; PHASE, UNWRITTEN, INDEX in that order; the sizes are 64, 129 and `N_POW ≥ 1` (R46). -/
def Obligations.TwrWritesTheEntry : Prop :=
  IllegalWhen 0x08 (fun w => w.extractLsb' 0 10 ≠ 0 ∨ (fieldA w).toNat % 2 = 1 ∨ 3 ≤ (fieldC w).toNat ∨ fieldD w ≠ 0) ∧
  (regionSize .exp = 64 ∧ regionSize .log = 129 ∧ regionSize .pow = Config.nPow ∧ 1 ≤ Config.nPow) ∧
  ∀ (pa : Pair) (ri : Reg) (g : Region),
    encode (.twr pa ri g) = 0x20000000 ||| shl (2 * pa.val) 22 ||| shl ri 18 |||
      shl (match g with | .exp => 0 | .log => 1 | .pow => 2) 14 ∧
    ∀ s : State, ¬ Halted s →
      (s.status.phase = .run → FaultsWith s .phase (exec (.twr pa ri g) s)) ∧
      (s.status.phase = .init →
        (SomeUnwritten s [ri, pairHi pa, pairLo pa] → FaultsWith s .unwritten (exec (.twr pa ri g) s)) ∧
        ∀ k h l, readReg s ri = some k → readReg s (pairHi pa) = some h → readReg s (pairLo pa) = some l →
          (regionSize g ≤ k.toNat → FaultsWith s .index (exec (.twr pa ri g) s)) ∧
          (k.toNat < regionSize g → ∃ t, exec (.twr pa ri g) s = .next t ∧ t.answer = some ⟨.ok, 0⟩ ∧
            tabRead t.mem g k.toNat = some ⟨h, l⟩ ∧
            (∀ g' k', (g', k') ≠ (g, k.toNat) → tabRead t.mem g' k' = tabRead s.mem g' k') ∧
            (∀ b j, coefRead t.mem b j = coefRead s.mem b j) ∧
            t.regs = s.regs ∧ t.status = s.status ∧ t.cmd = s.cmd ∧ t.wdata = s.wdata ∧ t.host = s.host))

/-- R86 with R51: in phase INIT, CWR makes `COEF[bank][slot]` the word of `x[ra]` and changes nothing else; PHASE, UNWRITTEN. -/
def Obligations.CwrWritesTheCoefficient : Prop :=
  IllegalWhen 0x09 (fun w => w.extractLsb' 0 10 ≠ 0 ∨ fieldB w ≠ 0 ∨ 3 < (fieldC w).toNat ∨ 8 < (fieldD w).toNat) ∧
  ∀ (ra : Reg) (b : Bank) (k : Slot),
    encode (.cwr ra b k) = 0x24000000 ||| shl ra 22 ||| shl b 14 ||| shl k 10 ∧
    ∀ s : State, ¬ Halted s →
      (s.status.phase = .run → FaultsWith s .phase (exec (.cwr ra b k) s)) ∧
      (s.status.phase = .init →
        (readReg s ra = none → FaultsWith s .unwritten (exec (.cwr ra b k) s)) ∧
        ∀ w, readReg s ra = some w → ∃ t, exec (.cwr ra b k) s = .next t ∧ t.answer = some ⟨.ok, 0⟩ ∧
          coefRead t.mem b k = some w ∧
          (∀ b' k', (b', k') ≠ (b, k) → coefRead t.mem b' k' = coefRead s.mem b' k') ∧
          (∀ g j, tabRead t.mem g j = tabRead s.mem g j) ∧
          t.regs = s.regs ∧ t.status = s.status ∧ t.cmd = s.cmd ∧ t.wdata = s.wdata ∧ t.host = s.host)

/-- R87: LOCK sets the phase to RUN, in either phase, and changes nothing else. -/
def Obligations.LockEntersRun : Prop :=
  encode .lock = 0x28000000 ∧
  (∀ s : State, ¬ Halted s → ∃ t, exec .lock s = .next t ∧ t.answer = some ⟨.ok, 0⟩ ∧
    t.status = { s.status with phase := .run } ∧ t.regs = s.regs ∧ t.mem = s.mem ∧ t.cmd = s.cmd ∧ t.wdata = s.wdata ∧
    t.host = s.host) ∧
  IllegalWhen 0x0A fun w => w.extractLsb' 0 26 ≠ 0

/-- R88 with R48: in phase RUN, TLU reads the entry whose index is the whole register unsigned into the pair, bit for bit; PHASE,
UNWRITTEN, INDEX, UNINIT in that order. The index register may lie in the destination pair. -/
def Obligations.TluReadsTheEntry : Prop :=
  IllegalWhen 0x0B (fun w => w.extractLsb' 0 10 ≠ 0 ∨ (fieldA w).toNat % 2 = 1 ∨ 3 ≤ (fieldC w).toNat ∨ fieldD w ≠ 0) ∧
  ∀ (pd : Pair) (ri : Reg) (g : Region),
    encode (.tlu pd ri g) = 0x2C000000 ||| shl (2 * pd.val) 22 ||| shl ri 18 |||
      shl (match g with | .exp => 0 | .log => 1 | .pow => 2) 14 ∧
    ∀ s : State, ¬ Halted s →
      (s.status.phase = .init → FaultsWith s .phase (exec (.tlu pd ri g) s)) ∧
      (s.status.phase = .run →
        (readReg s ri = none → FaultsWith s .unwritten (exec (.tlu pd ri g) s)) ∧
        ∀ k, readReg s ri = some k →
          (regionSize g ≤ k.toNat → FaultsWith s .index (exec (.tlu pd ri g) s)) ∧
          (k.toNat < regionSize g → tabRead s.mem g k.toNat = none → FaultsWith s .uninit (exec (.tlu pd ri g) s)) ∧
          ∀ h l, k.toNat < regionSize g → tabRead s.mem g k.toNat = some ⟨h, l⟩ →
            ∃ t, exec (.tlu pd ri g) s = .next t ∧ WritesPair s t pd h l)

/-! ## Bit extraction and classification (42_classify.md) -/

/-- R90, R91, R92: XSGN, XEXP and XMAN write the sign bit, the biased exponent and the mantissa of `x[rs]` as numbers; UNWRITTEN. -/
def Obligations.FieldExtractionResults : Prop :=
  (∀ op ∈ [0x10, 0x11, 0x12], IllegalWhen op fun w => w.extractLsb' 0 18 ≠ 0) ∧
  ∀ (rd rs : Reg),
    encode (.xsgn rd rs) = 0x40000000 ||| shl rd 22 ||| shl rs 18 ∧
    encode (.xexp rd rs) = 0x44000000 ||| shl rd 22 ||| shl rs 18 ∧
    encode (.xman rd rs) = 0x48000000 ||| shl rd 22 ||| shl rs 18 ∧
    ∀ s : State, ¬ Halted s →
      (readReg s rs = none → ∀ i ∈ [Instr.xsgn rd rs, .xexp rd rs, .xman rd rs], FaultsWith s .unwritten (exec i s)) ∧
      ∀ w, readReg s rs = some w →
        (∃ t v, exec (.xsgn rd rs) s = .next t ∧ WritesReg s t rd v ∧ v.toNat = w.toNat / 2 ^ 63) ∧
        (∃ t v, exec (.xexp rd rs) s = .next t ∧ WritesReg s t rd v ∧ v.toNat = w.toNat / 2 ^ 52 % 2 ^ 11) ∧
        (∃ t v, exec (.xman rd rs) s = .next t ∧ WritesReg s t rd v ∧ v.toNat = w.toNat % 2 ^ 52)

/-- R93, R94 with R22 a: BFX writes the field zero-extended and BFXS the field with its top bit in every bit above it; a field that
reaches bit 63 makes BFXS an arithmetic shift right. A field past bit 63 is ILLEGAL; UNWRITTEN. -/
def Obligations.BitFieldResults : Prop :=
  (∀ op ∈ [0x13, 0x14], IllegalWhen op fun w =>
    w.extractLsb' 12 6 ≠ 0 ∨ 64 < (fieldLsb w).toNat + (fieldWm1 w).toNat + 1) ∧
  ∀ (rd rs : Reg) (lsb wm1 : BitPos),
    encode (.bfx rd rs lsb wm1) = 0x4C000000 ||| shl rd 22 ||| shl rs 18 ||| shl lsb 6 ||| shl wm1 0 ∧
    encode (.bfxs rd rs lsb wm1) = 0x50000000 ||| shl rd 22 ||| shl rs 18 ||| shl lsb 6 ||| shl wm1 0 ∧
    ∀ s : State, ¬ Halted s →
      (¬ lsb.val + wm1.val + 1 ≤ 64 → ∀ i ∈ [Instr.bfx rd rs lsb wm1, .bfxs rd rs lsb wm1], FaultsWith s .illegal (exec i s)) ∧
      (lsb.val + wm1.val + 1 ≤ 64 →
        (readReg s rs = none → ∀ i ∈ [Instr.bfx rd rs lsb wm1, .bfxs rd rs lsb wm1], FaultsWith s .unwritten (exec i s)) ∧
        ∀ w, readReg s rs = some w →
          (∃ t v, exec (.bfx rd rs lsb wm1) s = .next t ∧ WritesReg s t rd v ∧
            v.toNat = w.toNat / 2 ^ lsb.val % 2 ^ (wm1.val + 1)) ∧
          (∃ t v, exec (.bfxs rd rs lsb wm1) s = .next t ∧ WritesReg s t rd v ∧
            (∀ j < 64, v.getLsbD j = w.getLsbD (lsb.val + min j wm1.val)) ∧
            (lsb.val + wm1.val + 1 = 64 → v.toInt = w.toInt / 2 ^ lsb.val)))

/-- R70: MOV, which is BFX with `lsb` 0 and width 64, copies the word; FABS, BFX with width 63, clears bit 63 and keeps the others, so
a finite value becomes its magnitude and a NaN stays a NaN. -/
def Obligations.MovCopiesAndFabsClearsTheSign : Prop :=
  ∀ (rd rs : Reg) (s : State) (w : Word), ¬ Halted s → readReg s rs = some w →
    (∃ t, exec (.bfx rd rs 0 63) s = .next t ∧ WritesReg s t rd w) ∧
    ∃ t v, exec (.bfx rd rs 0 62) s = .next t ∧ WritesReg s t rd v ∧ v.getLsbD 63 = false ∧
      (∀ j < 63, v.getLsbD j = w.getLsbD j) ∧ (IsFinite w → val v = |val w|) ∧ (IsNan w → IsNan v)

/-- R95: PACK takes bit 0, bits 10:0 and bits 51:0 of its sources; packing the three fields of a word gives the word back. -/
def Obligations.PackBuildsAWordFromFields : Prop :=
  IllegalWhen 0x15 (fun w => w.extractLsb' 0 10 ≠ 0) ∧
  ∀ (rd rs re rm : Reg),
    encode (.pack rd rs re rm) = 0x54000000 ||| shl rd 22 ||| shl rs 18 ||| shl re 14 ||| shl rm 10 ∧
    ∀ s : State, ¬ Halted s →
      (SomeUnwritten s [rs, re, rm] → FaultsWith s .unwritten (exec (.pack rd rs re rm) s)) ∧
      ∀ ws we wm, readReg s rs = some ws → readReg s re = some we → readReg s rm = some wm →
        ∃ t v, exec (.pack rd rs re rm) s = .next t ∧ WritesReg s t rd v ∧
          sign v = ws.getLsbD 0 ∧ bexp v = we.toNat % 2 ^ 11 ∧ mant v = wm.toNat % 2 ^ 52 ∧
          ∀ w : Word, ws.toNat = w.toNat / 2 ^ 63 → we.toNat = bexp w → wm.toNat = mant w → v = w

/-- R96 with R10: CLASS writes a word with exactly one of bits 6:0 set, by the seven class conditions, bit 7 the sign, 63:8 zero; the
ten words the rule lists are the possible results. -/
def Obligations.ClassWordsAreOneHotWithSign : Prop :=
  IllegalWhen 0x17 (fun w => w.extractLsb' 0 18 ≠ 0) ∧
  ∀ (rd rs : Reg),
    encode (.classify rd rs) = 0x5C000000 ||| shl rd 22 ||| shl rs 18 ∧
    ∀ s : State, ¬ Halted s →
      (readReg s rs = none → FaultsWith s .unwritten (exec (.classify rd rs) s)) ∧
      ∀ w, readReg s rs = some w → ∃ t v, exec (.classify rd rs) s = .next t ∧ WritesReg s t rd v ∧
        (v.getLsbD 0 = decide (bexp w = 2047 ∧ mant w ≠ 0)) ∧
        (v.getLsbD 1 = decide (w = 0x7FF0000000000000)) ∧ (v.getLsbD 2 = decide (w = 0xFFF0000000000000)) ∧
        (v.getLsbD 3 = decide (w = 0x0000000000000000)) ∧ (v.getLsbD 4 = decide (w = 0x8000000000000000)) ∧
        (v.getLsbD 5 = decide (bexp w = 0 ∧ mant w ≠ 0)) ∧ (v.getLsbD 6 = decide (1 ≤ bexp w ∧ bexp w ≤ 2046)) ∧
        (v.getLsbD 7 = w.getLsbD 63) ∧
        v ∈ [0x001, 0x081, 0x002, 0x084, 0x008, 0x090, 0x020, 0x0A0, 0x040, 0x0C0]

/-- R97: ICLASS writes 1, 2 or 4: for a finite word, 1 when its value is no integer, 2 when it is an even integer, 4 when it is an odd
one; for a NaN or an infinity 1. -/
def Obligations.IntegerClassIsTheParityOfTheValue : Prop :=
  IllegalWhen 0x18 (fun w => w.extractLsb' 0 18 ≠ 0) ∧
  ∀ (rd rs : Reg),
    encode (.iclass rd rs) = 0x60000000 ||| shl rd 22 ||| shl rs 18 ∧
    ∀ s : State, ¬ Halted s →
      (readReg s rs = none → FaultsWith s .unwritten (exec (.iclass rd rs) s)) ∧
      ∀ w, readReg s rs = some w → ∃ t v, exec (.iclass rd rs) s = .next t ∧ WritesReg s t rd v ∧
        (v = 1 ∨ v = 2 ∨ v = 4) ∧ (¬ IsFinite w → v = 1) ∧
        (IsFinite w → (v = 1 ↔ ∀ n : ℤ, val w ≠ n) ∧ (v = 2 ↔ ∃ n : ℤ, val w = 2 * n) ∧
          (v = 4 ↔ ∃ n : ℤ, val w = 2 * n + 1))

/-- R98 with R17: CMP writes UN (8) if either word is a NaN, else LT (1), EQ (2) or GT (4) by the order of extended reals: finite
words by value, infinities at the ends, infinities of one sign equal. -/
def Obligations.CompareIsTheOrderOfExtendedReals : Prop :=
  IllegalWhen 0x19 (fun w => w.extractLsb' 0 14 ≠ 0) ∧
  ∀ (rd ra rb : Reg),
    encode (.cmp rd ra rb) = 0x64000000 ||| shl rd 22 ||| shl ra 18 ||| shl rb 14 ∧
    ∀ s : State, ¬ Halted s →
      (SomeUnwritten s [ra, rb] → FaultsWith s .unwritten (exec (.cmp rd ra rb) s)) ∧
      ∀ a b, readReg s ra = some a → readReg s rb = some b →
        ∃ t v, exec (.cmp rd ra rb) s = .next t ∧ WritesReg s t rd v ∧
          (v = 1 ∨ v = 2 ∨ v = 4 ∨ v = 8) ∧ (v = 8 ↔ IsNan a ∨ IsNan b) ∧
          (IsFinite a → IsFinite b → (v = 1 ↔ val a < val b) ∧ (v = 2 ↔ val a = val b) ∧ (v = 4 ↔ val b < val a)) ∧
          (IsInf a → IsFinite b → v = if sign a then 1 else 4) ∧
          (IsFinite a → IsInf b → v = if sign b then 4 else 1) ∧
          (IsInf a → IsInf b → v = if sign a = sign b then 2 else if sign a then 1 else 4)

/-- R99: CTEST writes 1 when the source and the zero-extended mask have a 1 in a common bit, else 0. -/
def Obligations.CtestTestsTheMask : Prop :=
  IllegalWhen 0x1A (fun w => w.extractLsb' 12 6 ≠ 0) ∧
  ∀ (rd rs : Reg) (mask : BitVec 12),
    encode (.ctest rd rs mask) = 0x68000000 ||| shl rd 22 ||| shl rs 18 ||| shl mask.toNat 0 ∧
    ∀ s : State, ¬ Halted s →
      (readReg s rs = none → FaultsWith s .unwritten (exec (.ctest rd rs mask) s)) ∧
      ∀ w, readReg s rs = some w → ∃ t v, exec (.ctest rd rs mask) s = .next t ∧ WritesReg s t rd v ∧
        (v = 0 ∨ v = 1) ∧ (v = 1 ↔ ∃ j < 12, w.getLsbD j = true ∧ mask.getLsbD j = true)

/-- R100: EXPADD raises EXPRANGE when the source is not normal or `E + n` leaves 1 to 2046, as mathematical integers; else it writes the
word with that exponent field, whose value is exactly `val(w) · 2^n`. -/
def Obligations.ExpaddScalesExactlyOrFaults : Prop :=
  IllegalWhen 0x16 (fun w => w.extractLsb' 0 14 ≠ 0) ∧
  ∀ (rd ra rn : Reg),
    encode (.expadd rd ra rn) = 0x58000000 ||| shl rd 22 ||| shl ra 18 ||| shl rn 14 ∧
    ∀ s : State, ¬ Halted s →
      (SomeUnwritten s [ra, rn] → FaultsWith s .unwritten (exec (.expadd rd ra rn) s)) ∧
      ∀ w n, readReg s ra = some w → readReg s rn = some n →
        (OutsideExpRange w n → FaultsWith s .exprange (exec (.expadd rd ra rn) s)) ∧
        (¬ OutsideExpRange w n → ∃ t v, exec (.expadd rd ra rn) s = .next t ∧ WritesReg s t rd v ∧
          sign v = sign w ∧ (bexp v : ℤ) = bexp w + n.toInt ∧ mant v = mant w ∧ val v = val w * 2 ^ n.toInt)

/-! ## Multiplexers (43_mux.md) -/

/-- R105, R106, R107: MUX2 and MUX3 copy the word their predicates choose, a predicate being true when it is not all zeros, the first
of MUX3 winning; every input must be written, the unselected ones included; MUX3 is two MUX2 in sequence. -/
def Obligations.MultiplexersSelectByPredicate : Prop :=
  IllegalWhen 0x20 (fun w => w.extractLsb' 0 10 ≠ 0) ∧ IllegalWhen 0x21 (fun w => w.extractLsb' 0 2 ≠ 0) ∧
  (∀ (rd rp ra rb : Reg),
    encode (.mux2 rd rp ra rb) = 0x80000000 ||| shl rd 22 ||| shl rp 18 ||| shl ra 14 ||| shl rb 10 ∧
    ∀ s : State, ¬ Halted s →
      (SomeUnwritten s [rp, ra, rb] → FaultsWith s .unwritten (exec (.mux2 rd rp ra rb) s)) ∧
      ∀ p a b, readReg s rp = some p → readReg s ra = some a → readReg s rb = some b →
        ∃ t, exec (.mux2 rd rp ra rb) s = .next t ∧ WritesReg s t rd (if p.toNat ≠ 0 then a else b)) ∧
  (∀ (rd rp rq ra rb rc : Reg),
    encode (.mux3 rd rp rq ra rb rc) =
      0x84000000 ||| shl rd 22 ||| shl rp 18 ||| shl rq 14 ||| shl ra 10 ||| shl rb 6 ||| shl rc 2 ∧
    ∀ s : State, ¬ Halted s →
      (SomeUnwritten s [rp, rq, ra, rb, rc] → FaultsWith s .unwritten (exec (.mux3 rd rp rq ra rb rc) s)) ∧
      ∀ p q a b c, readReg s rp = some p → readReg s rq = some q → readReg s ra = some a → readReg s rb = some b →
        readReg s rc = some c → ∃ t, exec (.mux3 rd rp rq ra rb rc) s = .next t ∧
          WritesReg s t rd (if p.toNat ≠ 0 then a else if q.toNat ≠ 0 then b else c)) ∧
  ∀ (rd rp rq ra rb rc spare : Reg) (s t u v : State) (w : Word),
    spare ≠ rp → spare ≠ ra → exec (.mux2 spare rq rb rc) s = .next t → exec (.mux2 rd rp ra spare) t = .next u →
    exec (.mux3 rd rp rq ra rb rc) s = .next v → readReg u rd = some w → ¬ Halted u → readReg v rd = some w

/-! ## The double-double adder/multiplier (44_ddarith.md) -/

/-- R111, R112: TWOSUM runs its six operations and TWOPROD its two, in the order the rules give, on every operand, and writes the pair;
UNWRITTEN. -/
def Obligations.TwosumAndTwoprodSequences : Prop :=
  (∀ op ∈ [0x28, 0x29], IllegalWhen op fun w => w.extractLsb' 0 14 ≠ 0 ∨ (fieldA w).toNat % 2 = 1) ∧
  ∀ (pd : Pair) (ra rb : Reg),
    encode (.twosum pd ra rb) = 0xA0000000 ||| shl (2 * pd.val) 22 ||| shl ra 18 ||| shl rb 14 ∧
    encode (.twoprod pd ra rb) = 0xA4000000 ||| shl (2 * pd.val) 22 ||| shl ra 18 ||| shl rb 14 ∧
    ∀ s : State, ¬ Halted s →
      (SomeUnwritten s [ra, rb] → FaultsWith s .unwritten (exec (.twosum pd ra rb) s) ∧
        FaultsWith s .unwritten (exec (.twoprod pd ra rb) s)) ∧
      ∀ a b, readReg s ra = some a → readReg s rb = some b →
        (∃ t, exec (.twosum pd ra rb) s = .next t ∧
          WritesPair s t pd (fadd a b)
            (let sm := fadd a b
             let bb := fsub sm a
             let aa := fsub sm bb
             let db := fsub b bb
             let da := fsub a aa
             fadd da db)) ∧
        (∃ t, exec (.twoprod pd ra rb) s = .next t ∧ WritesPair s t pd (fmul a b) (fma a b (fneg (fmul a b))))

/-- R113, R114 with R110: DDADDD and DDADD run their ten and twenty operations in the order the rules give; UNWRITTEN. -/
def Obligations.DoubleDoubleSumSequences : Prop :=
  (IllegalWhen 0x2A fun w => w.extractLsb' 0 14 ≠ 0 ∨ (fieldA w).toNat % 2 = 1 ∨ (fieldB w).toNat % 2 = 1) ∧
  (IllegalWhen 0x2B fun w => w.extractLsb' 0 14 ≠ 0 ∨ (fieldA w).toNat % 2 = 1 ∨ (fieldB w).toNat % 2 = 1 ∨
    (fieldC w).toNat % 2 = 1) ∧
  (∀ (pd pa : Pair) (rb : Reg),
    encode (.ddaddd pd pa rb) = 0xA8000000 ||| shl (2 * pd.val) 22 ||| shl (2 * pa.val) 18 ||| shl rb 14 ∧
    ∀ s : State, ¬ Halted s →
      (SomeUnwritten s [pairHi pa, pairLo pa, rb] → FaultsWith s .unwritten (exec (.ddaddd pd pa rb) s)) ∧
      ∀ ah al b, readReg s (pairHi pa) = some ah → readReg s (pairLo pa) = some al → readReg s rb = some b →
        ∃ t, exec (.ddaddd pd pa rb) s = .next t ∧
          (let ⟨sm, e⟩ := twoSum ah b
           let v := fadd e al
           let zh := fadd sm v
           WritesPair s t pd zh (fsub v (fsub zh sm)))) ∧
  ∀ (pd pa pb : Pair),
    encode (.ddadd pd pa pb) = 0xAC000000 ||| shl (2 * pd.val) 22 ||| shl (2 * pa.val) 18 ||| shl (2 * pb.val) 14 ∧
    ∀ s : State, ¬ Halted s →
      (SomeUnwritten s [pairHi pa, pairLo pa, pairHi pb, pairLo pb] → FaultsWith s .unwritten (exec (.ddadd pd pa pb) s)) ∧
      ∀ ah al bh bl, readReg s (pairHi pa) = some ah → readReg s (pairLo pa) = some al →
        readReg s (pairHi pb) = some bh → readReg s (pairLo pb) = some bl →
        ∃ t, exec (.ddadd pd pa pb) s = .next t ∧
          (let ⟨sh, sl⟩ := twoSum ah bh
           let ⟨th, tl⟩ := twoSum al bl
           let c := fadd sl th
           let vh := fadd sh c
           let vl := fsub c (fsub vh sh)
           let w := fadd tl vl
           let zh := fadd vh w
           WritesPair s t pd zh (fsub w (fsub zh vh)))

/-- R115, R116 with R110: DDMULD and DDMUL run their seven and nine operations in the order the rules give; the product of the two low
parts is not computed; UNWRITTEN. -/
def Obligations.DoubleDoubleProductSequences : Prop :=
  (IllegalWhen 0x2C fun w => w.extractLsb' 0 14 ≠ 0 ∨ (fieldA w).toNat % 2 = 1 ∨ (fieldB w).toNat % 2 = 1) ∧
  (IllegalWhen 0x2D fun w => w.extractLsb' 0 14 ≠ 0 ∨ (fieldA w).toNat % 2 = 1 ∨ (fieldB w).toNat % 2 = 1 ∨
    (fieldC w).toNat % 2 = 1) ∧
  (∀ (pd pa : Pair) (rb : Reg),
    encode (.ddmuld pd pa rb) = 0xB0000000 ||| shl (2 * pd.val) 22 ||| shl (2 * pa.val) 18 ||| shl rb 14 ∧
    ∀ s : State, ¬ Halted s →
      (SomeUnwritten s [pairHi pa, pairLo pa, rb] → FaultsWith s .unwritten (exec (.ddmuld pd pa rb) s)) ∧
      ∀ ah al b, readReg s (pairHi pa) = some ah → readReg s (pairLo pa) = some al → readReg s rb = some b →
        ∃ t, exec (.ddmuld pd pa rb) s = .next t ∧
          (let ch := fmul ah b
           let cl1 := fma ah b (fneg ch)
           let cl3 := fadd cl1 (fmul al b)
           let zh := fadd ch cl3
           WritesPair s t pd zh (fsub cl3 (fsub zh ch)))) ∧
  ∀ (pd pa pb : Pair),
    encode (.ddmul pd pa pb) = 0xB4000000 ||| shl (2 * pd.val) 22 ||| shl (2 * pa.val) 18 ||| shl (2 * pb.val) 14 ∧
    ∀ s : State, ¬ Halted s →
      (SomeUnwritten s [pairHi pa, pairLo pa, pairHi pb, pairLo pb] → FaultsWith s .unwritten (exec (.ddmul pd pa pb) s)) ∧
      ∀ ah al bh bl, readReg s (pairHi pa) = some ah → readReg s (pairLo pa) = some al →
        readReg s (pairHi pb) = some bh → readReg s (pairLo pb) = some bl →
        ∃ t, exec (.ddmul pd pa pb) s = .next t ∧
          (let ch := fmul ah bh
           let cl1 := fma ah bh (fneg ch)
           let cl2 := fadd (fmul ah bl) (fmul al bh)
           let cl3 := fadd cl1 cl2
           let zh := fadd ch cl3
           WritesPair s t pd zh (fsub cl3 (fsub zh ch)))

/-- The rows (a), (b), (c) of the table of R119: what the sequences give for a NaN operand, for an infinite `a`, `b`, `ah` or `bh`, and
when the first `fadd` or `fmul` of finite operands overflows. `QNAN` stands for some quiet NaN (R18). -/
def Obligations.ExtremeOperandsOfDoubleDouble : Prop :=
  (∀ a b, IsNan a ∨ IsNan b → ∀ d ∈ [twoSum a b, twoProd a b], IsQuietNan d.hi ∧ IsQuietNan d.lo) ∧
  (∀ (a : DoubleDouble) (b : Word), IsNan a.hi ∨ IsNan a.lo ∨ IsNan b →
    ∀ d ∈ [ddAddD a b, ddMulD a b], IsQuietNan d.hi ∧ IsQuietNan d.lo) ∧
  (∀ a b : DoubleDouble, IsNan a.hi ∨ IsNan a.lo ∨ IsNan b.hi ∨ IsNan b.lo →
    ∀ d ∈ [ddAdd a b, ddMul a b], IsQuietNan d.hi ∧ IsQuietNan d.lo) ∧
  (∀ a b, IsInf a ∨ IsInf b → (twoSum a b).hi = fadd a b ∧ IsQuietNan (twoSum a b).lo ∧ (twoProd a b).hi = fmul a b ∧
    IsQuietNan (twoProd a b).lo) ∧
  (∀ (a : DoubleDouble) (b : Word), IsInf a.hi ∨ IsInf b →
    ∀ d ∈ [ddAddD a b, ddMulD a b], IsQuietNan d.hi ∧ IsQuietNan d.lo) ∧
  (∀ a b : DoubleDouble, IsInf a.hi ∨ IsInf b.hi → ∀ d ∈ [ddAdd a b, ddMul a b], IsQuietNan d.hi ∧ IsQuietNan d.lo) ∧
  (∀ a b, IsFinite a → IsFinite b →
    (IsInf (fadd a b) → (twoSum a b).hi = fadd a b ∧ IsQuietNan (twoSum a b).lo) ∧
    (IsInf (fmul a b) → (twoProd a b).hi = fmul a b ∧ (twoProd a b).lo = fneg (fmul a b))) ∧
  (∀ (a : DoubleDouble) (b : Word), IsFinite a.hi → IsFinite a.lo → IsFinite b →
    (IsInf (fadd a.hi b) → IsQuietNan (ddAddD a b).hi ∧ IsQuietNan (ddAddD a b).lo) ∧
    (IsInf (fmul a.hi b) → IsQuietNan (ddMulD a b).hi ∧ IsQuietNan (ddMulD a b).lo)) ∧
  ∀ a b : DoubleDouble, IsFinite a.hi → IsFinite a.lo → IsFinite b.hi → IsFinite b.lo →
    (IsInf (fadd a.hi b.hi) → IsQuietNan (ddAdd a b).hi ∧ IsQuietNan (ddAdd a b).lo) ∧
    (IsInf (fmul a.hi b.hi) → IsQuietNan (ddMul a b).hi ∧ IsQuietNan (ddMul a b).lo)

/-- R110: FastTwoSum is three rounded operations; when `a` and `b` are finite, the rounded sum is finite and `bexp(a) ≥ bexp(b)`, which
`|val(a)| ≥ |val(b)|` implies, it is exact. -/
def Obligations.FastTwoSumIsExact : Prop :=
  (∀ a b : Word, fastTwoSum a b = ⟨fadd a b, fsub b (fsub (fadd a b) a)⟩) ∧
  ∀ a b : Word, IsFinite a → IsFinite b → IsFinite (fadd a b) →
    (|val b| ≤ |val a| → bexp b ≤ bexp a) ∧
    (bexp b ≤ bexp a →
      IsFinite (fastTwoSum a b).lo ∧ val (fastTwoSum a b).hi + val (fastTwoSum a b).lo = val a + val b)

/-- R111, with one more premise than the rule has: when `a`, `b`, the rounded sum `s` and `bb = fsub(s, a)` are finite, TWOSUM is exact.
Without the premise on `bb` the rule's sentence does not follow from its own sequence (assumption log 7, the next statement). -/
def Obligations.TwoSumIsExact : Prop :=
  ∀ a b : Word, IsFinite a → IsFinite b → IsFinite (fadd a b) → IsFinite (fsub (fadd a b) a) →
    IsFinite (twoSum a b).lo ∧ val (twoSum a b).hi + val (twoSum a b).lo = val a + val b

/-- The sequence of R111 on `a = -3 · 2^970` and the largest finite `b`: both words and their rounded sum are finite, `bb` overflows,
and the error word is a quiet NaN. So the exactness that R111 claims for every finite sum fails here; the sequence, which is the
operation, governs (assumption log 7). -/
def Obligations.TwoSumCanOverflowInside : Prop :=
  fadd 0xFCA8000000000000 0x7FEFFFFFFFFFFFFF = 0x7FEFFFFFFFFFFFFE ∧
  fsub 0x7FEFFFFFFFFFFFFE 0xFCA8000000000000 = 0x7FF0000000000000 ∧
  (twoSum 0xFCA8000000000000 0x7FEFFFFFFFFFFFFF).hi = 0x7FEFFFFFFFFFFFFE ∧
  IsQuietNan (twoSum 0xFCA8000000000000 0x7FEFFFFFFFFFFFFF).lo

/-- R112: when `a`, `b` and the rounded product are finite and the exact error is a binary64 value, TWOPROD is exact. -/
def Obligations.TwoProdIsExact : Prop :=
  ∀ a b : Word, IsFinite a → IsFinite b → IsFinite (fmul a b) →
    (∃ e : Word, IsFinite e ∧ val e = val a * val b - val (fmul a b)) →
    IsFinite (twoProd a b).lo ∧ val (twoProd a b).hi + val (twoProd a b).lo = val a * val b

/-- R111, R112, corner cases: "when the sum is exact, `e` is +0, never −0", and "an exact product gives `e` = +0 whatever the signs". -/
def Obligations.ErrorOfAnExactResultIsPlusZero : Prop :=
  ∀ a b : Word, IsFinite a → IsFinite b →
    (IsFinite (fadd a b) → val (fadd a b) = val a + val b → (twoSum a b).lo = 0) ∧
    (IsFinite (fmul a b) → val (fmul a b) = val a * val b → (twoProd a b).lo = 0)

/-- R118 with R20: the pairs that FastTwoSum, TWOSUM and TWOPROD give where they are exact keep the DoubleDouble invariant
`|lo| ≤ ulp(hi)/2`. The premises are those of the three statements of exactness (for TWOSUM, see assumption log 7). -/
def Obligations.LowWordIsAtMostHalfAnUlp : Prop :=
  (∀ a b : Word, IsFinite a → IsFinite b → IsFinite (fadd a b) →
    (bexp b ≤ bexp a → |val (fastTwoSum a b).lo| ≤ ulp (fastTwoSum a b).hi / 2) ∧
    (IsFinite (fsub (fadd a b) a) → |val (twoSum a b).lo| ≤ ulp (twoSum a b).hi / 2)) ∧
  ∀ a b : Word, IsFinite a → IsFinite b → IsFinite (fmul a b) →
    (∃ e : Word, IsFinite e ∧ val e = val a * val b - val (fmul a b)) →
    |val (twoProd a b).lo| ≤ ulp (twoProd a b).hi / 2

/-! ## The polynomial evaluator (45_poly.md) -/

/-- R125, R126 with R50: in phase RUN, POLYH writes Horner's value of `c[0] + … + c[n] r^n`; PHASE, UNWRITTEN, UNINIT in that order. -/
def Obligations.PolyhEvaluatesByHorner : Prop :=
  IllegalWhen 0x30 (fun w => w.extractLsb' 0 10 ≠ 0 ∨ 3 < (fieldC w).toNat ∨ 8 < (fieldD w).toNat) ∧
  ∀ (rd rs : Reg) (b : Bank) (n : Slot),
    encode (.polyh rd rs b n) = 0xC0000000 ||| shl rd 22 ||| shl rs 18 ||| shl b 14 ||| shl n 10 ∧
    ∀ s : State, ¬ Halted s →
      (s.status.phase = .init → FaultsWith s .phase (exec (.polyh rd rs b n) s)) ∧
      (s.status.phase = .run →
        (readReg s rs = none → FaultsWith s .unwritten (exec (.polyh rd rs b n) s)) ∧
        ∀ r, readReg s rs = some r →
          ((∃ k : Slot, k ≤ n ∧ coefRead s.mem b k = none) → FaultsWith s .uninit (exec (.polyh rd rs b n) s)) ∧
          ∀ c : Nat → Word, CoefsAre s.mem b n c →
            ∃ t, exec (.polyh rd rs b n) s = .next t ∧ WritesReg s t rd (hornerRule c n r))

/-- R125, R127 with R50: in phase RUN, POLYE writes Estrin's value, as the rule's table unrolls it for each degree 0 to 8; PHASE,
UNWRITTEN, UNINIT in that order. -/
def Obligations.PolyeEvaluatesByEstrin : Prop :=
  IllegalWhen 0x31 (fun w => w.extractLsb' 0 10 ≠ 0 ∨ 3 < (fieldC w).toNat ∨ 8 < (fieldD w).toNat) ∧
  ∀ (rd rs : Reg) (b : Bank) (n : Slot),
    encode (.polye rd rs b n) = 0xC4000000 ||| shl rd 22 ||| shl rs 18 ||| shl b 14 ||| shl n 10 ∧
    ∀ s : State, ¬ Halted s →
      (s.status.phase = .init → FaultsWith s .phase (exec (.polye rd rs b n) s)) ∧
      (s.status.phase = .run →
        (readReg s rs = none → FaultsWith s .unwritten (exec (.polye rd rs b n) s)) ∧
        ∀ r, readReg s rs = some r →
          ((∃ k : Slot, k ≤ n ∧ coefRead s.mem b k = none) → FaultsWith s .uninit (exec (.polye rd rs b n) s)) ∧
          ∀ c : Nat → Word, CoefsAre s.mem b n c →
            ∃ t, exec (.polye rd rs b n) s = .next t ∧ WritesReg s t rd (estrinTable c n r))

/-- R127, corner cases: `fadd` and `fmul` are commutative, so for degrees 0 and 1 POLYH and POLYE go the same way, bit for bit, in every
state. Rests on the model's choice that a created NaN does not depend on the order of the operands (assumption log 3). -/
def Obligations.SchemesAgreeBelowDegreeTwo : Prop :=
  (∀ a b : Word, fadd a b = fadd b a ∧ fmul a b = fmul b a) ∧
  ∀ (rd rs : Reg) (b : Bank) (n : Slot) (s : State), n ≤ 1 → exec (.polyh rd rs b n) s = exec (.polye rd rs b n) s

/-- R125: "slots above `n` are not read and need not be written": two states whose memories agree on slots 0 to `n` of the bank go the
same way, whatever else the memories hold. -/
def Obligations.SlotsAboveTheDegreeAreNotRead : Prop :=
  ∀ (rd rs : Reg) (b : Bank) (n : Slot) (s t : State) (m : Memory),
    (∀ k : Slot, k ≤ n → coefRead m b k = coefRead s.mem b k) →
    (exec (.polyh rd rs b n) s = .next t → exec (.polyh rd rs b n) { s with mem := m } = .next { t with mem := m }) ∧
    (exec (.polye rd rs b n) s = .next t → exec (.polye rd rs b n) { s with mem := m } = .next { t with mem := m })

/-! ## Binary64 arithmetic (00_scope.md R10 to R18) -/

/-- R12: "The largest finite value is `val(0x7FEFFFFFFFFFFFFF) = 2^1024 − 2^971`"; no finite word's magnitude is larger, and the finite
words with one value are one word, or the two zeros (R11). -/
def Obligations.LargestFiniteValue : Prop :=
  val 0x7FEFFFFFFFFFFFFF = 2 ^ 1024 - 2 ^ 971 ∧ (∀ w : Word, IsFinite w → |val w| ≤ 2 ^ 1024 - 2 ^ 971) ∧
  ∀ v w : Word, IsFinite v → IsFinite w → val v = val w → v = w ∨ IsZero v ∧ IsZero w

/-- R12: the model's rounding is round to nearest, ties to even, with gradual underflow and overflow to infinity from
`2^1024 - 2^970`, for every rational that is a whole number of units of 2^-2148 (every sum and product the primitives round is). That `rne` takes its
rational as an integer in these units is the model's representation (DEDUCED, assumption log 8). -/
def Obligations.RoundingIsToNearestEven : Prop := ∀ (q : ℤ) (zs : Bool), IsRne ((q : ℚ) / 2 ^ 2148) zs (rne q zs)

/-- R13, R14: the cases of `fadd`, whose finite case is the rounded exact sum, `QNAN` being some quiet NaN (R18); `fneg` inverts bit 63,
`fsub` adds the negation, so `fsub(x, x) = +0` for a finite `x` and a NaN operand gives `QNAN`. -/
def Obligations.FaddIsTheRoundedSum : Prop :=
  (∀ a b : Word,
    (IsNan a ∨ IsNan b → IsQuietNan (fadd a b)) ∧
    (IsInf a → IsInf b → (sign a = sign b → fadd a b = a) ∧ (sign a ≠ sign b → IsQuietNan (fadd a b))) ∧
    (IsInf a → IsFinite b → fadd a b = a) ∧ (IsFinite a → IsInf b → fadd a b = b) ∧
    (IsFinite a → IsFinite b →
      (val a + val b = 0 → fadd a b = if sign a ∧ sign b then 0x8000000000000000 else 0) ∧
      (val a + val b ≠ 0 → IsRne (val a + val b) false (fadd a b)))) ∧
  (∀ a b : Word, fsub a b = fadd a (fneg b) ∧ (IsNan a ∨ IsNan b → IsQuietNan (fsub a b)) ∧
    (fneg a).getLsbD 63 = (!a.getLsbD 63) ∧ ∀ j < 63, (fneg a).getLsbD j = a.getLsbD j) ∧
  ∀ x : Word, IsFinite x → fsub x x = 0

/-- R15: the cases of `fmul`, whose finite case is the rounded exact product with the sign rule for zeros. -/
def Obligations.FmulIsTheRoundedProduct : Prop :=
  ∀ a b : Word,
    (IsNan a ∨ IsNan b → IsQuietNan (fmul a b)) ∧
    (IsInf a ∧ IsZero b ∨ IsZero a ∧ IsInf b → IsQuietNan (fmul a b)) ∧
    (IsInf a ∧ ¬ IsNan b ∧ ¬ IsZero b ∨ IsInf b ∧ ¬ IsNan a ∧ ¬ IsZero a →
      IsInf (fmul a b) ∧ sign (fmul a b) = (sign a ^^ sign b)) ∧
    (IsFinite a → IsFinite b → IsRne (val a * val b) (sign a ^^ sign b) (fmul a b))

/-- R16: the cases of `fma`, whose finite case rounds the exact `a × b + c` once. -/
def Obligations.FmaRoundsOnce : Prop :=
  ∀ a b c : Word,
    (IsNan a ∨ IsNan b ∨ IsNan c → IsQuietNan (fma a b c)) ∧
    (¬ IsNan a → ¬ IsNan b → ¬ IsNan c →
      (IsInf a ∧ IsZero b ∨ IsZero a ∧ IsInf b → IsQuietNan (fma a b c)) ∧
      (IsInf a ∧ ¬ IsZero b ∨ IsInf b ∧ ¬ IsZero a →
        (IsInf c ∧ sign c ≠ (sign a ^^ sign b) → IsQuietNan (fma a b c)) ∧
        (¬ (IsInf c ∧ sign c ≠ (sign a ^^ sign b)) →
          IsInf (fma a b c) ∧ sign (fma a b c) = (sign a ^^ sign b))) ∧
      (IsFinite a → IsFinite b → IsInf c → fma a b c = c) ∧
      (IsFinite a → IsFinite b → IsFinite c →
        (val a * val b + val c = 0 →
          fma a b c = if (sign a ^^ sign b) ∧ sign c then 0x8000000000000000 else 0) ∧
        (val a * val b + val c ≠ 0 → IsRne (val a * val b + val c) false (fma a b c))))

/-- R18: `QNAN` is a quiet NaN, whatever the operation and its operands; so every NaN an arithmetic primitive returns is quiet. The
statement holds for every value of the free `Config.nanDraw` (assumption log 3). -/
def Obligations.CreatedNansAreQuiet : Prop :=
  (∀ (op : ArithOp) (a b c : Word), IsQuietNan (qnan op a b c) ∧ IsQuietNan (qnanCommutative op a b)) ∧
  ∀ a b c : Word, (IsNan (fadd a b) → IsQuietNan (fadd a b)) ∧ (IsNan (fsub a b) → IsQuietNan (fsub a b)) ∧
    (IsNan (fmul a b) → IsQuietNan (fmul a b)) ∧ (IsNan (fma a b c) → IsQuietNan (fma a b c))
end

