-- ==== Sys2Proof/Laws/Decode.lean ====
section
/-! SUPPORT. The fields of a word built from fields, the word rebuilt from its fields, and the operand codes: what a proof about
`decode` and `encode` needs of the bits, said once. -/

namespace Sys2Proof

/-! ## Fields of a built word -/

section
variable (op : BitVec 6) (a b c d e f : BitVec 4) (imm : BitVec 12)

@[simp] theorem fieldOp_fieldsWord : fieldOp (fieldsWord op a b c d e f) = op := by
  apply BitVec.eq_of_getLsbD_eq
  intro i hi
  interval_cases i <;> simp [fieldOp, fieldsWord]
@[simp] theorem fieldA_fieldsWord : fieldA (fieldsWord op a b c d e f) = a := by
  apply BitVec.eq_of_getLsbD_eq
  intro i hi
  interval_cases i <;> simp [fieldA, fieldsWord]
@[simp] theorem fieldB_fieldsWord : fieldB (fieldsWord op a b c d e f) = b := by
  apply BitVec.eq_of_getLsbD_eq
  intro i hi
  interval_cases i <;> simp [fieldB, fieldsWord]
@[simp] theorem fieldC_fieldsWord : fieldC (fieldsWord op a b c d e f) = c := by
  apply BitVec.eq_of_getLsbD_eq
  intro i hi
  interval_cases i <;> simp [fieldC, fieldsWord]
@[simp] theorem fieldD_fieldsWord : fieldD (fieldsWord op a b c d e f) = d := by
  apply BitVec.eq_of_getLsbD_eq
  intro i hi
  interval_cases i <;> simp [fieldD, fieldsWord]
@[simp] theorem fieldE_fieldsWord : fieldE (fieldsWord op a b c d e f) = e := by
  apply BitVec.eq_of_getLsbD_eq
  intro i hi
  interval_cases i <;> simp [fieldE, fieldsWord]
@[simp] theorem fieldF_fieldsWord : fieldF (fieldsWord op a b c d e f) = f := by
  apply BitVec.eq_of_getLsbD_eq
  intro i hi
  interval_cases i <;> simp [fieldF, fieldsWord]
@[simp] theorem fieldOp_immWord : fieldOp (immWord op a b imm) = op := by
  apply BitVec.eq_of_getLsbD_eq
  intro i hi
  interval_cases i <;> simp [fieldOp, immWord]
@[simp] theorem fieldA_immWord : fieldA (immWord op a b imm) = a := by
  apply BitVec.eq_of_getLsbD_eq
  intro i hi
  interval_cases i <;> simp [fieldA, immWord]
@[simp] theorem fieldB_immWord : fieldB (immWord op a b imm) = b := by
  apply BitVec.eq_of_getLsbD_eq
  intro i hi
  interval_cases i <;> simp [fieldB, immWord]
@[simp] theorem fieldImm_immWord : fieldImm (immWord op a b imm) = imm := by
  apply BitVec.eq_of_getLsbD_eq
  intro i hi
  interval_cases i <;> simp [fieldImm, immWord]
@[simp] theorem fieldLsb_immWord : fieldLsb (immWord op a b imm) = imm.extractLsb' 6 6 := by
  apply BitVec.eq_of_getLsbD_eq
  intro i hi
  interval_cases i <;> simp [fieldLsb, immWord]
@[simp] theorem fieldWm1_immWord : fieldWm1 (immWord op a b imm) = imm.extractLsb' 0 6 := by
  apply BitVec.eq_of_getLsbD_eq
  intro i hi
  interval_cases i <;> simp [fieldWm1, immWord]

end

/-! ## Operand codes -/
@[simp] theorem regOf_regBits (r : Reg) : regOf (regBits r) = r := by revert r; decide
@[simp] theorem regBits_regOf (f : BitVec 4) : regBits (regOf f) = f := by revert f; decide
@[simp] theorem pairOf_pairBits (p : Pair) : pairOf (pairBits p) = .ok p := by revert p; decide
@[simp] theorem regionOf_regionBits (g : Region) : regionOf (regionBits g) = .ok g := by cases g <;> rfl
@[simp] theorem bankOf_bankBits (b : Bank) : bankOf (bankBits b) = .ok b := by revert b; decide
@[simp] theorem slotOf_slotBits (k : Slot) : slotOf (slotBits k) = .ok k := by revert k; decide
theorem pairBits_of_pairOf {f : BitVec 4} {p : Pair} (h : pairOf f = .ok p) : pairBits p = f := by revert f p; decide
theorem regionBits_of_regionOf {f : BitVec 4} {g : Region} (h : regionOf f = .ok g) : regionBits g = f := by
  cases g <;> revert f <;> decide
theorem bankBits_of_bankOf {f : BitVec 4} {b : Bank} (h : bankOf f = .ok b) : bankBits b = f := by revert f b; decide
theorem slotBits_of_slotOf {f : BitVec 4} {k : Slot} (h : slotOf f = .ok k) : slotBits k = f := by revert f k; decide
@[simp] theorem posBits_toFin (f : BitVec 6) : posBits f.toFin = f := by revert f; decide
@[simp] theorem toFin_posBits (p : BitPos) : (posBits p).toFin = p := by revert p; decide
/-- The codes widened to a command word: the numbers themselves. -/
@[simp] theorem setWidth_regBits (r : Reg) : (regBits r).setWidth 32 = BitVec.ofNat 32 r.val := by revert r; decide
@[simp] theorem setWidth_pairBits (p : Pair) : (pairBits p).setWidth 32 = BitVec.ofNat 32 (2 * p.val) := by
  revert p; decide
@[simp] theorem setWidth_bankBits (b : Bank) : (bankBits b).setWidth 32 = BitVec.ofNat 32 b.val := by revert b; decide
@[simp] theorem setWidth_slotBits (k : Slot) : (slotBits k).setWidth 32 = BitVec.ofNat 32 k.val := by revert k; decide
@[simp] theorem setWidth_posBits (p : BitPos) : (posBits p).setWidth 32 = BitVec.ofNat 32 p.val := by revert p; decide
theorem setWidth_fieldImmBits (lsb wm1 : BitPos) :
    (fieldImmBits lsb wm1).setWidth 32 = BitVec.ofNat 32 lsb.val <<< 6 ||| BitVec.ofNat 32 wm1.val := by
  simp only [← setWidth_posBits, fieldImmBits]
  generalize posBits lsb = a
  generalize posBits wm1 = b
  apply BitVec.eq_of_getLsbD_eq
  intro i hi
  interval_cases i <;> simp
@[simp] theorem lsb_fieldImmBits (l m : BitPos) : (fieldImmBits l m).extractLsb' 6 6 = posBits l := by
  unfold fieldImmBits
  generalize posBits l = a; generalize posBits m = b
  apply BitVec.eq_of_getLsbD_eq
  intro i hi
  interval_cases i <;> simp
@[simp] theorem wm1_fieldImmBits (l m : BitPos) : (fieldImmBits l m).extractLsb' 0 6 = posBits m := by
  unfold fieldImmBits
  generalize posBits l = a; generalize posBits m = b
  apply BitVec.eq_of_getLsbD_eq
  intro i hi
  interval_cases i <;> simp

/-! ## The unused bits of a built word -/

theorem zeroBits_eq_ok {w : Cmd} {lo len : Nat} : zeroBits w lo len = .ok () ↔ w.extractLsb' lo len = 0 := by
  unfold zeroBits; split <;> simp_all

/-! ## What each operand check rejects, and with which name -/

theorem zeroBits_error {w : Cmd} {lo len : Nat} {e : DecodeError} (h : zeroBits w lo len = .error e) :
    e = .reservedBit := by
  unfold zeroBits at h; split at h <;> simp_all

theorem pairOf_error {f : BitVec 4} {e : DecodeError} (h : pairOf f = .error e) : e = .oddPair := by
  unfold pairOf at h; split at h <;> simp_all

theorem regionOf_error {f : BitVec 4} {e : DecodeError} (h : regionOf f = .error e) : e = .outOfRange := by
  unfold regionOf at h; split at h <;> simp_all

theorem bankOf_error {f : BitVec 4} {e : DecodeError} (h : bankOf f = .error e) : e = .outOfRange := by
  unfold bankOf at h; split at h <;> simp_all

theorem slotOf_error {f : BitVec 4} {e : DecodeError} (h : slotOf f = .error e) : e = .outOfRange := by
  unfold slotOf at h; split at h <;> simp_all

theorem pairOf_of_odd {f : BitVec 4} (h : f.toNat % 2 = 1) (p : Pair) : pairOf f ≠ .ok p := by simp [pairOf, h]

theorem regionOf_of_ge {f : BitVec 4} (h : 3 ≤ f.toNat) (g : Region) : regionOf f ≠ .ok g := by
  unfold regionOf; split <;> simp <;> omega

theorem bankOf_of_gt {f : BitVec 4} (h : 3 < f.toNat) (b : Bank) : bankOf f ≠ .ok b := by
  rw [bankOf, dif_neg (by omega)]; simp

theorem slotOf_of_gt {f : BitVec 4} (h : 8 < f.toNat) (k : Slot) : slotOf f ≠ .ok k := by
  rw [slotOf, dif_neg (by omega)]; simp

section
variable (op : BitVec 6) (a b c d e f : BitVec 4) (imm : BitVec 12)

@[simp] theorem zeroBits_Z : zeroBits (fieldsWord op 0#4 0#4 0#4 0#4 0#4 0#4) 0 26 = .ok () := by revert op; decide
@[simp] theorem zeroBits_R6 : zeroBits (fieldsWord op a b c d e f) 0 2 = .ok () := by
  rw [zeroBits_eq_ok]; apply BitVec.eq_of_getLsbD_eq; intro i hi
  interval_cases i <;> simp [fieldsWord]
@[simp] theorem zeroBits_R4 : zeroBits (fieldsWord op a b c d 0#4 0#4) 0 10 = .ok () := by
  rw [zeroBits_eq_ok]; apply BitVec.eq_of_getLsbD_eq; intro i hi
  interval_cases i <;> simp [fieldsWord]
@[simp] theorem zeroBits_R3 : zeroBits (fieldsWord op a b c 0#4 0#4 0#4) 0 14 = .ok () := by
  rw [zeroBits_eq_ok]; apply BitVec.eq_of_getLsbD_eq; intro i hi
  interval_cases i <;> simp [fieldsWord]
@[simp] theorem zeroBits_R2 : zeroBits (fieldsWord op a b 0#4 0#4 0#4 0#4) 0 18 = .ok () := by
  rw [zeroBits_eq_ok]; apply BitVec.eq_of_getLsbD_eq; intro i hi
  interval_cases i <;> simp [fieldsWord]
@[simp] theorem zeroBits_R1 : zeroBits (fieldsWord op a 0#4 0#4 0#4 0#4 0#4) 0 22 = .ok () := by
  rw [zeroBits_eq_ok]; apply BitVec.eq_of_getLsbD_eq; intro i hi
  interval_cases i <;> simp [fieldsWord]
@[simp] theorem zeroBits_M : zeroBits (fieldsWord op a 0#4 c d e f) 18 4 = .ok () := by
  rw [zeroBits_eq_ok]; apply BitVec.eq_of_getLsbD_eq; intro i hi
  interval_cases i <;> simp [fieldsWord]
@[simp] theorem zeroBits_I : zeroBits (immWord op a b imm) 12 6 = .ok () := by
  rw [zeroBits_eq_ok]; apply BitVec.eq_of_getLsbD_eq; intro i hi
  interval_cases i <;> simp [immWord]
end


/-! ## The word rebuilt from its fields -/

/-- A part of a range that is all zeros is all zeros. -/
theorem extract_eq_zero {w : Cmd} {lo len lo' len' : Nat} (h : w.extractLsb' lo len = 0) (h1 : lo ≤ lo')
    (h2 : lo' + len' ≤ lo + len) : w.extractLsb' lo' len' = 0 := by
  apply BitVec.eq_of_getLsbD_eq
  intro i hi
  have := congrArg (fun v => v.getLsbD (lo' - lo + i)) h
  have h3 : lo + (lo' - lo + i) = lo' + i := by omega
  have h4 : lo' - lo + i < len := by omega
  simpa [h3, h4, hi] using this

theorem word_of_R6 {w : Cmd} (h : w.extractLsb' 0 2 = 0) :
    fieldsWord (fieldOp w) (fieldA w) (fieldB w) (fieldC w) (fieldD w) (fieldE w) (fieldF w) = w := by
  have h0 := congrArg (fun v => v.getLsbD 0) h
  have h1 := congrArg (fun v => v.getLsbD 1) h
  simp only [BitVec.getLsbD_extractLsb'] at h0 h1
  apply BitVec.eq_of_getLsbD_eq
  intro i hi
  interval_cases i <;> simp_all [fieldsWord, fieldOp, fieldA, fieldB, fieldC, fieldD, fieldE, fieldF]

theorem word_of_R4 {w : Cmd} (h : w.extractLsb' 0 10 = 0) :
    fieldsWord (fieldOp w) (fieldA w) (fieldB w) (fieldC w) (fieldD w) 0 0 = w := by
  have e : fieldE w = 0 := extract_eq_zero h (by omega) (by omega)
  have f : fieldF w = 0 := extract_eq_zero h (by omega) (by omega)
  have := word_of_R6 (extract_eq_zero h (by omega) (by omega))
  rwa [e, f] at this

theorem word_of_R3 {w : Cmd} (h : w.extractLsb' 0 14 = 0) :
    fieldsWord (fieldOp w) (fieldA w) (fieldB w) (fieldC w) 0 0 0 = w := by
  have d : fieldD w = 0 := extract_eq_zero h (by omega) (by omega)
  have := word_of_R4 (extract_eq_zero h (by omega) (by omega))
  rwa [d] at this

theorem word_of_R2 {w : Cmd} (h : w.extractLsb' 0 18 = 0) :
    fieldsWord (fieldOp w) (fieldA w) (fieldB w) 0 0 0 0 = w := by
  have c : fieldC w = 0 := extract_eq_zero h (by omega) (by omega)
  have := word_of_R3 (extract_eq_zero h (by omega) (by omega))
  rwa [c] at this

theorem word_of_R1 {w : Cmd} (h : w.extractLsb' 0 22 = 0) : fieldsWord (fieldOp w) (fieldA w) 0 0 0 0 0 = w := by
  have b : fieldB w = 0 := extract_eq_zero h (by omega) (by omega)
  have := word_of_R2 (extract_eq_zero h (by omega) (by omega))
  rwa [b] at this

theorem word_of_Z {w : Cmd} (h : w.extractLsb' 0 26 = 0) : fieldsWord (fieldOp w) 0 0 0 0 0 0 = w := by
  have a : fieldA w = 0 := extract_eq_zero h (by omega) (by omega)
  have := word_of_R1 (extract_eq_zero h (by omega) (by omega))
  rwa [a] at this

/-- Format M with `B` zero (CWR). -/
theorem word_of_M {w : Cmd} (h : w.extractLsb' 0 10 = 0) (h' : w.extractLsb' 18 4 = 0) :
    fieldsWord (fieldOp w) (fieldA w) 0 (fieldC w) (fieldD w) 0 0 = w := by
  have b : fieldB w = 0 := h'
  have := word_of_R4 h
  rwa [b] at this

theorem word_of_I {w : Cmd} (h : w.extractLsb' 12 6 = 0) :
    immWord (fieldOp w) (fieldA w) (fieldB w) (fieldImm w) = w := by
  have hb : ∀ j : Nat, (hj : j < 6) → w[12 + j] = false := fun j hj => by
    have := congrArg (fun v => v.getLsbD j) h
    simpa [hj, BitVec.getLsbD_eq_getElem (show 12 + j < 32 by omega)] using this
  have h0 := hb 0 (by omega)
  have h1 := hb 1 (by omega)
  have h2 := hb 2 (by omega)
  have h3 := hb 3 (by omega)
  have h4 := hb 4 (by omega)
  have h5 := hb 5 (by omega)
  simp only [Nat.reduceAdd] at h0 h1 h2 h3 h4 h5
  apply BitVec.eq_of_getLsbD_eq
  intro i hi
  interval_cases i <;> simp [immWord, fieldOp, fieldA, fieldB, fieldImm, h0, h1, h2, h3, h4, h5]

/-- The immediate of a bit-field command rebuilt from its two parts. -/
theorem fieldImmBits_of_fields (w : Cmd) : fieldImmBits (fieldLsb w).toFin (fieldWm1 w).toFin = fieldImm w := by
  rw [fieldImmBits, posBits_toFin, posBits_toFin]
  apply BitVec.eq_of_getLsbD_eq
  intro i hi
  interval_cases i <;> simp [fieldLsb, fieldWm1, fieldImm]

/-! ## A built word under a mask -/

theorem fieldsWord_and_mask (op : BitVec 6) (a b c d e f : BitVec 4) (m : Cmd) :
    fieldsWord op a b c d e f &&& m = fieldsWord (op &&& fieldOp m) (a &&& fieldA m) (b &&& fieldB m) (c &&& fieldC m)
      (d &&& fieldD m) (e &&& fieldE m) (f &&& fieldF m) := by
  apply BitVec.eq_of_getLsbD_eq
  intro i hi
  interval_cases i <;> simp [fieldsWord, fieldOp, fieldA, fieldB, fieldC, fieldD, fieldE, fieldF]

theorem immWord_and_mask (op : BitVec 6) (a b : BitVec 4) (imm : BitVec 12) (m : Cmd) :
    immWord op a b imm &&& m = immWord (op &&& fieldOp m) (a &&& fieldA m) (b &&& fieldB m) (imm &&& fieldImm m) := by
  apply BitVec.eq_of_getLsbD_eq
  intro i hi
  interval_cases i <;> simp [immWord, fieldOp, fieldA, fieldB, fieldImm]

/-- The codes that a mask of 30_encoding.md R63 fixes: an even pair number, a region or bank below 4. -/
@[simp] theorem pairBits_and_one (p : Pair) : pairBits p &&& 1#4 = 0#4 := by revert p; decide
@[simp] theorem regionBits_and_12 (g : Region) : regionBits g &&& 12#4 = 0#4 := by cases g <;> rfl
@[simp] theorem bankBits_and_12 (b : Bank) : bankBits b &&& 12#4 = 0#4 := by revert b; decide

/-- Where a mask has ones, a word under it reads as the match. -/
theorem extract_of_mask {w m f : Cmd} (lo len : Nat) (h : w &&& m = f) (hm : ∀ j < len, m.getLsbD (lo + j) = true) :
    w.extractLsb' lo len = f.extractLsb' lo len := by
  apply BitVec.eq_of_getLsbD_eq
  intro j hj
  have := congrArg (fun v => v.getLsbD (lo + j)) h
  simp [hj, hm j hj] at this ⊢
  simp [this]

/-! ## Each format: exactly when it decodes, and to what -/

section
variable {w : Cmd} {i : Instr}

theorem decodeZ_ok {j : Instr} : decodeZ w j = .ok i ↔ w.extractLsb' 0 26 = 0 ∧ j = i := by
  simp only [← zeroBits_eq_ok, decodeZ, bind, Except.bind, pure, Except.pure]
  cases zeroBits w 0 26 <;> simp

theorem decodeR1_ok {mk : Reg → Instr} :
    decodeR1 w mk = .ok i ↔ w.extractLsb' 0 22 = 0 ∧ mk (regOf (fieldA w)) = i := by
  simp only [← zeroBits_eq_ok, decodeR1, bind, Except.bind, pure, Except.pure]
  cases zeroBits w 0 22 <;> simp

theorem decodeR2_ok {mk : Reg → Reg → Instr} :
    decodeR2 w mk = .ok i ↔ w.extractLsb' 0 18 = 0 ∧ mk (regOf (fieldA w)) (regOf (fieldB w)) = i := by
  simp only [← zeroBits_eq_ok, decodeR2, bind, Except.bind, pure, Except.pure]
  cases zeroBits w 0 18 <;> simp

theorem decodeR3_ok {mk : Reg → Reg → Reg → Instr} :
    decodeR3 w mk = .ok i ↔
      w.extractLsb' 0 14 = 0 ∧ mk (regOf (fieldA w)) (regOf (fieldB w)) (regOf (fieldC w)) = i := by
  simp only [← zeroBits_eq_ok, decodeR3, bind, Except.bind, pure, Except.pure]
  cases zeroBits w 0 14 <;> simp

theorem decodeR3P_ok {mk : Pair → Reg → Reg → Instr} :
    decodeR3P w mk = .ok i ↔
      w.extractLsb' 0 14 = 0 ∧ ∃ pd, pairOf (fieldA w) = .ok pd ∧ mk pd (regOf (fieldB w)) (regOf (fieldC w)) = i := by
  simp only [← zeroBits_eq_ok, decodeR3P, bind, Except.bind, pure, Except.pure]
  cases zeroBits w 0 14 <;> cases pairOf (fieldA w) <;> simp

theorem decodeR3PP_ok {mk : Pair → Pair → Reg → Instr} :
    decodeR3PP w mk = .ok i ↔
      w.extractLsb' 0 14 = 0 ∧ ∃ pd pa, pairOf (fieldA w) = .ok pd ∧ pairOf (fieldB w) = .ok pa ∧
        mk pd pa (regOf (fieldC w)) = i := by
  simp only [← zeroBits_eq_ok, decodeR3PP, bind, Except.bind, pure, Except.pure]
  cases zeroBits w 0 14 <;> cases pairOf (fieldA w) <;> cases pairOf (fieldB w) <;> simp

theorem decodeR3PPP_ok {mk : Pair → Pair → Pair → Instr} :
    decodeR3PPP w mk = .ok i ↔
      w.extractLsb' 0 14 = 0 ∧ ∃ pd pa pb, pairOf (fieldA w) = .ok pd ∧ pairOf (fieldB w) = .ok pa ∧
        pairOf (fieldC w) = .ok pb ∧ mk pd pa pb = i := by
  simp only [← zeroBits_eq_ok, decodeR3PPP, bind, Except.bind, pure, Except.pure]
  cases zeroBits w 0 14 <;> cases pairOf (fieldA w) <;> cases pairOf (fieldB w) <;> cases pairOf (fieldC w) <;> simp

theorem decodeR4_ok {mk : Reg → Reg → Reg → Reg → Instr} :
    decodeR4 w mk = .ok i ↔ w.extractLsb' 0 10 = 0 ∧
      mk (regOf (fieldA w)) (regOf (fieldB w)) (regOf (fieldC w)) (regOf (fieldD w)) = i := by
  simp only [← zeroBits_eq_ok, decodeR4, bind, Except.bind, pure, Except.pure]
  cases zeroBits w 0 10 <;> simp

theorem decodeR6_ok {mk : Reg → Reg → Reg → Reg → Reg → Reg → Instr} :
    decodeR6 w mk = .ok i ↔ w.extractLsb' 0 2 = 0 ∧
      mk (regOf (fieldA w)) (regOf (fieldB w)) (regOf (fieldC w)) (regOf (fieldD w)) (regOf (fieldE w))
        (regOf (fieldF w)) = i := by
  simp only [← zeroBits_eq_ok, decodeR6, bind, Except.bind, pure, Except.pure]
  cases zeroBits w 0 2 <;> simp

theorem decodeIField_ok {mk : Reg → Reg → BitPos → BitPos → Instr} :
    decodeIField w mk = .ok i ↔ w.extractLsb' 12 6 = 0 ∧ fieldFits (fieldLsb w).toFin (fieldWm1 w).toFin ∧
      mk (regOf (fieldA w)) (regOf (fieldB w)) (fieldLsb w).toFin (fieldWm1 w).toFin = i := by
  simp only [← zeroBits_eq_ok, decodeIField, bind, Except.bind, pure, Except.pure]
  cases zeroBits w 12 6
  · simp
  · simp only [true_and]
    split <;> simp_all [throw, throwThe, MonadExceptOf.throw]

theorem decodeIMask_ok {mk : Reg → Reg → BitVec 12 → Instr} :
    decodeIMask w mk = .ok i ↔
      w.extractLsb' 12 6 = 0 ∧ mk (regOf (fieldA w)) (regOf (fieldB w)) (fieldImm w) = i := by
  simp only [← zeroBits_eq_ok, decodeIMask, bind, Except.bind, pure, Except.pure]
  cases zeroBits w 12 6 <;> simp

theorem decodeMTab_ok {mk : Pair → Reg → Region → Instr} :
    decodeMTab w mk = .ok i ↔ w.extractLsb' 0 14 = 0 ∧ ∃ p g, pairOf (fieldA w) = .ok p ∧
      regionOf (fieldC w) = .ok g ∧ mk p (regOf (fieldB w)) g = i := by
  simp only [← zeroBits_eq_ok, decodeMTab, bind, Except.bind, pure, Except.pure]
  cases zeroBits w 0 14 <;> cases pairOf (fieldA w) <;> cases regionOf (fieldC w) <;> simp

theorem decodeMCoef_ok {mk : Reg → Bank → Slot → Instr} :
    decodeMCoef w mk = .ok i ↔ w.extractLsb' 0 10 = 0 ∧ w.extractLsb' 18 4 = 0 ∧ ∃ b k,
      bankOf (fieldC w) = .ok b ∧ slotOf (fieldD w) = .ok k ∧ mk (regOf (fieldA w)) b k = i := by
  simp only [← zeroBits_eq_ok, decodeMCoef, bind, Except.bind, pure, Except.pure]
  cases zeroBits w 0 10 <;> cases zeroBits w 18 4 <;> cases bankOf (fieldC w) <;> cases slotOf (fieldD w) <;> simp

theorem decodeMPoly_ok {mk : Reg → Reg → Bank → Slot → Instr} :
    decodeMPoly w mk = .ok i ↔ w.extractLsb' 0 10 = 0 ∧ ∃ b n,
      bankOf (fieldC w) = .ok b ∧ slotOf (fieldD w) = .ok n ∧ mk (regOf (fieldA w)) (regOf (fieldB w)) b n = i := by
  simp only [← zeroBits_eq_ok, decodeMPoly, bind, Except.bind, pure, Except.pure]
  cases zeroBits w 0 10 <;> cases bankOf (fieldC w) <;> cases slotOf (fieldD w) <;> simp

end

end Sys2Proof
end

