-- ==== Sys2Proof/Laws/Memory.lean ====
section
/-! SUPPORT. The laws of the memory operations: a read after a write, and that every write keeps the canonical form. -/

namespace Sys2Proof.Machine

variable {α : Type}

/-- A cell written reads as the content written. -/
theorem cellRead_cellWrite_self (m : List (Nat × α)) (k : Nat) (v : α) : cellRead (cellWrite m k v) k = some v := by
  induction m with
  | nil => simp [cellWrite, cellRead]
  | cons c rest ih =>
    obtain ⟨a, u⟩ := c
    by_cases h : k < a
    · simp [cellWrite, cellRead, h]
    · by_cases h' : a = k
      · simp [cellWrite, cellRead, h']
      · simp [cellWrite, cellRead, h, h', ih]

/-- A write leaves every other cell alone. -/
theorem cellRead_cellWrite_ne (m : List (Nat × α)) {k k' : Nat} (v : α) (h : k' ≠ k) :
    cellRead (cellWrite m k v) k' = cellRead m k' := by
  induction m with
  | nil => simp [cellWrite, cellRead, h.symm]
  | cons c rest ih =>
    obtain ⟨a, u⟩ := c
    by_cases h1 : k < a
    · simp [cellWrite, cellRead, h1, h.symm]
    · by_cases h2 : a = k
      · subst h2; simp [cellWrite, cellRead, h.symm]
      · simp [cellWrite, cellRead, h1, h2, ih]

/-- A written memory's keys are the old keys and the key written. -/
theorem mem_keys_cellWrite (m : List (Nat × α)) (k : Nat) (v : α) (j : Nat) :
    j ∈ (cellWrite m k v).map Prod.fst ↔ j = k ∨ j ∈ m.map Prod.fst := by
  induction m with
  | nil => simp [cellWrite]
  | cons c rest ih =>
    obtain ⟨a, u⟩ := c
    by_cases h1 : k < a
    · simp [cellWrite, h1]
    · by_cases h2 : a = k
      · subst h2; simp [cellWrite]
      · rw [cellWrite, if_neg h1, if_neg h2, List.map_cons, List.mem_cons, ih, List.map_cons, List.mem_cons]
        tauto

/-- A write at a key below the size keeps the canonical form. -/
theorem CellsWf_cellWrite {size : Nat} {m : List (Nat × α)} {k : Nat} (v : α) (hm : CellsWf size m) (hk : k < size) :
    CellsWf size (cellWrite m k v) := by
  refine ⟨?_, fun j hj => ?_⟩
  · obtain ⟨hs, -⟩ := hm
    induction m with
    | nil => simp [cellWrite]
    | cons c rest ih =>
      obtain ⟨a, u⟩ := c
      rw [List.map_cons, List.pairwise_cons] at hs
      by_cases h1 : k < a
      · rw [cellWrite, if_pos h1, List.map_cons, List.map_cons, List.pairwise_cons, List.pairwise_cons]
        refine ⟨fun j hj => ?_, hs.1, hs.2⟩
        rcases List.mem_cons.mp hj with rfl | hj
        · exact h1
        · exact h1.trans (hs.1 j hj)
      · by_cases h2 : a = k
        · subst h2
          rw [cellWrite, if_neg h1, if_pos rfl, List.map_cons, List.pairwise_cons]
          exact hs
        · rw [cellWrite, if_neg h1, if_neg h2, List.map_cons, List.pairwise_cons]
          refine ⟨fun j hj => ?_, ih hs.2⟩
          rcases (mem_keys_cellWrite rest k v j).mp hj with rfl | hj
          · show a < _
            omega
          · exact hs.1 j hj
  · rcases (mem_keys_cellWrite m k v j).mp hj with rfl | hj
    · exact hk
    · exact hm.2 j hj

/-! ## TAB -/

/-- An entry written reads as the pair written. -/
@[simp] theorem tabRead_tabWrite_self (m : Memory) (g : Region) (k : Nat) (d : DoubleDouble) :
    tabRead (tabWrite m g k d) g k = some d := by
  cases g <;> exact cellRead_cellWrite_self _ k d

/-- A table write leaves every other entry alone. -/
theorem tabRead_tabWrite_ne (m : Memory) {g g' : Region} {k k' : Nat} (d : DoubleDouble) (h : (g', k') ≠ (g, k)) :
    tabRead (tabWrite m g k d) g' k' = tabRead m g' k' := by
  by_cases hg : g' = g
  · subst hg
    have hk : k' ≠ k := fun e => h (by rw [e])
    cases g' <;> exact cellRead_cellWrite_ne _ d hk
  · cases g <;> cases g' <;> first | rfl | exact absurd rfl hg

/-- A table write leaves the coefficients alone. -/
@[simp] theorem coefRead_tabWrite (m : Memory) (g : Region) (k : Nat) (d : DoubleDouble) (b : Bank) (j : Slot) :
    coefRead (tabWrite m g k d) b j = coefRead m b j := by
  cases g <;> rfl

/-- A table write inside the region keeps the canonical form. -/
theorem Memory.wf_tabWrite {m : Memory} {g : Region} {k : Nat} (d : DoubleDouble) (hm : m.wf) (hk : k < regionSize g) :
    (tabWrite m g k d).wf := by
  obtain ⟨he, hl, hp, hc⟩ := hm
  cases g
  · exact ⟨CellsWf_cellWrite d he hk, hl, hp, hc⟩
  · exact ⟨he, CellsWf_cellWrite d hl hk, hp, hc⟩
  · exact ⟨he, hl, CellsWf_cellWrite d hp hk, hc⟩

/-! ## COEF -/

/-- Every slot of every bank has its own key, below the size. -/
theorem coefKey_lt (b : Bank) (k : Slot) : coefKey b k < coefSize := by
  unfold coefKey coefSize
  omega

theorem coefKey_injective {b b' : Bank} {k k' : Slot} (h : coefKey b k = coefKey b' k') : b = b' ∧ k = k' := by
  unfold coefKey at h
  constructor <;> apply Fin.ext <;> omega

/-- A coefficient written reads as the word written. -/
@[simp] theorem coefRead_coefWrite_self (m : Memory) (b : Bank) (k : Slot) (w : Word) :
    coefRead (coefWrite m b k w) b k = some w := cellRead_cellWrite_self _ _ w

/-- A coefficient write leaves every other slot alone. -/
theorem coefRead_coefWrite_ne (m : Memory) {b b' : Bank} {k k' : Slot} (w : Word) (h : (b', k') ≠ (b, k)) :
    coefRead (coefWrite m b k w) b' k' = coefRead m b' k' :=
  cellRead_cellWrite_ne _ w fun e => h (by rw [(coefKey_injective e).1, (coefKey_injective e).2])

/-- A coefficient write leaves the tables alone. -/
@[simp] theorem tabRead_coefWrite (m : Memory) (b : Bank) (k : Slot) (w : Word) (g : Region) (j : Nat) :
    tabRead (coefWrite m b k w) g j = tabRead m g j := by
  cases g <;> rfl

/-- A coefficient write keeps the canonical form. -/
theorem Memory.wf_coefWrite {m : Memory} (b : Bank) (k : Slot) (w : Word) (hm : m.wf) : (coefWrite m b k w).wf := by
  obtain ⟨he, hl, hp, hc⟩ := hm
  exact ⟨he, hl, hp, CellsWf_cellWrite w hc (coefKey_lt b k)⟩

/-- The memories after reset are in canonical form. -/
theorem Memory.wf_empty : Memory.empty.wf := by
  unfold Memory.wf
  simp [Memory.empty, CellsWf]

/-- Nothing is written after reset. -/
@[simp] theorem tabRead_empty (g : Region) (k : Nat) : tabRead .empty g k = none := by cases g <;> rfl
@[simp] theorem coefRead_empty (b : Bank) (k : Slot) : coefRead .empty b k = none := rfl

end Sys2Proof.Machine
end

