-- ==== Sys2Proof/Laws/State.lean ====
section
/-! SUPPORT. One lemma per field per update of the state, each true by unfolding, so that no later proof unfolds a record
update; and what a register reads after a register write. -/

namespace Sys2Proof.Machine

/-! ## writeReg -/

@[simp] theorem writeReg_status (s : State) (r : Reg) (w : Word) : (writeReg s r w).status = s.status := rfl
@[simp] theorem writeReg_mem (s : State) (r : Reg) (w : Word) : (writeReg s r w).mem = s.mem := rfl
@[simp] theorem writeReg_cmd (s : State) (r : Reg) (w : Word) : (writeReg s r w).cmd = s.cmd := rfl
@[simp] theorem writeReg_wdata (s : State) (r : Reg) (w : Word) : (writeReg s r w).wdata = s.wdata := rfl
@[simp] theorem writeReg_answer (s : State) (r : Reg) (w : Word) : (writeReg s r w).answer = s.answer := rfl
@[simp] theorem writeReg_host (s : State) (r : Reg) (w : Word) : (writeReg s r w).host = s.host := rfl

/-- A register written reads as the word written. -/
@[simp] theorem readReg_writeReg_self (s : State) (r : Reg) (w : Word) : readReg (writeReg s r w) r = some w := by
  simp [readReg, writeReg]

/-- A write leaves every other register alone. -/
theorem readReg_writeReg_ne (s : State) {r r' : Reg} (w : Word) (h : r' ≠ r) :
    readReg (writeReg s r w) r' = readReg s r' := by
  have h' : (r : Nat) ≠ r' := fun e => h (Fin.ext e.symm)
  simp [readReg, writeReg, h']

/-- What a register reads after a write, in one equation. -/
theorem readReg_writeReg (s : State) (r r' : Reg) (w : Word) :
    readReg (writeReg s r w) r' = if r' = r then some w else readReg s r' := by
  split
  · subst r'; simp
  · exact readReg_writeReg_ne s w ‹_›

/-! ## writePair -/

@[simp] theorem writePair_status (s : State) (p : Pair) (d : DoubleDouble) : (writePair s p d).status = s.status := rfl
@[simp] theorem writePair_mem (s : State) (p : Pair) (d : DoubleDouble) : (writePair s p d).mem = s.mem := rfl
@[simp] theorem writePair_cmd (s : State) (p : Pair) (d : DoubleDouble) : (writePair s p d).cmd = s.cmd := rfl
@[simp] theorem writePair_wdata (s : State) (p : Pair) (d : DoubleDouble) : (writePair s p d).wdata = s.wdata := rfl
@[simp] theorem writePair_answer (s : State) (p : Pair) (d : DoubleDouble) : (writePair s p d).answer = s.answer := rfl
@[simp] theorem writePair_host (s : State) (p : Pair) (d : DoubleDouble) : (writePair s p d).host = s.host := rfl

/-- The two registers of a pair are different. -/
theorem pairHi_ne_pairLo (p : Pair) : pairHi p ≠ pairLo p := by
  intro h
  have := congrArg Fin.val h
  simp only [pairHi, pairLo] at this
  omega

/-- The first register of a written pair reads as `hi`. -/
@[simp] theorem readReg_writePair_hi (s : State) (p : Pair) (d : DoubleDouble) :
    readReg (writePair s p d) (pairHi p) = some d.hi := by
  rw [writePair, readReg_writeReg_ne _ _ (pairHi_ne_pairLo p), readReg_writeReg_self]

/-- The second register of a written pair reads as `lo`. -/
@[simp] theorem readReg_writePair_lo (s : State) (p : Pair) (d : DoubleDouble) :
    readReg (writePair s p d) (pairLo p) = some d.lo := by
  rw [writePair, readReg_writeReg_self]

/-- A pair write leaves every other register alone. -/
theorem readReg_writePair_ne (s : State) {p : Pair} {r : Reg} (d : DoubleDouble) (hh : r ≠ pairHi p) (hl : r ≠ pairLo p) :
    readReg (writePair s p d) r = readReg s r := by
  rw [writePair, readReg_writeReg_ne _ _ hl, readReg_writeReg_ne _ _ hh]

/-! ## answered -/

@[simp] theorem answered_regs (s : State) (a : AnswerStatus) (w : Word) : (answered s a w).regs = s.regs := rfl
@[simp] theorem answered_status (s : State) (a : AnswerStatus) (w : Word) : (answered s a w).status = s.status := rfl
@[simp] theorem answered_mem (s : State) (a : AnswerStatus) (w : Word) : (answered s a w).mem = s.mem := rfl
@[simp] theorem answered_cmd (s : State) (a : AnswerStatus) (w : Word) : (answered s a w).cmd = s.cmd := rfl
@[simp] theorem answered_wdata (s : State) (a : AnswerStatus) (w : Word) : (answered s a w).wdata = s.wdata := rfl
@[simp] theorem answered_answer (s : State) (a : AnswerStatus) (w : Word) : (answered s a w).answer = some ⟨a, w⟩ := rfl
@[simp] theorem answered_host (s : State) (a : AnswerStatus) (w : Word) : (answered s a w).host = s.host := rfl
@[simp] theorem readReg_answered (s : State) (a : AnswerStatus) (w : Word) (r : Reg) :
    readReg (answered s a w) r = readReg s r := rfl

/-! ## faultState -/

@[simp] theorem faultState_regs (c : FaultCode) (s : State) : (faultState c s).regs = s.regs := rfl
@[simp] theorem faultState_phase (c : FaultCode) (s : State) : (faultState c s).status.phase = s.status.phase := rfl
@[simp] theorem faultState_fault (c : FaultCode) (s : State) : (faultState c s).status.fault = c := rfl
@[simp] theorem faultState_fcmd (c : FaultCode) (s : State) : (faultState c s).status.fcmd = s.cmd := rfl
@[simp] theorem faultState_mem (c : FaultCode) (s : State) : (faultState c s).mem = s.mem := rfl
@[simp] theorem faultState_cmd (c : FaultCode) (s : State) : (faultState c s).cmd = s.cmd := rfl
@[simp] theorem faultState_wdata (c : FaultCode) (s : State) : (faultState c s).wdata = s.wdata := rfl
@[simp] theorem faultState_answer (c : FaultCode) (s : State) : (faultState c s).answer = s.answer := rfl
@[simp] theorem faultState_host (c : FaultCode) (s : State) : (faultState c s).host = s.host := rfl
@[simp] theorem readReg_faultState (c : FaultCode) (s : State) (r : Reg) : readReg (faultState c s) r = readReg s r := rfl

/-! ## present and pushTransaction -/

@[simp] theorem present_regs (s : State) (w : Cmd) (d : Word) (l : List HostEvent) : (present s w d l).regs = s.regs := rfl
@[simp] theorem present_status (s : State) (w : Cmd) (d : Word) (l : List HostEvent) :
    (present s w d l).status = s.status := rfl
@[simp] theorem present_mem (s : State) (w : Cmd) (d : Word) (l : List HostEvent) : (present s w d l).mem = s.mem := rfl
@[simp] theorem present_cmd (s : State) (w : Cmd) (d : Word) (l : List HostEvent) : (present s w d l).cmd = w := rfl
@[simp] theorem present_wdata (s : State) (w : Cmd) (d : Word) (l : List HostEvent) : (present s w d l).wdata = d := rfl
@[simp] theorem present_answer (s : State) (w : Cmd) (d : Word) (l : List HostEvent) :
    (present s w d l).answer = s.answer := rfl
@[simp] theorem present_host (s : State) (w : Cmd) (d : Word) (l : List HostEvent) : (present s w d l).host = l := rfl
@[simp] theorem readReg_present (s : State) (w : Cmd) (d : Word) (l : List HostEvent) (r : Reg) :
    readReg (present s w d l) r = readReg s r := rfl
@[simp] theorem pushTransaction_host (s : State) (w : Cmd) (d : Word) :
    (pushTransaction s w d).host = .transaction w d :: s.host := rfl
@[simp] theorem fetch_pushTransaction (s : State) (w : Cmd) (d : Word) :
    fetch (pushTransaction s w d) = .command w (present s w d s.host) := rfl

end Sys2Proof.Machine
end

