-- ==== Sys2Proof/Laws/Ops.lean ====
section
/-! SUPPORT. For each shared operation of the machine, what it can do, said once: its value where its condition is known, and
every way it can answer a next state. -/

namespace Sys2Proof.Machine

variable {s t : State} {body : Result}

/-! ## Halting, phases -/

theorem command_of_halted (h : Halted s) (body : Result) : command s body = answerHalted s := if_pos h

theorem command_of_healthy (h : ¬ Halted s) (body : Result) : command s body = body := if_neg h

/-- A command is ignored with the answer HALTED, or executed. -/
theorem command_next (h : command s body = .next t) :
    (Halted s ∧ t = answered s .halted 0) ∨ (¬ Halted s ∧ body = .next t) := by
  by_cases hh : Halted s
  · rw [command_of_halted hh] at h
    exact .inl ⟨hh, (Host.Outcome.next.inj h).symm⟩
  · rw [command_of_healthy hh] at h
    exact .inr ⟨hh, h⟩

theorem inPhase_of_eq {p : Phase} (h : s.status.phase = p) (body : Result) : inPhase p s body = body := if_pos h

theorem inPhase_of_ne {p : Phase} (h : s.status.phase ≠ p) (body : Result) : inPhase p s body = raise .phase s := if_neg h

/-- A phase test raises PHASE or lets the command go on. -/
theorem inPhase_next {p : Phase} (h : inPhase p s body = .next t) :
    (s.status.phase ≠ p ∧ t = answered (faultState .phase s) .fault 0) ∨ (s.status.phase = p ∧ body = .next t) := by
  by_cases hp : s.status.phase = p
  · rw [inPhase_of_eq hp] at h
    exact .inr ⟨hp, h⟩
  · rw [inPhase_of_ne hp] at h
    exact .inl ⟨hp, (Host.Outcome.next.inj h).symm⟩

/-! ## Answers -/

theorem complete_next (h : complete s = .next t) : t = answered s .ok 0 := (Host.Outcome.next.inj h).symm

theorem answerData_next {w : Word} (h : answerData s w = .next t) : t = answered s .ok w := (Host.Outcome.next.inj h).symm

theorem raise_next {c : FaultCode} (h : raise c s = .next t) : t = answered (faultState c s) .fault 0 :=
  (Host.Outcome.next.inj h).symm

/-- A word that spells no command is ignored by a halted block and raises ILLEGAL otherwise. -/
theorem illegalWord_next (h : illegalWord s = .next t) :
    (Halted s ∧ t = answered s .halted 0) ∨ (¬ Halted s ∧ t = answered (faultState .illegal s) .fault 0) :=
  (command_next h).imp_right fun h' => ⟨h'.1, raise_next h'.2⟩

/-! ## Sources -/

theorem withReg_of_some {r : Reg} {w : Word} (h : readReg s r = some w) (body : Word → Result) :
    withReg s r body = body w := by
  simp [withReg, h]

theorem withReg_of_none {r : Reg} (h : readReg s r = none) (body : Word → Result) :
    withReg s r body = raise .unwritten s := by
  simp [withReg, h]

/-- A source register raises UNWRITTEN or gives its word. -/
theorem withReg_next {r : Reg} {body : Word → Result} (h : withReg s r body = .next t) :
    (readReg s r = none ∧ t = answered (faultState .unwritten s) .fault 0) ∨
      ∃ w, readReg s r = some w ∧ body w = .next t := by
  cases hr : readReg s r with
  | none => rw [withReg_of_none hr] at h; exact .inl ⟨rfl, raise_next h⟩
  | some w => rw [withReg_of_some hr] at h; exact .inr ⟨w, rfl, h⟩

theorem withPair_of_some {p : Pair} {x y : Word} (hh : readReg s (pairHi p) = some x) (hl : readReg s (pairLo p) = some y)
    (body : DoubleDouble → Result) : withPair s p body = body ⟨x, y⟩ := by
  rw [withPair, withReg_of_some hh, withReg_of_some hl]

/-- A source pair raises UNWRITTEN or gives both words. -/
theorem withPair_next {p : Pair} {body : DoubleDouble → Result} (h : withPair s p body = .next t) :
    ((readReg s (pairHi p) = none ∨ readReg s (pairLo p) = none) ∧
        t = answered (faultState .unwritten s) .fault 0) ∨
      ∃ d, readReg s (pairHi p) = some d.hi ∧ readReg s (pairLo p) = some d.lo ∧ body d = .next t := by
  rcases withReg_next h with ⟨hn, rfl⟩ | ⟨x, hx, h⟩
  · exact .inl ⟨.inl hn, rfl⟩
  · rcases withReg_next h with ⟨hn, rfl⟩ | ⟨y, hy, h⟩
    · exact .inl ⟨.inr hn, rfl⟩
    · exact .inr ⟨⟨x, y⟩, hx, hy, h⟩

/-! ## Table accesses -/

theorem withIndex_of_lt {g : Region} {k : Nat} (h : k < regionSize g) (body : Result) : withIndex s g k body = body :=
  if_pos h

theorem withIndex_of_le {g : Region} {k : Nat} (h : regionSize g ≤ k) (body : Result) :
    withIndex s g k body = raise .index s := if_neg (Nat.not_lt.mpr h)

/-- The index test raises INDEX or lets the command go on. -/
theorem withIndex_next {g : Region} {k : Nat} (h : withIndex s g k body = .next t) :
    (regionSize g ≤ k ∧ t = answered (faultState .index s) .fault 0) ∨ (k < regionSize g ∧ body = .next t) := by
  rcases Nat.lt_or_ge k (regionSize g) with hk | hk
  · rw [withIndex_of_lt hk] at h
    exact .inr ⟨hk, h⟩
  · rw [withIndex_of_le hk] at h
    exact .inl ⟨hk, raise_next h⟩

theorem withEntry_of_some {g : Region} {k : Nat} {d : DoubleDouble} (hk : k < regionSize g) (h : tabRead s.mem g k = some d)
    (body : DoubleDouble → Result) : withEntry s g k body = body d := by
  rw [withEntry, withIndex_of_lt hk, h]

theorem withEntry_of_none {g : Region} {k : Nat} (hk : k < regionSize g) (h : tabRead s.mem g k = none)
    (body : DoubleDouble → Result) : withEntry s g k body = raise .uninit s := by
  rw [withEntry, withIndex_of_lt hk, h]

/-- A table read raises INDEX, then UNINIT, or gives the entry. -/
theorem withEntry_next {g : Region} {k : Nat} {body : DoubleDouble → Result} (h : withEntry s g k body = .next t) :
    (regionSize g ≤ k ∧ t = answered (faultState .index s) .fault 0) ∨
      (k < regionSize g ∧ tabRead s.mem g k = none ∧ t = answered (faultState .uninit s) .fault 0) ∨
      ∃ d, k < regionSize g ∧ tabRead s.mem g k = some d ∧ body d = .next t := by
  rcases withIndex_next h with h | ⟨hk, h⟩
  · exact .inl h
  · cases hd : tabRead s.mem g k with
    | none => rw [hd] at h; exact .inr (.inl ⟨hk, rfl, raise_next h⟩)
    | some d => rw [hd] at h; exact .inr (.inr ⟨d, hk, rfl, h⟩)

/-! ## Coefficient reads -/

/-- `mapM` in Option gives a list exactly when every element gives its own. -/
theorem mapM_eq_some_iff {α β : Type} (f : α → Option β) (l : List α) (ys : List β) :
    l.mapM f = some ys ↔ List.Forall₂ (fun a b => f a = some b) l ys := by
  induction l generalizing ys with
  | nil => cases ys <;> simp
  | cons a l ih =>
    cases ys with
    | nil => cases ha : f a <;> cases hl : l.mapM f <;> simp [List.mapM_cons, ha, hl]
    | cons y ys =>
      rw [List.forall₂_cons, ← ih, List.mapM_cons]
      cases ha : f a <;> cases hl : l.mapM f <;> simp

/-- The slots 0 to `n`, as `readCoefs` lists them. -/
theorem coefSlots_spec (n : Slot) : ((List.finRange 9).filter (· ≤ n)).length = n.val + 1 ∧
    ∀ k : Slot, k ≤ n → ((List.finRange 9).filter (· ≤ n))[k.val]? = some k := by
  revert n
  decide

/-- Every listed slot is one of 0 to `n`. -/
theorem mem_coefSlots (n k : Slot) : k ∈ (List.finRange 9).filter (· ≤ n) ↔ k ≤ n := by
  simp [List.mem_finRange]

/-- The coefficients read are those of slots 0 to `n`, in order. -/
theorem readCoefs_some {m : Memory} {b : Bank} {n : Slot} {cs : List Word} (h : readCoefs m b n = some cs) :
    cs.length = n.val + 1 ∧ ∀ k : Slot, k ≤ n → coefRead m b k = cs[k.val]? := by
  have h' := (mapM_eq_some_iff _ _ _).mp h
  obtain ⟨hlen, hget⟩ := coefSlots_spec n
  refine ⟨h'.length_eq ▸ hlen, fun k hk => ?_⟩
  have hkl : k.val < n.val + 1 := Nat.lt_succ_of_le hk
  have h1 : k.val < ((List.finRange 9).filter (· ≤ n)).length := hlen ▸ hkl
  have h2 : k.val < cs.length := h'.length_eq ▸ h1
  have h3 := h'.get h1 h2
  have h4 : ((List.finRange 9).filter (· ≤ n)).get ⟨k.val, h1⟩ = k := by
    have := hget k hk
    rw [List.getElem?_eq_getElem h1] at this
    exact Option.some.inj this
  rw [h4] at h3
  rw [h3, List.getElem?_eq_getElem h2, List.get_eq_getElem]

/-- The coefficients cannot be read exactly when one of slots 0 to `n` is unwritten. -/
theorem readCoefs_none {m : Memory} {b : Bank} {n : Slot} :
    readCoefs m b n = none ↔ ∃ k : Slot, k ≤ n ∧ coefRead m b k = none := by
  constructor
  · intro h
    by_contra hc
    have hall : ∀ k : Slot, k ≤ n → ∃ w, coefRead m b k = some w := by
      intro k hk
      cases hr : coefRead m b k with
      | none => exact absurd ⟨k, hk, hr⟩ hc
      | some w => exact ⟨w, rfl⟩
    have : ∀ l : List Slot, (∀ k ∈ l, k ≤ n) → ∃ ys, l.mapM (coefRead m b) = some ys := by
      intro l hl
      induction l with
      | nil => exact ⟨[], rfl⟩
      | cons a l ih =>
        obtain ⟨w, hw⟩ := hall a (hl a List.mem_cons_self)
        obtain ⟨ys, hys⟩ := ih fun k hk => hl k (List.mem_cons_of_mem _ hk)
        exact ⟨w :: ys, by simp [List.mapM_cons, hw, hys]⟩
    obtain ⟨ys, hys⟩ := this _ fun k hk => (mem_coefSlots n k).mp hk
    rw [readCoefs, hys] at h
    cases h
  · rintro ⟨k, hk, hn⟩
    cases h : readCoefs m b n with
    | none => rfl
    | some cs =>
      obtain ⟨hlen, hget⟩ := readCoefs_some h
      have := hget k hk
      have hk' : k.val ≤ n.val := hk
      rw [hn, List.getElem?_eq_getElem (by omega)] at this
      cases this

theorem withCoefs_of_some {b : Bank} {n : Slot} {cs : List Word} (h : readCoefs s.mem b n = some cs)
    (body : List Word → Result) : withCoefs s b n body = body cs := by
  simp [withCoefs, h]

/-- A coefficient read raises UNINIT or gives the coefficients. -/
theorem withCoefs_next {b : Bank} {n : Slot} {body : List Word → Result} (h : withCoefs s b n body = .next t) :
    (readCoefs s.mem b n = none ∧ t = answered (faultState .uninit s) .fault 0) ∨
      ∃ cs, readCoefs s.mem b n = some cs ∧ body cs = .next t := by
  cases hc : readCoefs s.mem b n with
  | none => rw [withCoefs, hc] at h; exact .inl ⟨rfl, raise_next h⟩
  | some cs => rw [withCoefs, hc] at h; exact .inr ⟨cs, rfl, h⟩

/-! ## The step -/

/-- Every way a step can go: idle, reset, or a transaction. -/
theorem step_cases (s : State) :
    (s.host = [] ∧ step s = .next s) ∨
      (∃ rest, s.host = .reset :: rest ∧ step s = .next (applyReset rest)) ∨
      ∃ w data rest, s.host = .transaction w data :: rest ∧
        ((∃ i, decode w = .ok i ∧ step s = exec i (present s w data rest)) ∨
          ∃ e, decode w = .error e ∧ step s = illegalWord (present s w data rest)) := by
  cases hh : s.host with
  | nil => exact .inl ⟨rfl, by simp [step, fetch, hh]⟩
  | cons e rest =>
    cases e with
    | reset => exact .inr (.inl ⟨rest, rfl, by simp [step, fetch, hh]⟩)
    | transaction w data =>
      refine .inr (.inr ⟨w, data, rest, rfl, ?_⟩)
      cases hd : decode w with
      | ok i => exact .inl ⟨i, rfl, by simp [step, fetch, hh, hd]⟩
      | error e => exact .inr ⟨e, rfl, by simp [step, fetch, hh, hd]⟩

end Sys2Proof.Machine
end

