-- ==== Sys2Proof/Laws/Exec.lean ====
section
/-! SUPPORT. Everything a command can do, said once: `exec` always answers a next state, and that state is one of nine shapes.
The invariants, frames and lifecycles follow from it without unfolding a meaning. -/

namespace Sys2Proof.Machine

variable {s t : State}

/-- A word that spells no command raises ILLEGAL in whatever state a block that has not faulted is. -/
theorem raisesIllegal_of_noCommand {w : Cmd} (h : NoCommand w) : RaisesIllegal w := by
  obtain ⟨e, he⟩ := h
  intro s data rest hs hh
  simp only [FaultsWith, step, fetch, hs, he, illegalWord]
  exact command_of_healthy (s := present s w data rest) hh _

/-- A word that decodes to no command spells none. -/
theorem noCommand_of_ne {w : Cmd} (h : ∀ i, decode w ≠ .ok i) : NoCommand w := by
  cases hd : decode w with
  | ok i => exact absurd hd (h i)
  | error e => exact ⟨e, hd⟩

/-- The shapes of the state that a command `i` leaves in a state `s`. -/
inductive ExecShape (i : Instr) (s t : State) : Prop
  /-- the block was halted and ignored the command -/
  | halted (hh : Halted s) (hi : i ≠ .gets) (ht : t = answered s .halted 0)
  /-- the command raised a fault -/
  | faulted (hh : ¬ Halted s) (c : FaultCode) (hi : i.wellFormed = false ∧ c = .illegal ∨ canRaise i c = true)
      (ht : t = answered (faultState c s) .fault 0)
  | gets (hi : i = .gets) (ht : t = answered s .ok (statusWord s.status))
  | get (hh : ¬ Halted s) (rs : Reg) (w : Word) (hi : i = .get rs) (hr : readReg s rs = some w) (ht : t = answered s .ok w)
  | lock (hh : ¬ Halted s) (hi : i = .lock) (ht : t = answered { s with status := { s.status with phase := .run } } .ok 0)
  | twr (hh : ¬ Halted s) (pa : Pair) (ri : Reg) (g : Region) (k : Word) (d : DoubleDouble) (hi : i = .twr pa ri g)
      (hp : s.status.phase = .init) (hr : readReg s ri = some k) (hk : k.toNat < regionSize g)
      (ht : t = answered { s with mem := tabWrite s.mem g k.toNat d } .ok 0)
  | cwr (hh : ¬ Halted s) (ra : Reg) (b : Bank) (k : Slot) (w : Word) (hi : i = .cwr ra b k)
      (hp : s.status.phase = .init) (hr : readReg s ra = some w)
      (ht : t = answered { s with mem := coefWrite s.mem b k w } .ok 0)
  /-- the command wrote its one destination register -/
  | reg (hh : ¬ Halted s) (rd : Reg) (w : Word) (hd : destinations i = [rd]) (ht : t = answered (writeReg s rd w) .ok 0)
  /-- the command wrote its destination pair -/
  | pair (hh : ¬ Halted s) (p : Pair) (d : DoubleDouble) (hd : destinations i = [pairHi p, pairLo p])
      (ht : t = answered (writePair s p d) .ok 0)

section
variable {i : Instr} {body : Result}

/-- A wrapped command: halted, or the body. -/
theorem ExecShape.of_command (hi : i ≠ .gets) (h : command s body = .next t)
    (hb : ¬ Halted s → body = .next t → ExecShape i s t) : ExecShape i s t := by
  rcases command_next h with ⟨hh, rfl⟩ | ⟨hh, h⟩
  · exact .halted hh hi rfl
  · exact hb hh h

theorem ExecShape.of_phase {p : Phase} (hh : ¬ Halted s) (hc : canRaise i .phase = true) (h : inPhase p s body = .next t)
    (hb : s.status.phase = p → body = .next t → ExecShape i s t) : ExecShape i s t := by
  rcases inPhase_next h with ⟨-, rfl⟩ | ⟨hp, h⟩
  · exact .faulted hh .phase (.inr hc) rfl
  · exact hb hp h

theorem ExecShape.of_reg {r : Reg} {body : Word → Result} (hh : ¬ Halted s) (hc : canRaise i .unwritten = true)
    (h : withReg s r body = .next t) (hb : ∀ w, readReg s r = some w → body w = .next t → ExecShape i s t) :
    ExecShape i s t := by
  rcases withReg_next h with ⟨-, rfl⟩ | ⟨w, hw, h⟩
  · exact .faulted hh .unwritten (.inr hc) rfl
  · exact hb w hw h

theorem ExecShape.of_pair {p : Pair} {body : DoubleDouble → Result} (hh : ¬ Halted s) (hc : canRaise i .unwritten = true)
    (h : withPair s p body = .next t) (hb : ∀ d, body d = .next t → ExecShape i s t) : ExecShape i s t := by
  rcases withPair_next h with ⟨-, rfl⟩ | ⟨d, -, -, h⟩
  · exact .faulted hh .unwritten (.inr hc) rfl
  · exact hb d h

theorem ExecShape.of_complete_reg {rd : Reg} {w : Word} (hh : ¬ Halted s) (hd : destinations i = [rd])
    (h : complete (writeReg s rd w) = .next t) : ExecShape i s t := .reg hh rd w hd (complete_next h)

theorem ExecShape.of_complete_pair {p : Pair} {d : DoubleDouble} (hh : ¬ Halted s)
    (hd : destinations i = [pairHi p, pairLo p]) (h : complete (writePair s p d) = .next t) : ExecShape i s t :=
  .pair hh p d hd (complete_next h)

theorem ExecShape.of_unary {f : Word → Word} {rd rs : Reg} (hi : i ≠ .gets) (hc : canRaise i .unwritten = true)
    (hd : destinations i = [rd]) (h : unaryCommand f rd rs s = .next t) : ExecShape i s t :=
  .of_command hi h fun hh h => .of_reg hh hc h fun _ _ h => .of_complete_reg hh hd h

theorem ExecShape.of_field {f : Word → BitPos → BitPos → Word} {rd rs : Reg} {lsb wm1 : BitPos} (hi : i ≠ .gets)
    (hw : i.wellFormed = decide (fieldFits lsb wm1)) (hc : canRaise i .unwritten = true) (hd : destinations i = [rd])
    (h : fieldCommand f rd rs lsb wm1 s = .next t) : ExecShape i s t := by
  unfold fieldCommand at h
  split at h
  · exact .of_unary hi hc hd h
  · rename_i hf
    rcases illegalWord_next h with ⟨hh, rfl⟩ | ⟨hh, rfl⟩
    · exact .halted hh hi rfl
    · exact .faulted hh .illegal (.inl ⟨by simp [hw, hf], rfl⟩) rfl

theorem ExecShape.of_poly {eval : List Word → Word → Word} {rd rs : Reg} {b : Bank} {n : Slot} (hi : i ≠ .gets)
    (hp : canRaise i .phase = true) (hc : canRaise i .unwritten = true) (hu : canRaise i .uninit = true)
    (hd : destinations i = [rd]) (h : polyCommand eval rd rs b n s = .next t) : ExecShape i s t :=
  .of_command hi h fun hh h => .of_phase hh hp h fun _ h => .of_reg hh hc h fun _ _ h => by
    rcases withCoefs_next h with ⟨-, rfl⟩ | ⟨cs, -, h⟩
    · exact .faulted hh .uninit (.inr hu) rfl
    · exact .of_complete_reg hh hd h

end

/-- Every command answers a next state of one of the nine shapes. -/
theorem exec_shape {i : Instr} (h : exec i s = .next t) : ExecShape i s t := by
  cases i with
  | put rd => exact .of_command (by simp) h fun hh h => .of_complete_reg hh rfl h
  | get rs => exact .of_command (by simp) h fun hh h => .of_reg hh rfl h fun w hw h => .get hh rs w rfl hw (answerData_next h)
  | gets => exact .gets rfl (answerData_next h)
  | twr pa ri g =>
    exact .of_command (by simp) h fun hh h => .of_phase hh rfl h fun hp h => .of_reg hh rfl h fun k hk h =>
      .of_pair hh rfl h fun d h => by
        rcases withIndex_next h with ⟨-, rfl⟩ | ⟨hlt, h⟩
        · exact .faulted hh .index (.inr rfl) rfl
        · exact .twr hh pa ri g k d rfl hp hk hlt (complete_next h)
  | cwr ra b k =>
    exact .of_command (by simp) h fun hh h => .of_phase hh rfl h fun hp h => .of_reg hh rfl h fun w hw h =>
      .cwr hh ra b k w rfl hp hw (complete_next h)
  | lock => exact .of_command (by simp) h fun hh h => .lock hh rfl (complete_next h)
  | tlu pd ri g =>
    exact .of_command (by simp) h fun hh h => .of_phase hh rfl h fun hp h => .of_reg hh rfl h fun k hk h => by
      rcases withEntry_next h with ⟨-, rfl⟩ | ⟨-, -, rfl⟩ | ⟨d, -, -, h⟩
      · exact .faulted hh .index (.inr rfl) rfl
      · exact .faulted hh .uninit (.inr rfl) rfl
      · exact .of_complete_pair hh rfl h
  | xsgn rd rs => exact .of_unary (by simp) rfl rfl h
  | xexp rd rs => exact .of_unary (by simp) rfl rfl h
  | xman rd rs => exact .of_unary (by simp) rfl rfl h
  | bfx rd rs lsb wm1 => exact .of_field (by simp) rfl rfl rfl h
  | bfxs rd rs lsb wm1 => exact .of_field (by simp) rfl rfl rfl h
  | pack rd rs re rm =>
    exact .of_command (by simp) h fun hh h => .of_reg hh rfl h fun _ _ h => .of_reg hh rfl h fun _ _ h =>
      .of_reg hh rfl h fun _ _ h => .of_complete_reg hh rfl h
  | expadd rd ra rn =>
    exact .of_command (by simp) h fun hh h => .of_reg hh rfl h fun w _ h => .of_reg hh rfl h fun n _ h => by
      cases he : expAdd w n with
      | some r => rw [he] at h; exact .of_complete_reg hh rfl h
      | none => rw [he] at h; exact .faulted hh .exprange (.inr rfl) (raise_next h)
  | classify rd rs => exact .of_unary (by simp) rfl rfl h
  | iclass rd rs => exact .of_unary (by simp) rfl rfl h
  | cmp rd ra rb =>
    exact .of_command (by simp) h fun hh h => .of_reg hh rfl h fun _ _ h => .of_reg hh rfl h fun _ _ h =>
      .of_complete_reg hh rfl h
  | ctest rd rs mask => exact .of_unary (by simp) rfl rfl h
  | mux2 rd rp ra rb =>
    exact .of_command (by simp) h fun hh h => .of_reg hh rfl h fun _ _ h => .of_reg hh rfl h fun _ _ h =>
      .of_reg hh rfl h fun _ _ h => .of_complete_reg hh rfl h
  | mux3 rd rp rq ra rb rc =>
    exact .of_command (by simp) h fun hh h => .of_reg hh rfl h fun _ _ h => .of_reg hh rfl h fun _ _ h =>
      .of_reg hh rfl h fun _ _ h => .of_reg hh rfl h fun _ _ h => .of_reg hh rfl h fun _ _ h => .of_complete_reg hh rfl h
  | twosum pd ra rb =>
    exact .of_command (by simp) h fun hh h => .of_reg hh rfl h fun _ _ h => .of_reg hh rfl h fun _ _ h =>
      .of_complete_pair hh rfl h
  | twoprod pd ra rb =>
    exact .of_command (by simp) h fun hh h => .of_reg hh rfl h fun _ _ h => .of_reg hh rfl h fun _ _ h =>
      .of_complete_pair hh rfl h
  | ddaddd pd pa rb =>
    exact .of_command (by simp) h fun hh h => .of_pair hh rfl h fun _ h => .of_reg hh rfl h fun _ _ h =>
      .of_complete_pair hh rfl h
  | ddadd pd pa pb =>
    exact .of_command (by simp) h fun hh h => .of_pair hh rfl h fun _ h => .of_pair hh rfl h fun _ h =>
      .of_complete_pair hh rfl h
  | ddmuld pd pa rb =>
    exact .of_command (by simp) h fun hh h => .of_pair hh rfl h fun _ h => .of_reg hh rfl h fun _ _ h =>
      .of_complete_pair hh rfl h
  | ddmul pd pa pb =>
    exact .of_command (by simp) h fun hh h => .of_pair hh rfl h fun _ h => .of_pair hh rfl h fun _ h =>
      .of_complete_pair hh rfl h
  | polyh rd rs b n => exact .of_poly (by simp) rfl rfl rfl rfl h
  | polye rd rs b n => exact .of_poly (by simp) rfl rfl rfl rfl h

/-! ## No command stops the model -/

section
variable {body : Result}

theorem command_answers (h : ∃ t, body = .next t) : ∃ t, command s body = .next t := by
  unfold command; split
  · exact ⟨_, rfl⟩
  · exact h

theorem inPhase_answers {p : Phase} (h : ∃ t, body = .next t) : ∃ t, inPhase p s body = .next t := by
  unfold inPhase; split
  · exact h
  · exact ⟨_, rfl⟩

theorem withReg_answers {r : Reg} {body : Word → Result} (h : ∀ w, ∃ t, body w = .next t) :
    ∃ t, withReg s r body = .next t := by
  unfold withReg; split
  · exact h _
  · exact ⟨_, rfl⟩

theorem withPair_answers {p : Pair} {body : DoubleDouble → Result} (h : ∀ d, ∃ t, body d = .next t) :
    ∃ t, withPair s p body = .next t := withReg_answers fun _ => withReg_answers fun _ => h _

theorem withIndex_answers {g : Region} {k : Nat} (h : ∃ t, body = .next t) : ∃ t, withIndex s g k body = .next t := by
  unfold withIndex; split
  · exact h
  · exact ⟨_, rfl⟩

theorem withEntry_answers {g : Region} {k : Nat} {body : DoubleDouble → Result} (h : ∀ d, ∃ t, body d = .next t) :
    ∃ t, withEntry s g k body = .next t := by
  apply withIndex_answers; split
  · exact h _
  · exact ⟨_, rfl⟩

theorem withCoefs_answers {b : Bank} {n : Slot} {body : List Word → Result} (h : ∀ cs, ∃ t, body cs = .next t) :
    ∃ t, withCoefs s b n body = .next t := by
  unfold withCoefs; split
  · exact h _
  · exact ⟨_, rfl⟩

theorem unaryCommand_answers (f : Word → Word) (rd rs : Reg) : ∃ t, unaryCommand f rd rs s = .next t :=
  command_answers (withReg_answers fun _ => ⟨_, rfl⟩)

theorem fieldCommand_answers (f : Word → BitPos → BitPos → Word) (rd rs : Reg) (lsb wm1 : BitPos) :
    ∃ t, fieldCommand f rd rs lsb wm1 s = .next t := by
  unfold fieldCommand; split
  · exact unaryCommand_answers _ _ _
  · exact command_answers ⟨_, rfl⟩

theorem polyCommand_answers (eval : List Word → Word → Word) (rd rs : Reg) (b : Bank) (n : Slot) :
    ∃ t, polyCommand eval rd rs b n s = .next t :=
  command_answers (inPhase_answers (withReg_answers fun _ => withCoefs_answers fun _ => ⟨_, rfl⟩))

end

/-- `exec` never stops: every command, in every state, answers a next state. -/
theorem exec_answers (i : Instr) (s : State) : ∃ t, exec i s = .next t := by
  cases i with
  | put rd => exact command_answers ⟨_, rfl⟩
  | get rs => exact command_answers (withReg_answers fun _ => ⟨_, rfl⟩)
  | gets => exact ⟨_, rfl⟩
  | twr pa ri g =>
    exact command_answers (inPhase_answers (withReg_answers fun _ => withPair_answers fun _ => withIndex_answers ⟨_, rfl⟩))
  | cwr ra b k => exact command_answers (inPhase_answers (withReg_answers fun _ => ⟨_, rfl⟩))
  | lock => exact command_answers ⟨_, rfl⟩
  | tlu pd ri g => exact command_answers (inPhase_answers (withReg_answers fun _ => withEntry_answers fun _ => ⟨_, rfl⟩))
  | xsgn rd rs => exact unaryCommand_answers _ _ _
  | xexp rd rs => exact unaryCommand_answers _ _ _
  | xman rd rs => exact unaryCommand_answers _ _ _
  | bfx rd rs lsb wm1 => exact fieldCommand_answers _ _ _ _ _
  | bfxs rd rs lsb wm1 => exact fieldCommand_answers _ _ _ _ _
  | pack rd rs re rm =>
    exact command_answers (withReg_answers fun _ => withReg_answers fun _ => withReg_answers fun _ => ⟨_, rfl⟩)
  | expadd rd ra rn =>
    refine command_answers (withReg_answers fun _ => withReg_answers fun _ => ?_)
    split <;> exact ⟨_, rfl⟩
  | classify rd rs => exact unaryCommand_answers _ _ _
  | iclass rd rs => exact unaryCommand_answers _ _ _
  | cmp rd ra rb => exact command_answers (withReg_answers fun _ => withReg_answers fun _ => ⟨_, rfl⟩)
  | ctest rd rs mask => exact unaryCommand_answers _ _ _
  | mux2 rd rp ra rb =>
    exact command_answers (withReg_answers fun _ => withReg_answers fun _ => withReg_answers fun _ => ⟨_, rfl⟩)
  | mux3 rd rp rq ra rb rc =>
    exact command_answers (withReg_answers fun _ => withReg_answers fun _ => withReg_answers fun _ =>
      withReg_answers fun _ => withReg_answers fun _ => ⟨_, rfl⟩)
  | twosum pd ra rb => exact command_answers (withReg_answers fun _ => withReg_answers fun _ => ⟨_, rfl⟩)
  | twoprod pd ra rb => exact command_answers (withReg_answers fun _ => withReg_answers fun _ => ⟨_, rfl⟩)
  | ddaddd pd pa rb => exact command_answers (withPair_answers fun _ => withReg_answers fun _ => ⟨_, rfl⟩)
  | ddadd pd pa pb => exact command_answers (withPair_answers fun _ => withPair_answers fun _ => ⟨_, rfl⟩)
  | ddmuld pd pa rb => exact command_answers (withPair_answers fun _ => withReg_answers fun _ => ⟨_, rfl⟩)
  | ddmul pd pa pb => exact command_answers (withPair_answers fun _ => withPair_answers fun _ => ⟨_, rfl⟩)
  | polyh rd rs b n => exact polyCommand_answers _ _ _ _ _
  | polye rd rs b n => exact polyCommand_answers _ _ _ _ _

end Sys2Proof.Machine
end

