-- ==== Sys2Proof/Laws/Float.lean ====
section
/-! SUPPORT. The binary64 primitives: a word and its three fields, classes, negation, and what `val` is in units. -/

namespace Sys2Proof.Machine

/-! ## A word is its three fields (00_scope.md R9) -/

theorem bexp_lt (w : Word) : bexp w < 2048 := (w.extractLsb' 52 11).isLt

theorem mant_lt (w : Word) : mant w < 2 ^ 52 := (w.extractLsb' 0 52).isLt

theorem bexp_eq (w : Word) : bexp w = w.toNat / 2 ^ 52 % 2048 := by
  simp [bexp, Nat.shiftRight_eq_div_pow]

theorem mant_eq (w : Word) : mant w = w.toNat % 2 ^ 52 := by simp [mant]

theorem sign_eq (w : Word) : sign w = decide (2 ^ 63 ≤ w.toNat) := by
  have : w.msb = sign w := by simp [sign, BitVec.msb_eq_getLsbD_last]
  rw [← this, BitVec.msb_eq_decide]

/-- The word as a number, from its fields. -/
theorem toNat_eq_fields (w : Word) : w.toNat = (if sign w then 2 ^ 63 else 0) + bexp w * 2 ^ 52 + mant w := by
  have := w.isLt
  rw [sign_eq, bexp_eq, mant_eq]
  by_cases h : 2 ^ 63 ≤ w.toNat <;> simp only [h, decide_true, decide_false, if_true, if_false, Bool.false_eq_true] <;> omega

/-- Two words with the same fields are the same word. -/
theorem eq_of_fields {v w : Word} (hs : sign v = sign w) (he : bexp v = bexp w) (hm : mant v = mant w) : v = w := by
  apply BitVec.eq_of_toNat_eq
  rw [toNat_eq_fields v, toNat_eq_fields w, hs, he, hm]

/-! ## Built words -/

/-- The fields of the word with a given sign and given low 63 bits. -/
theorem toNat_signMag (s : Bool) {n : Nat} (h : n < 2 ^ 63) : (signMag s n).toNat = (if s then 2 ^ 63 else 0) + n := by
  unfold signMag
  rw [BitVec.toNat_ofNat, Nat.mod_eq_of_lt]
  cases s <;> (simp; try omega)

theorem sign_signMag (s : Bool) {n : Nat} (h : n < 2 ^ 63) : sign (signMag s n) = s := by
  rw [sign_eq, toNat_signMag s h]
  cases s
  · simpa using h
  · simp

theorem bexp_signMag (s : Bool) {n : Nat} (h : n < 2 ^ 63) : bexp (signMag s n) = n / 2 ^ 52 := by
  rw [bexp_eq, toNat_signMag s h]
  cases s <;> simp only [if_true, if_false, Bool.false_eq_true] <;> omega

theorem mant_signMag (s : Bool) {n : Nat} (h : n < 2 ^ 63) : mant (signMag s n) = n % 2 ^ 52 := by
  rw [mant_eq, toNat_signMag s h]
  cases s <;> simp only [if_true, if_false, Bool.false_eq_true] <;> omega

theorem bexp_joinFields (s : BitVec 1) (e : BitVec 11) (m : BitVec 52) : bexp (joinFields s e m) = e.toNat := by
  refine congrArg BitVec.toNat (BitVec.eq_of_getLsbD_eq fun i hi => ?_)
  simp only [joinFields, BitVec.getLsbD_extractLsb', BitVec.getLsbD_or, BitVec.getLsbD_shiftLeft, BitVec.getLsbD_setWidth]
  have h1 : 52 + i < 63 := by omega
  have h2 : ¬ 52 + i < 52 := by omega
  have h4 : 52 + i < 64 := by omega
  simp [hi, h1, h4]
  omega

theorem mant_joinFields (s : BitVec 1) (e : BitVec 11) (m : BitVec 52) : mant (joinFields s e m) = m.toNat := by
  refine congrArg BitVec.toNat (BitVec.eq_of_getLsbD_eq fun i hi => ?_)
  simp only [joinFields, BitVec.getLsbD_extractLsb', BitVec.getLsbD_or, BitVec.getLsbD_shiftLeft, BitVec.getLsbD_setWidth]
  have h1 : i < 63 := by omega
  have h2 : i < 64 := by omega
  simp [hi, h1, h2]

theorem sign_joinFields (s : BitVec 1) (e : BitVec 11) (m : BitVec 52) : sign (joinFields s e m) = s.getLsbD 0 := by
  simp only [sign, joinFields, BitVec.getLsbD_or, BitVec.getLsbD_shiftLeft, BitVec.getLsbD_setWidth]
  simp

/-! ## Values (00_scope.md R11) -/

/-- The value in units, of any word: R11's two formulas are one integer times 2^-1074. -/
theorem val_eq_units (w : Word) : val w = (units w : ℚ) / 2 ^ 1074 := by
  unfold val units magUnits
  have key : (if bexp w = 0 then (2 : ℚ) ^ (-1022 : ℤ) * (mant w / 2 ^ 52)
      else (2 : ℚ) ^ ((bexp w : ℤ) - 1023) * (1 + mant w / 2 ^ 52)) =
      ((if bexp w = 0 then mant w else (2 ^ 52 + mant w) * 2 ^ (bexp w - 1) : ℕ) : ℚ) / 2 ^ 1074 := by
    split
    · have : (2 : ℚ) ^ (-1022 : ℤ) = 2 ^ 52 / 2 ^ 1074 := by
        rw [zpow_neg, show (1022 : ℤ) = ((1022 : ℕ) : ℤ) from rfl, zpow_natCast, eq_div_iff (by positivity),
          inv_mul_eq_iff_eq_mul₀ (by positivity), ← pow_add]
      rw [this, div_mul_div_comm, mul_comm ((2 : ℚ) ^ 1074), mul_div_mul_left _ _ (by positivity)]
    · rename_i h
      obtain ⟨e, he⟩ : ∃ e, bexp w = e + 1 := ⟨bexp w - 1, by omega⟩
      have : (2 : ℚ) ^ ((bexp w : ℤ) - 1023) = 2 ^ e * 2 ^ 52 / 2 ^ 1074 := by
        rw [he, show ((e + 1 : ℕ) : ℤ) - 1023 = (e : ℤ) - (1022 : ℕ) by push_cast; ring, zpow_sub₀ (by norm_num),
          zpow_natCast, zpow_natCast, div_eq_div_iff (by positivity) (by positivity), mul_assoc,
          ← pow_add, ← pow_add, ← pow_add]
      rw [this, he, Nat.add_sub_cancel]
      push_cast
      generalize (2 : ℚ) ^ 1074 = x
      ring
  rw [key]
  cases sign w
  · simp
  · simp [neg_div]

end Sys2Proof.Machine
end

