-- ==== Sys2Proof/Laws/PerInstr.lean ====
section
/-! SUPPORT. A statement made per instruction: the encoder's word of a command meets `w AND mask = match` of the command's row in
the opcode map (30_encoding.md R63). -/

namespace Sys2Proof.Laws.TableWord

open Sys2Proof.Machine

/-- The word of the command is a candidate for its mnemonic (30_encoding.md R63). -/
def Statement (i : Instr) : Prop := encode i &&& (opcodeRow i).mask = (opcodeRow i).fixedBits

theorem put (rd : Reg) : Statement (.put rd) := by
  simp only [Statement, encode, opcodeRow, fieldsWord_and_mask]
  simp [fieldOp, fieldA, fieldB, fieldC, fieldD, fieldE, fieldF]
  rfl

theorem get (rs : Reg) : Statement (.get rs) := by
  simp only [Statement, encode, opcodeRow, fieldsWord_and_mask]
  simp [fieldOp, fieldA, fieldB, fieldC, fieldD, fieldE, fieldF]
  rfl

theorem gets : Statement (.gets) := by
  simp only [Statement, encode, opcodeRow, fieldsWord_and_mask]
  simp [fieldOp, fieldA, fieldB, fieldC, fieldD, fieldE, fieldF]
  rfl

theorem twr (pa : Pair) (ri : Reg) (region : Region) : Statement (.twr pa ri region) := by
  simp only [Statement, encode, opcodeRow, fieldsWord_and_mask]
  simp [fieldOp, fieldA, fieldB, fieldC, fieldD, fieldE, fieldF]
  rfl

theorem cwr (ra : Reg) (bank : Bank) (slot : Slot) : Statement (.cwr ra bank slot) := by
  simp only [Statement, encode, opcodeRow, fieldsWord_and_mask]
  simp [fieldOp, fieldA, fieldB, fieldC, fieldD, fieldE, fieldF]
  rfl

theorem lock : Statement (.lock) := by
  simp only [Statement, encode, opcodeRow, fieldsWord_and_mask]
  simp [fieldOp, fieldA, fieldB, fieldC, fieldD, fieldE, fieldF]
  rfl

theorem tlu (pd : Pair) (ri : Reg) (region : Region) : Statement (.tlu pd ri region) := by
  simp only [Statement, encode, opcodeRow, fieldsWord_and_mask]
  simp [fieldOp, fieldA, fieldB, fieldC, fieldD, fieldE, fieldF]
  rfl

theorem xsgn (rd rs : Reg) : Statement (.xsgn rd rs) := by
  simp only [Statement, encode, opcodeRow, fieldsWord_and_mask]
  simp [fieldOp, fieldA, fieldB, fieldC, fieldD, fieldE, fieldF]
  rfl

theorem xexp (rd rs : Reg) : Statement (.xexp rd rs) := by
  simp only [Statement, encode, opcodeRow, fieldsWord_and_mask]
  simp [fieldOp, fieldA, fieldB, fieldC, fieldD, fieldE, fieldF]
  rfl

theorem xman (rd rs : Reg) : Statement (.xman rd rs) := by
  simp only [Statement, encode, opcodeRow, fieldsWord_and_mask]
  simp [fieldOp, fieldA, fieldB, fieldC, fieldD, fieldE, fieldF]
  rfl

theorem bfx (rd rs : Reg) (lsb wm1 : BitPos) : Statement (.bfx rd rs lsb wm1) := by
  simp only [Statement, encode, opcodeRow, immWord_and_mask]
  simp [fieldOp, fieldA, fieldB, fieldImm]
  rfl

theorem bfxs (rd rs : Reg) (lsb wm1 : BitPos) : Statement (.bfxs rd rs lsb wm1) := by
  simp only [Statement, encode, opcodeRow, immWord_and_mask]
  simp [fieldOp, fieldA, fieldB, fieldImm]
  rfl

theorem pack (rd rs re rm : Reg) : Statement (.pack rd rs re rm) := by
  simp only [Statement, encode, opcodeRow, fieldsWord_and_mask]
  simp [fieldOp, fieldA, fieldB, fieldC, fieldD, fieldE, fieldF]
  rfl

theorem expadd (rd ra rn : Reg) : Statement (.expadd rd ra rn) := by
  simp only [Statement, encode, opcodeRow, fieldsWord_and_mask]
  simp [fieldOp, fieldA, fieldB, fieldC, fieldD, fieldE, fieldF]
  rfl

theorem classify (rd rs : Reg) : Statement (.classify rd rs) := by
  simp only [Statement, encode, opcodeRow, fieldsWord_and_mask]
  simp [fieldOp, fieldA, fieldB, fieldC, fieldD, fieldE, fieldF]
  rfl

theorem iclass (rd rs : Reg) : Statement (.iclass rd rs) := by
  simp only [Statement, encode, opcodeRow, fieldsWord_and_mask]
  simp [fieldOp, fieldA, fieldB, fieldC, fieldD, fieldE, fieldF]
  rfl

theorem cmp (rd ra rb : Reg) : Statement (.cmp rd ra rb) := by
  simp only [Statement, encode, opcodeRow, fieldsWord_and_mask]
  simp [fieldOp, fieldA, fieldB, fieldC, fieldD, fieldE, fieldF]
  rfl

theorem ctest (rd rs : Reg) (mask : BitVec 12) : Statement (.ctest rd rs mask) := by
  simp only [Statement, encode, opcodeRow, immWord_and_mask]
  simp [fieldOp, fieldA, fieldB, fieldImm]
  rfl

theorem mux2 (rd rp ra rb : Reg) : Statement (.mux2 rd rp ra rb) := by
  simp only [Statement, encode, opcodeRow, fieldsWord_and_mask]
  simp [fieldOp, fieldA, fieldB, fieldC, fieldD, fieldE, fieldF]
  rfl

theorem mux3 (rd rp rq ra rb rc : Reg) : Statement (.mux3 rd rp rq ra rb rc) := by
  simp only [Statement, encode, opcodeRow, fieldsWord_and_mask]
  simp [fieldOp, fieldA, fieldB, fieldC, fieldD, fieldE, fieldF]
  rfl

theorem twosum (pd : Pair) (ra rb : Reg) : Statement (.twosum pd ra rb) := by
  simp only [Statement, encode, opcodeRow, fieldsWord_and_mask]
  simp [fieldOp, fieldA, fieldB, fieldC, fieldD, fieldE, fieldF]
  rfl

theorem twoprod (pd : Pair) (ra rb : Reg) : Statement (.twoprod pd ra rb) := by
  simp only [Statement, encode, opcodeRow, fieldsWord_and_mask]
  simp [fieldOp, fieldA, fieldB, fieldC, fieldD, fieldE, fieldF]
  rfl

theorem ddaddd (pd pa : Pair) (rb : Reg) : Statement (.ddaddd pd pa rb) := by
  simp only [Statement, encode, opcodeRow, fieldsWord_and_mask]
  simp [fieldOp, fieldA, fieldB, fieldC, fieldD, fieldE, fieldF]
  rfl

theorem ddadd (pd pa pb : Pair) : Statement (.ddadd pd pa pb) := by
  simp only [Statement, encode, opcodeRow, fieldsWord_and_mask]
  simp [fieldOp, fieldA, fieldB, fieldC, fieldD, fieldE, fieldF]
  rfl

theorem ddmuld (pd pa : Pair) (rb : Reg) : Statement (.ddmuld pd pa rb) := by
  simp only [Statement, encode, opcodeRow, fieldsWord_and_mask]
  simp [fieldOp, fieldA, fieldB, fieldC, fieldD, fieldE, fieldF]
  rfl

theorem ddmul (pd pa pb : Pair) : Statement (.ddmul pd pa pb) := by
  simp only [Statement, encode, opcodeRow, fieldsWord_and_mask]
  simp [fieldOp, fieldA, fieldB, fieldC, fieldD, fieldE, fieldF]
  rfl

theorem polyh (rd rs : Reg) (bank : Bank) (degree : Slot) : Statement (.polyh rd rs bank degree) := by
  simp only [Statement, encode, opcodeRow, fieldsWord_and_mask]
  simp [fieldOp, fieldA, fieldB, fieldC, fieldD, fieldE, fieldF]
  rfl

theorem polye (rd rs : Reg) (bank : Bank) (degree : Slot) : Statement (.polye rd rs bank degree) := by
  simp only [Statement, encode, opcodeRow, fieldsWord_and_mask]
  simp [fieldOp, fieldA, fieldB, fieldC, fieldD, fieldE, fieldF]
  rfl

end Sys2Proof.Laws.TableWord
end

