-- ==== Sys2Proof/Tests/Slice0.lean ====
section
/-! SUPPORT. Tests: an ill-formed term that each check of WellFormed refuses; words written out from the encodings of
30_encoding.md and the rules' examples, decoded; one step of each command against a value that the spec states; and for each
statement with hypotheses a state and operands that meet them (`test_witness_…`). Expected values are the spec's own; each test
names the rule or the section of 95_test_vectors.md it comes from. -/

namespace Sys2Proof.Tests

open Sys2Proof.Machine

/-! ## Helpers -/

/-- The state after reset with some registers written. -/
def regs (l : List (Reg × Word)) : State := l.foldl (fun s p => writeReg s p.1 p.2) State.reset

/-- A state put in phase RUN. -/
def run (s : State) : State := { s with status := { s.status with phase := .run } }

/-- A state with memory contents. -/
def withMem (m : Memory) (s : State) : State := { s with mem := m }

/-- A state with a recorded fault. -/
def halted (s : State) : State := { s with status := ⟨s.status.phase, .illegal, 0⟩ }

/-- The state a command leaves; the tests' commands all answer one. -/
def after (r : Result) : State :=
  match r with
  | .next t => t
  | .fault _ => State.reset
  | .refused _ => State.reset

/-- The answer of one transaction on a state. -/
def answerOf (s : State) (w : Cmd) (data : Word) : Option Answer := (after (step (pushTransaction s w data))).answer

/-- What a register holds after one transaction on a state. -/
def regAfter (s : State) (w : Cmd) (r : Reg) : Option Word := readReg (after (step (pushTransaction s w 0))) r

/-! ## WellFormed (30_encoding.md R67): one ill-formed term for each check -/

theorem test_wf_bfx_past_bit_63 : (Instr.bfx 1 2 63 1).wellFormed = false := by decide
theorem test_wf_bfx_to_bit_63 : (Instr.bfx 1 2 63 0).wellFormed = true := by decide
theorem test_wf_bfxs_past_bit_63 : (Instr.bfxs 1 2 6 58).wellFormed = false := by decide
theorem test_wf_bfxs_to_bit_63 : (Instr.bfxs 1 2 6 57).wellFormed = true := by decide

/-! ## Decoding: words from the rules' examples (40_transfer.md to 45_poly.md) -/

/-- R80 -/
theorem test_decode_put : decode 0x04C00000 = .ok (.put 3) := rfl
/-- R81 -/
theorem test_decode_get : decode 0x08C00000 = .ok (.get 3) := rfl
/-- R82 -/
theorem test_decode_gets : decode 0x0C000000 = .ok (.gets) := rfl
/-- R85 -/
theorem test_decode_twr : decode 0x21080000 = .ok (.twr 2 2 .exp) := rfl
/-- R86 -/
theorem test_decode_cwr : decode 0x25804C00 = .ok (.cwr 6 1 3) := rfl
/-- R87 -/
theorem test_decode_lock : decode 0x28000000 = .ok (.lock) := rfl
/-- R88 -/
theorem test_decode_tlu : decode 0x2E084000 = .ok (.tlu 4 2 .log) := rfl
/-- R90 -/
theorem test_decode_xsgn : decode 0x40480000 = .ok (.xsgn 1 2) := rfl
/-- R91 -/
theorem test_decode_xexp : decode 0x44480000 = .ok (.xexp 1 2) := rfl
/-- R92 -/
theorem test_decode_xman : decode 0x48480000 = .ok (.xman 1 2) := rfl
/-- R93: `BFX x1, x2, 45, 7` -/
theorem test_decode_bfx : decode 0x4C480B46 = .ok (.bfx 1 2 45 6) := rfl
/-- R94: `BFXS x1, x2, 6, 58` -/
theorem test_decode_bfxs : decode 0x504801B9 = .ok (.bfxs 1 2 6 57) := rfl
/-- R95 -/
theorem test_decode_pack : decode 0x5448D000 = .ok (.pack 1 2 3 4) := rfl
/-- R100 -/
theorem test_decode_expadd : decode 0x5848C000 = .ok (.expadd 1 2 3) := rfl
/-- R96 -/
theorem test_decode_classify : decode 0x5C480000 = .ok (.classify 1 2) := rfl
/-- R97 -/
theorem test_decode_iclass : decode 0x60480000 = .ok (.iclass 1 2) := rfl
/-- R98 -/
theorem test_decode_cmp : decode 0x644C8000 = .ok (.cmp 1 3 2) := rfl
/-- R99 -/
theorem test_decode_ctest : decode 0x68480018 = .ok (.ctest 1 2 0x018) := rfl
/-- R106 -/
theorem test_decode_mux2 : decode 0x8048D000 = .ok (.mux2 1 2 3 4) := rfl
/-- R107 -/
theorem test_decode_mux3 : decode 0x8448D158 = .ok (.mux3 1 2 3 4 5 6) := rfl
/-- R111: the pair `x4:p` -/
theorem test_decode_twosum : decode 0xA1048000 = .ok (.twosum 2 1 2) := rfl
/-- R112; the word from R63: the factors are `x1` and `x2` -/
theorem test_decode_twoprod : decode 0xA5048000 = .ok (.twoprod 2 1 2) := rfl
/-- R113 -/
theorem test_decode_ddaddd : decode 0xA9904000 = .ok (.ddaddd 3 2 1) := rfl
/-- R114 -/
theorem test_decode_ddadd : decode 0xAE118000 = .ok (.ddadd 4 2 3) := rfl
/-- R115 -/
theorem test_decode_ddmuld : decode 0xB1904000 = .ok (.ddmuld 3 2 1) := rfl
/-- R116 -/
theorem test_decode_ddmul : decode 0xB6118000 = .ok (.ddmul 4 2 3) := rfl
/-- R127: `POLYH x1, x2, b3, 8` -/
theorem test_decode_polyh : decode 0xC048E000 = .ok (.polyh 1 2 3 8) := rfl
/-- R127 -/
theorem test_decode_polye : decode 0xC4481400 = .ok (.polye 1 2 0 5) := rfl

/-- R64: the all-zeros and all-ones words -/
theorem test_decode_all_zeros : decode 0x00000000 = .error .undefinedOp := rfl
theorem test_decode_all_ones : decode 0xFFFFFFFF = .error .undefinedOp := rfl
/-- 95_test_vectors.md 2.7: BFX with bit 12 set -/
theorem test_decode_reserved_bit : decode 0x4C48103F = .error .reservedBit := rfl
/-- R66: TLU with the odd pair field 1 -/
theorem test_decode_odd_pair : decode 0x2C400000 = .error .oddPair := rfl
/-- R67: TLU of region 3; POLYH of degree 9 -/
theorem test_decode_region_3 : decode 0x2C00C000 = .error .outOfRange := rfl
theorem test_decode_degree_9 : decode 0xC0002400 = .error .outOfRange := rfl
/-- The host's view of a table word: the words of GETS and MUX3 -/
theorem test_table_word : decodeTableWord 32 0x8448D158 = some (.mux3 1 2 3 4 5 6) := rfl

/-! ## One step of each command -/

/-- R80, the example -/
theorem test_put : readReg (after (step (pushTransaction .reset 0x04C00000 0x3FF0000000000000))) 3 =
    some 0x3FF0000000000000 := by decide
/-- R81, the example; 95_test_vectors.md 2.1: `GET x1` of an unwritten register -/
theorem test_get : answerOf (regs [(3, 0x3FF0000000000000)]) 0x08C00000 0 = some ⟨.ok, 0x3FF0000000000000⟩ := by decide
theorem test_get_unwritten :
    (after (step (pushTransaction .reset 0x08400000 0))).status = ⟨.init, .unwritten, 0x08400000⟩ := by decide
/-- R82, the example: after LOCK; 95_test_vectors.md 2.1: STATUS of a halted block -/
theorem test_gets : answerOf (run .reset) 0x0C000000 0 = some ⟨.ok, 1⟩ := by decide
theorem test_gets_halted :
    answerOf { State.reset with status := ⟨.init, .unwritten, 0x08400000⟩ } 0x0C000000 0 =
      some ⟨.ok, 0x0840000000000030⟩ := by decide
/-- R85, the example; index 64 of EXP (R88) -/
theorem test_twr : tabRead (after (step (pushTransaction
    (regs [(2, 5), (4, 0x3FF0B5586CF9890F), (5, 0x3C8A62E4ADC610B5)]) 0x21080000 0))).mem .exp 5 =
    some ⟨0x3FF0B5586CF9890F, 0x3C8A62E4ADC610B5⟩ := by decide
theorem test_twr_index : (after (step (pushTransaction (regs [(2, 64), (4, 1), (5, 1)]) 0x21080000 0))).status =
    ⟨.init, .index, 0x21080000⟩ := by decide
/-- R86, the example; PHASE after LOCK (R87) -/
theorem test_cwr : coefRead (after (step (pushTransaction (regs [(6, 0x3FC5555555555555)]) 0x25804C00 0))).mem 1 3 =
    some 0x3FC5555555555555 := by decide
theorem test_cwr_locked : answerOf (run (regs [(6, 1)])) 0x25804C00 0 = some ⟨.fault, 0⟩ := by decide
/-- R87, the example; a second LOCK is no fault -/
theorem test_lock : (after (step (pushTransaction .reset 0x28000000 0))).status = ⟨.run, .none, 0⟩ := by decide
theorem test_lock_again : answerOf (run .reset) 0x28000000 0 = some ⟨.ok, 0⟩ := by decide
/-- R88, the example with other words: entry 128 of LOG; an unwritten entry -/
theorem test_tlu : regAfter (run (withMem (tabWrite .empty .log 128 ⟨7, 9⟩) (regs [(2, 128)]))) 0x2E084000 9 = some 9 := by
  decide
theorem test_tlu_uninit : (after (step (pushTransaction (run (regs [(2, 128)])) 0x2E084000 0))).status =
    ⟨.run, .uninit, 0x2E084000⟩ := by decide
/-- R90, R91, R92, the examples -/
theorem test_xsgn : regAfter (regs [(2, 0xC000000000000000)]) 0x40480000 1 = some 1 := by decide
theorem test_xexp : regAfter (regs [(2, 0xC000000000000000)]) 0x44480000 1 = some 0x400 := by decide
theorem test_xman : regAfter (regs [(2, 0x3FF8000000000000)]) 0x48480000 1 = some 0x0008000000000000 := by decide
/-- R93, the examples -/
theorem test_bfx : regAfter (regs [(2, 0x3FF8000000000000)]) 0x4C480B46 1 = some 0x40 := by decide
theorem test_bfx_low : regAfter (regs [(2, 485)]) 0x4C480005 1 = some 37 := by decide
/-- R94, the example -/
theorem test_bfxs : regAfter (regs [(2, 0xFFFFFFFFFFFFFE1B)]) 0x504801B9 1 = some 0xFFFFFFFFFFFFFFF8 := by decide
/-- R95, the example; 95_test_vectors.md 2.3: the high bits of the sources are ignored -/
theorem test_pack : regAfter (regs [(2, 1), (3, 0x400), (4, 0x0008000000000000)]) 0x5448D000 1 =
    some 0xC008000000000000 := by decide
theorem test_pack_ignores : regAfter (regs [(2, 0xFFFFFFFFFFFFFFFE), (3, 0xFFFFFFFFFFFFF800), (4, 0xFFF0000000000000)])
    0x5448D000 1 = some 0 := by decide
/-- R100, the examples: the least normal, and EXPRANGE one below it -/
theorem test_expadd : regAfter (regs [(2, 0x3FF0000000000000), (3, 0xFFFFFFFFFFFFFC02)]) 0x5848C000 1 =
    some 0x0010000000000000 := by decide
theorem test_expadd_range : (after (step (pushTransaction (regs [(2, 0x3FF0000000000000), (3, 0xFFFFFFFFFFFFFC01)])
    0x5848C000 0))).status = ⟨.init, .exprange, 0x5848C000⟩ := by decide
/-- R96, the examples: −0 and the least subnormal -/
theorem test_classify : regAfter (regs [(2, 0x8000000000000000)]) 0x5C480000 1 = some 0x90 := by decide
theorem test_classify_subnormal : regAfter (regs [(2, 1)]) 0x5C480000 1 = some 0x20 := by decide
/-- R97: −3.0, and 2^53 − 1 -/
theorem test_iclass : regAfter (regs [(2, 0xC008000000000000)]) 0x60480000 1 = some 4 := by decide
theorem test_iclass_top : regAfter (regs [(2, 0x433FFFFFFFFFFFFF)]) 0x60480000 1 = some 4 := by decide
/-- R98: the example; +0 and −0 compare EQ -/
theorem test_cmp : regAfter (regs [(2, 0x40862E42FEFA39EF), (3, 0x4086300000000000)]) 0x644C8000 1 = some 4 := by
  decide +kernel
theorem test_cmp_zeros : regAfter (regs [(2, 0x8000000000000000), (3, 0)]) 0x644C8000 1 = some 2 := by decide +kernel
/-- R99, the example: masks 0x018 and 0x007 -/
theorem test_ctest : regAfter (regs [(2, 0x90)]) 0x68480018 1 = some 1 := by decide
theorem test_ctest_other : regAfter (regs [(2, 0x90)]) 0x68480007 1 = some 0 := by decide
/-- R106, the example, both ways -/
theorem test_mux2 : regAfter (regs [(2, 1), (3, 0x7FF0000000000000), (4, 0x3FF0000000000000)]) 0x8048D000 1 =
    some 0x7FF0000000000000 := by decide
theorem test_mux2_false : regAfter (regs [(2, 0), (3, 0x7FF0000000000000), (4, 0x3FF0000000000000)]) 0x8048D000 1 =
    some 0x3FF0000000000000 := by decide
/-- R107, the example; the first predicate wins -/
theorem test_mux3 : regAfter (regs [(2, 0), (3, 1), (4, 0x7FF8000000000000), (5, 0), (6, 0x3FF0000000000000)])
    0x8448D158 1 = some 0 := by decide
theorem test_mux3_first : regAfter (regs [(2, 1), (3, 1), (4, 0x7FF8000000000000), (5, 0), (6, 0x3FF0000000000000)])
    0x8448D158 1 = some 0x7FF8000000000000 := by decide
/-- R111, the example: 0.1 + 0.2 -/
theorem test_twosum_hi : regAfter (regs [(1, 0x3FB999999999999A), (2, 0x3FC999999999999A)]) 0xA1048000 4 =
    some 0x3FD3333333333334 := by decide +kernel
theorem test_twosum_lo : regAfter (regs [(1, 0x3FB999999999999A), (2, 0x3FC999999999999A)]) 0xA1048000 5 =
    some 0xBC80000000000000 := by decide +kernel
/-- R112, the example: 0.1 × 0.1 -/
theorem test_twoprod_hi : regAfter (regs [(1, 0x3FB999999999999A), (2, 0x3FB999999999999A)]) 0xA5048000 4 =
    some 0x3F847AE147AE147C := by decide +kernel
theorem test_twoprod_lo : regAfter (regs [(1, 0x3FB999999999999A), (2, 0x3FB999999999999A)]) 0xA5048000 5 =
    some 0xBC2EB851EB851EB8 := by decide +kernel
/-- R113, the example -/
theorem test_ddaddd_hi : regAfter (regs [(4, 0x3FF0000000000000), (5, 0x3CA0000000000000), (1, 0x3FF0000000000000)])
    0xA9904000 6 = some 0x4000000000000000 := by decide +kernel
theorem test_ddaddd_lo : regAfter (regs [(4, 0x3FF0000000000000), (5, 0x3CA0000000000000), (1, 0x3FF0000000000000)])
    0xA9904000 7 = some 0x3CA0000000000000 := by decide +kernel

/-- The operands of the examples of R114 and R116. -/
def twoPairs : State :=
  regs [(4, 0x3FD3333333333334), (5, 0xBC80000000000000), (6, 0x3F847AE147AE147C), (7, 0xBC2EB851EB851EB8)]

/-- R114, R116, the examples -/
theorem test_ddadd_hi : regAfter twoPairs 0xAE118000 8 = some 0x3FD3D70A3D70A3D7 := by decide +kernel
theorem test_ddadd_lo : regAfter twoPairs 0xAE118000 9 = some 0x3C770A3D70A3D70A := by decide +kernel
theorem test_ddmul_hi : regAfter twoPairs 0xB6118000 8 = some 0x3F689374BC6A7EFB := by decide +kernel
theorem test_ddmul_lo : regAfter twoPairs 0xB6118000 9 = some 0x3BB0624DD2F1AA00 := by decide +kernel
/-- R115, the example -/
theorem test_ddmuld_hi : regAfter (regs [(4, 0x3FD3333333333334), (5, 0xBC80000000000000), (1, 0x4008000000000000)])
    0xB1904000 6 = some 0x3FECCCCCCCCCCCCD := by decide +kernel
theorem test_ddmuld_lo : regAfter (regs [(4, 0x3FD3333333333334), (5, 0xBC80000000000000), (1, 0x4008000000000000)])
    0xB1904000 7 = some 0x3C80000000000000 := by decide +kernel

/-- The coefficients of the example of R126 in bank 0. -/
def bank0 : Memory :=
  { Memory.empty with coef := [(0, 0), (1, 0x3FF0000000000000), (2, 0x3FE0000000000000), (3, 0x3FC5555555555555),
    (4, 0x3FA5555555555555), (5, 0x3F81111111111111)] }

/-- R126, the example; a coefficient above the written ones -/
theorem test_polyh : regAfter (run (withMem bank0 (regs [(2, 0x3F70000000000000)]))) 0xC0481400 1 =
    some 0x3F700802AB557777 := by decide +kernel
theorem test_polyh_uninit : (after (step (pushTransaction (run (withMem bank0 (regs [(2, 0x3F70000000000000)])))
    0xC0481800 0))).status = ⟨.run, .uninit, 0xC0481800⟩ := by decide
/-- R127, the example -/
theorem test_polye : regAfter (run (withMem bank0 (regs [(2, 0x3F70000000000000)]))) 0xC4481400 1 =
    some 0x3F700802AB557778 := by decide +kernel
theorem test_polye_phase : (after (step (pushTransaction (regs [(2, 0x3F70000000000000)]) 0xC4481400 0))).status =
    ⟨.init, .phase, 0xC4481400⟩ := by decide

/-! ## The host's events -/

/-- R163: PUT on a halted block; R175: reset leaves the halted state -/
theorem test_halted_put : answerOf (halted .reset) 0x04400000 1 = some ⟨.halted, 0⟩ := by decide
theorem test_reset_event : (after (step { halted (run .reset) with host := [.reset] })).status = ⟨.init, .none, 0⟩ := by decide
/-- R82: the illegal word 0 in phase INIT, then GETS -/
theorem test_illegal_status : statusWord (after (step (pushTransaction .reset 0 0))).status = 0x10 := by decide
/-- The host's word for a table row runs as the first instruction after reset. -/
theorem test_with_fetch_word :
    (after (step (State.reset.withFetchWord 32 0x28000000))).status = ⟨.run, .none, 0⟩ := by decide

/-! ## Witnesses

For each statement with hypotheses, a state and operands that meet all of them; for a statement of several clauses, one for each
clause, at the boundary of its range where it has one. -/

/-- Every register holds 1.0; phase INIT. -/
def ready : State := { State.reset with regs := Vector.replicate 16 (some 0x3FF0000000000000) }

/-- `ready` with one register given another word. -/
def readyBut (r : Reg) (w : Word) : State := writeReg ready r w

/-- A state with what the host does next. -/
def withHost (l : List HostEvent) (s : State) : State := { s with host := l }

/-- Entry 128 of LOG, entry 63 of EXP and slots 0 to 8 of bank 3 are written. -/
def loaded : Memory :=
  { exp := [(63, ⟨1, 2⟩)]
    log := [(128, ⟨3, 4⟩)]
    pow := []
    coef := [(27, 1), (28, 1), (29, 1), (30, 1), (31, 1), (32, 1), (33, 1), (34, 1), (35, 1)] }

/-! ### Encoding -/

theorem test_witness_decode_of_encode : (Instr.bfx 15 0 0 63).WellFormed ∧ (Instr.bfxs 0 15 63 0).WellFormed := by decide
theorem test_witness_encode_of_decoded : decode 0x8448D158 = .ok (.mux3 1 2 3 4 5 6) := rfl
theorem test_witness_candidate_legal : (0x2C008000 : Cmd) &&& (opcodeRow (.tlu 0 0 .exp)).mask =
    (opcodeRow (.tlu 0 0 .exp)).fixedBits ∧ decode 0x2C008000 = .ok (.tlu 0 0 .pow) := ⟨by decide, rfl⟩
/-- Candidates that the further limits refuse: region 3, slot 9, degree 9, a field of 65 bits. -/
theorem test_witness_candidate_refused :
    ((0x2C00C000 : Cmd) &&& (opcodeRow (.tlu 0 0 .exp)).mask = (opcodeRow (.tlu 0 0 .exp)).fixedBits ∧
      (fieldC 0x2C00C000).toNat = 3) ∧
    ((0x24002400 : Cmd) &&& (opcodeRow (.cwr 0 0 0)).mask = (opcodeRow (.cwr 0 0 0)).fixedBits ∧
      (fieldD 0x24002400).toNat = 9) ∧
    ((0xC0002400 : Cmd) &&& (opcodeRow (.polyh 0 0 0 0)).mask = (opcodeRow (.polyh 0 0 0 0)).fixedBits ∧
      (fieldD 0xC0002400).toNat = 9) ∧
    ((0x4C00007F : Cmd) &&& (opcodeRow (.bfx 0 0 0 0)).mask = (opcodeRow (.bfx 0 0 0 0)).fixedBits ∧
      (fieldLsb 0x4C00007F).toNat + (fieldWm1 0x4C00007F).toNat + 1 = 65) := by decide
theorem test_witness_undefined_op : (fieldOp 0x00000000).toNat ∉ definedOps ∧ (fieldOp 0xFFFFFFFF).toNat ∉ definedOps := by
  decide
/-- What RaisesIllegal and IllegalWhen ask of a state. -/
theorem test_witness_raises_illegal :
    (withHost [.transaction 0 7, .reset] ready).host = .transaction 0 7 :: [.reset] ∧
      ¬ Halted (withHost [.transaction 0 7, .reset] ready) := by decide
theorem test_witness_unused_bit : (fieldOp 0x4C48103F).toNat ∈ definedOps ∧
    0x4C48103F &&& unusedBits (fieldOp 0x4C48103F).toNat ≠ 0 := by decide
theorem test_witness_odd_pair :
    ((fieldOp 0x2C400000).toNat = 0x0B ∧ (fieldA 0x2C400000).toNat % 2 = 1) ∧
    ((fieldOp 0xA83C0000).toNat = 0x2A ∧ (fieldB 0xA83C0000).toNat % 2 = 1) ∧
    ((fieldOp 0xAC004000).toNat = 0x2B ∧ (fieldC 0xAC004000).toNat % 2 = 1) := by decide
theorem test_witness_out_of_range :
    ((fieldOp 0xC0010000).toNat = 0x30 ∧ (fieldC 0xC0010000).toNat = 4) ∧
    ((fieldOp 0x2000C000).toNat = 0x08 ∧ (fieldC 0x2000C000).toNat = 3) ∧
    ((fieldOp 0x20000400).toNat = 0x08 ∧ fieldD 0x20000400 ≠ 0) ∧
    ((fieldOp 0x24040000).toNat = 0x09 ∧ fieldB 0x24040000 ≠ 0) ∧
    ((fieldOp 0x24002400).toNat = 0x09 ∧ (fieldD 0x24002400).toNat = 9) ∧
    ((fieldOp 0x5000007F).toNat = 0x14 ∧ (fieldLsb 0x5000007F).toNat + (fieldWm1 0x5000007F).toNat + 1 = 65) := by decide
/-- The list of ILLEGAL conditions of each command has a word: a reserved bit for each format. -/
theorem test_witness_illegal_when :
    (fieldOp 0x04200000).toNat = 0x01 ∧ (0x04200000 : Cmd).extractLsb' 0 22 ≠ 0 ∧
    (fieldOp 0x0C000001).toNat = 0x03 ∧ (0x0C000001 : Cmd).extractLsb' 0 26 ≠ 0 ∧
    (fieldOp 0x40020000).toNat = 0x10 ∧ (0x40020000 : Cmd).extractLsb' 0 18 ≠ 0 ∧
    (fieldOp 0x64002000).toNat = 0x19 ∧ (0x64002000 : Cmd).extractLsb' 0 14 ≠ 0 ∧
    (fieldOp 0x80000200).toNat = 0x20 ∧ (0x80000200 : Cmd).extractLsb' 0 10 ≠ 0 ∧
    (fieldOp 0x84000002).toNat = 0x21 ∧ (0x84000002 : Cmd).extractLsb' 0 2 ≠ 0 ∧
    (fieldOp 0x68020000).toNat = 0x1A ∧ (0x68020000 : Cmd).extractLsb' 12 6 ≠ 0 := by decide

/-! ### The step and the whole machine -/

theorem test_witness_step_idle : (withHost [] ready).host = [] := rfl
theorem test_witness_step_reset : (withHost [.reset, .transaction 0 0] ready).host = .reset :: [.transaction 0 0] := rfl
theorem test_witness_step_command : (withHost [.transaction 0x28000000 5] ready).host = .transaction 0x28000000 5 :: [] ∧
    decode 0x28000000 = .ok .lock := ⟨rfl, rfl⟩
theorem test_witness_step_no_command : (withHost [.transaction 0 5] ready).host = .transaction 0 5 :: [] ∧ NoCommand 0 :=
  ⟨rfl, .undefinedOp, rfl⟩
theorem test_witness_outcome : (withHost [.transaction 0xFFFFFFFF 1] ready).host = .transaction 0xFFFFFFFF 1 :: [] := rfl
theorem test_witness_reset_by_host : ∃ s rest t, s.host = .reset :: rest ∧ step s = .next t ∧ t ≠ State.reset :=
  ⟨withHost [.reset, .transaction 0 0] ready, [.transaction 0 0], applyReset [.transaction 0 0], rfl, rfl, by decide⟩
theorem test_witness_halted : Halted (withHost [.transaction 0x0C000000 0] (halted ready)) ∧
    (withHost [.transaction 0x0C000000 0] (halted ready)).host = .transaction 0x0C000000 0 :: [] := by decide
theorem test_witness_halted_other : Halted (withHost [.transaction 0x0C000001 0] (halted ready)) ∧
    (withHost [.transaction 0x0C000001 0] (halted ready)).host = .transaction 0x0C000001 0 :: [] := by decide
theorem test_witness_fault : ∃ t, ¬ Halted (withHost [.transaction 0x08000000 0] .reset) ∧
    (withHost [.transaction 0x08000000 0] .reset).host = .transaction 0x08000000 0 :: [] ∧
    step (withHost [.transaction 0x08000000 0] .reset) = .next t ∧ Halted t :=
  ⟨_, by decide, rfl, rfl, by decide⟩
theorem test_witness_first_fault : Halted (halted ready) ∧ Instr.put 0 ≠ .gets ∧ ¬ Halted (run ready) := by decide
theorem test_witness_no_command : NoCommand 0xFFFFFFFF := ⟨.undefinedOp, rfl⟩
/-- A state that no run has reached yet, with memory contents, a fault record and an answer. -/
theorem test_witness_invariant :
    State.Inv { halted (withMem loaded ready) with answer := some ⟨.halted, 0⟩ } ∧
      step { halted (withMem loaded ready) with answer := some ⟨.halted, 0⟩ } =
        .next { halted (withMem loaded ready) with answer := some ⟨.halted, 0⟩ } := by
  refine ⟨⟨⟨by decide, by decide, ⟨by decide, fun k hk => nomatch hk⟩, by decide⟩, ⟨.undefinedOp, rfl⟩, fun a ha _ => ?_⟩, rfl⟩
  cases ha
  exact ⟨rfl, by decide⟩
theorem test_witness_phase_by_lock : ∃ t, step (withHost [.transaction 0x28000000 0] ready) = .next t ∧
    t.status.phase ≠ ready.status.phase := ⟨_, rfl, by decide⟩
theorem test_witness_phase_by_reset : ∃ t, step (withHost [.reset] (run ready)) = .next t ∧
    t.status.phase ≠ (run ready).status.phase := ⟨_, rfl, by decide⟩
theorem test_witness_phase_needed : phaseNeeded (.cwr 0 0 0) = some .init ∧ ¬ Halted (run ready) ∧
    (run ready).status.phase ≠ .init ∧ phaseNeeded (.tlu 0 0 .exp) = some .run ∧ ready.status.phase ≠ .run := by decide
theorem test_witness_phase_free : ∃ t, phaseNeeded (.put 0) = none ∧ Instr.put 0 ≠ .gets ∧ Instr.put 0 ≠ .lock ∧
    exec (.put 0) ready = .next t := ⟨_, rfl, by decide, by decide, rfl⟩
theorem test_witness_immutable : ∃ t, (run (withMem loaded ready)).status.phase = .run ∧
    .reset ∉ (withHost [.transaction 0x25804C00 0] (run (withMem loaded ready))).host ∧
    Sys2Proof.core.run 2 (withHost [.transaction 0x25804C00 0] (run (withMem loaded ready))) = .next t :=
  ⟨_, rfl, by decide, rfl⟩
theorem test_witness_unobservable : ∃ t, ready.status.phase = .init ∧ exec (.cwr 0 3 8) ready = .next t := ⟨_, rfl, rfl⟩
theorem test_witness_marks_read : (Instr.mux2 0 1 2 3).WellFormed ∧ ¬ Halted (regs [(1, 1), (2, 1)]) ∧
    (∀ p, phaseNeeded (.mux2 0 1 2 3) = some p → (regs [(1, 1), (2, 1)]).status.phase = p) ∧
    SomeUnwritten (regs [(1, 1), (2, 1)]) (sources (.mux2 0 1 2 3)) := by decide
theorem test_witness_marks_written : ∃ t, exec (.put 15) .reset = .next t ∧ t.answer = some ⟨.ok, 0⟩ ∧
    15 ∈ destinations (.put 15) := ⟨_, rfl, by decide, by decide⟩
theorem test_witness_marks_kept : ∃ t, step ready = .next t ∧ (∀ rest, ready.host ≠ .reset :: rest) ∧
    readReg ready 15 ≠ none := ⟨_, rfl, fun _ h => (nomatch h), by decide⟩
theorem test_witness_wdata : ∃ t, (∀ rd, Instr.get 3 ≠ .put rd) ∧ exec (.get 3) ready = .next t :=
  ⟨_, fun _ h => (nomatch h), rfl⟩
theorem test_witness_frames : ∃ t, exec (.tlu 7 0 .exp) (run (withMem loaded (readyBut 0 63))) = .next t ∧
    t.answer ≠ some ⟨.fault, 0⟩ ∧ (15 : Reg) ∈ destinations (.tlu 7 0 .exp) ∧ (13 : Reg) ∉ destinations (.tlu 7 0 .exp) :=
  ⟨_, rfl, by decide, by decide, by decide⟩
theorem test_witness_memory_frame : ∃ t, exec (.twr 2 1 .exp) (readyBut 1 63) = .next t ∧ t.answer = some ⟨.ok, 0⟩ ∧
    62 ≠ regNat (readyBut 1 63) 1 := ⟨_, rfl, by decide, by decide⟩

/-! ### The commands -/

/-- The hypotheses of PUT, LOCK and the other statements on a block that has not faulted, in both phases. -/
theorem test_witness_healthy : ¬ Halted ready ∧ ¬ Halted (run ready) ∧ ¬ Halted State.reset := by decide
theorem test_witness_get : ¬ Halted ready ∧ readReg ready 15 = some 0x3FF0000000000000 ∧ readReg State.reset 15 = none := by
  decide
theorem test_witness_twr_phase : ¬ Halted (run ready) ∧ (run ready).status.phase = .run := by decide
theorem test_witness_twr_unwritten : ¬ Halted (regs [(2, 64), (4, 1)]) ∧ (regs [(2, 64), (4, 1)]).status.phase = .init ∧
    SomeUnwritten (regs [(2, 64), (4, 1)]) [2, pairHi 2, pairLo 2] := by decide
/-- The last index of EXP and the first beyond it, and of LOG. -/
theorem test_witness_twr_index : ¬ Halted (readyBut 2 63) ∧ (readyBut 2 63).status.phase = .init ∧
    readReg (readyBut 2 63) 2 = some 63 ∧ readReg (readyBut 2 63) (pairHi 2) = some 0x3FF0000000000000 ∧
    readReg (readyBut 2 63) (pairLo 2) = some 0x3FF0000000000000 ∧ (63 : Word).toNat < regionSize .exp ∧
    regionSize .exp ≤ (64 : Word).toNat ∧ (128 : Word).toNat < regionSize .log ∧ regionSize .log ≤ (129 : Word).toNat := by
  decide
theorem test_witness_twr_pow : (0 : Word).toNat < regionSize .pow := Nat.succ_pos _
theorem test_witness_cwr : ¬ Halted ready ∧ ready.status.phase = .init ∧ readReg ready 6 = some 0x3FF0000000000000 ∧
    readReg State.reset 6 = none ∧ State.reset.status.phase = .init := by decide
theorem test_witness_tlu_phase : ¬ Halted ready ∧ ready.status.phase = .init := by decide
theorem test_witness_tlu_unwritten : ¬ Halted (run .reset) ∧ (run .reset).status.phase = .run ∧
    readReg (run .reset) 2 = none := by decide
theorem test_witness_tlu : ¬ Halted (run (withMem loaded (readyBut 2 128))) ∧
    (run (withMem loaded (readyBut 2 128))).status.phase = .run ∧
    readReg (run (withMem loaded (readyBut 2 128))) 2 = some 128 ∧ (128 : Word).toNat < regionSize .log ∧
    tabRead (run (withMem loaded (readyBut 2 128))).mem .log (128 : Word).toNat = some ⟨3, 4⟩ ∧
    regionSize .log ≤ (129 : Word).toNat ∧ (127 : Word).toNat < regionSize .log ∧
    tabRead (run (withMem loaded (readyBut 2 128))).mem .log (127 : Word).toNat = none := by decide
theorem test_witness_unary : ¬ Halted (readyBut 2 0xC000000000000000) ∧
    readReg (readyBut 2 0xC000000000000000) 2 = some 0xC000000000000000 ∧ ¬ Halted State.reset ∧
    readReg State.reset 2 = none := by decide
/-- Fields of 64 and 65 bits; a field that reaches bit 63. -/
theorem test_witness_bit_field : (6 : BitPos).val + (57 : BitPos).val + 1 ≤ 64 ∧ (6 : BitPos).val + (57 : BitPos).val + 1 = 64 ∧
    ¬ (6 : BitPos).val + (58 : BitPos).val + 1 ≤ 64 ∧ ¬ Halted ready ∧ readReg ready 2 = some 0x3FF0000000000000 := by decide
theorem test_witness_mov_fabs : ¬ Halted ready ∧ readReg ready 2 = some 0x3FF0000000000000 ∧
    IsFinite 0xBFF0000000000000 ∧ IsNan 0xFFF0000000000001 := by decide
theorem test_witness_pack : ¬ Halted (regs [(2, 1), (3, 0x400), (4, 0x0008000000000000)]) ∧
    readReg (regs [(2, 1), (3, 0x400), (4, 0x0008000000000000)]) 2 = some 1 ∧
    readReg (regs [(2, 1), (3, 0x400), (4, 0x0008000000000000)]) 3 = some 0x400 ∧
    readReg (regs [(2, 1), (3, 0x400), (4, 0x0008000000000000)]) 4 = some 0x0008000000000000 ∧
    (1 : Word).toNat = (0xC008000000000000 : Word).toNat / 2 ^ 63 ∧ (0x400 : Word).toNat = bexp 0xC008000000000000 ∧
    (0x0008000000000000 : Word).toNat = mant 0xC008000000000000 ∧
    SomeUnwritten (regs [(2, 1), (3, 1)]) [2, 3, 4] := by decide
/-- An infinity, a non-integer, an even and an odd integer for ICLASS. -/
theorem test_witness_iclass : ¬ IsFinite 0x7FF0000000000000 ∧ IsFinite 0x3FE0000000000000 ∧ IsFinite 0x4340000000000000 ∧
    IsFinite 0x433FFFFFFFFFFFFF := by decide
/-- A NaN, finite words, infinities of both signs for CMP; an unwritten source. -/
theorem test_witness_cmp : readReg ready 2 = some 0x3FF0000000000000 ∧ readReg ready 3 = some 0x3FF0000000000000 ∧
    IsNan 0x7FF0000000000001 ∧ IsFinite 0x7FEFFFFFFFFFFFFF ∧ IsInf 0x7FF0000000000000 ∧ IsInf 0xFFF0000000000000 ∧
    SomeUnwritten (regs [(2, 1)]) [2, 3] := by decide
/-- The last step inside the range of EXPADD and the first outside, at both ends; sources that are not normal. -/
theorem test_witness_expadd : ¬ OutsideExpRange 0x3FF0000000000000 0xFFFFFFFFFFFFFC02 ∧
    OutsideExpRange 0x3FF0000000000000 0xFFFFFFFFFFFFFC01 ∧ ¬ OutsideExpRange 0x3FF0000000000000 1023 ∧
    OutsideExpRange 0x3FF0000000000000 1024 ∧ OutsideExpRange 0 0 ∧ OutsideExpRange 0x7FF0000000000000 0 ∧
    readReg ready 2 = some 0x3FF0000000000000 ∧ SomeUnwritten (regs [(2, 1)]) [2, 3] := by decide
theorem test_witness_mux : readReg ready 1 = some 0x3FF0000000000000 ∧ SomeUnwritten (regs [(2, 1), (3, 1)]) [2, 3, 4] ∧
    SomeUnwritten (regs [(2, 1), (3, 1), (4, 1), (5, 1)]) [2, 3, 4, 5, 6] ∧ ¬ Halted ready := by decide
theorem test_witness_mux3_as_mux2 : ∃ t u v, (9 : Reg) ≠ 2 ∧ (9 : Reg) ≠ 4 ∧ exec (.mux2 9 3 5 6) ready = .next t ∧
    exec (.mux2 1 2 4 9) t = .next u ∧ exec (.mux3 1 2 3 4 5 6) ready = .next v ∧
    readReg u 1 = some 0x3FF0000000000000 ∧ ¬ Halted u :=
  ⟨_, _, _, by decide, by decide, rfl, rfl, rfl, by decide, by decide⟩
theorem test_witness_dd : readReg ready (pairHi 7) = some 0x3FF0000000000000 ∧
    readReg ready (pairLo 7) = some 0x3FF0000000000000 ∧ readReg ready 0 = some 0x3FF0000000000000 ∧ ¬ Halted ready ∧
    SomeUnwritten (regs [(4, 1), (1, 1)]) [pairHi 2, pairLo 2, 1] ∧
    SomeUnwritten (regs [(4, 1), (5, 1), (6, 1)]) [pairHi 2, pairLo 2, pairHi 3, pairLo 3] ∧
    SomeUnwritten (regs [(4, 1)]) [4, 5] := by decide
/-- Rows (a) to (c) of the table of R119: a NaN, an infinity, a sum and a product that overflow. -/
theorem test_witness_extreme : IsNan 0x7FF0000000000001 ∧ IsInf 0x7FF0000000000000 ∧ IsFinite 0x7FEFFFFFFFFFFFFF ∧
    IsInf (fadd 0x7FEFFFFFFFFFFFFF 0x7FEFFFFFFFFFFFFF) ∧ IsInf (fmul 0x7FEFFFFFFFFFFFFF 0x4000000000000000) := by
  decide +kernel
theorem test_witness_poly_phase : ¬ Halted ready ∧ ready.status.phase = .init ∧ (run .reset).status.phase = .run ∧
    readReg (run .reset) 2 = none := by decide
theorem test_witness_poly_uninit : (run ready).status.phase = .run ∧ readReg (run ready) 2 = some 0x3FF0000000000000 ∧
    ∃ k : Slot, k ≤ 0 ∧ coefRead (run ready).mem 3 k = none := by decide
theorem test_witness_poly : ¬ Halted (run (withMem loaded ready)) ∧ CoefsAre (run (withMem loaded ready)).mem 3 8 fun _ => 1 :=
  ⟨by decide, fun k _ => by revert k; decide⟩
theorem test_witness_schemes : (1 : Slot) ≤ 1 := by decide
theorem test_witness_slots_above : (∀ k : Slot, k ≤ 2 → coefRead loaded 3 k =
      coefRead (run (withMem { loaded with coef := [(27, 1), (28, 1), (29, 1)] } ready)).mem 3 k) ∧
    (∃ t, exec (.polyh 1 2 3 2) (run (withMem { loaded with coef := [(27, 1), (28, 1), (29, 1)] } ready)) = .next t) ∧
    ∃ t, exec (.polye 1 2 3 2) (run (withMem { loaded with coef := [(27, 1), (28, 1), (29, 1)] } ready)) = .next t :=
  ⟨by decide, exec_answers _ _, exec_answers _ _⟩

/-! ### Binary64 -/

/-- 1.0 and 2^-53: the sum is finite and the operands are in the order FastTwoSum needs; the inner difference is finite. -/
theorem test_witness_sums_exact : IsFinite 0x3FF0000000000000 ∧ IsFinite 0x3CA0000000000000 ∧
    IsFinite (fadd 0x3FF0000000000000 0x3CA0000000000000) ∧ bexp 0x3CA0000000000000 ≤ bexp 0x3FF0000000000000 ∧
    IsFinite (fsub (fadd 0x3FF0000000000000 0x3CA0000000000000) 0x3FF0000000000000) := by decide +kernel
theorem test_witness_magnitudes : |val 0xBFF0000000000000| ≤ |val 0x3FF0000000000000| := by
  have h : units 0xBFF0000000000000 = - units 0x3FF0000000000000 := by decide +kernel
  rw [val_eq_units, val_eq_units, h, Int.cast_neg, neg_div, abs_neg]
/-- 1 + 2^-52, squared: the product is inexact and its error, 2^-104, is a binary64 value. -/
theorem test_witness_product_exact : IsFinite 0x3FF0000000000001 ∧
    IsFinite (fmul 0x3FF0000000000001 0x3FF0000000000001) ∧
    ∃ e : Word, IsFinite e ∧
      val e = val 0x3FF0000000000001 * val 0x3FF0000000000001 - val (fmul 0x3FF0000000000001 0x3FF0000000000001) := by
  refine ⟨by decide, by decide +kernel, 0x3970000000000000, by decide, ?_⟩
  have h : units 0x3970000000000000 * 2 ^ 1074 = units 0x3FF0000000000001 * units 0x3FF0000000000001 -
      units (fmul 0x3FF0000000000001 0x3FF0000000000001) * 2 ^ 1074 := by decide +kernel
  have h' : (units 0x3970000000000000 : ℚ) * 2 ^ 1074 = units 0x3FF0000000000001 * units 0x3FF0000000000001 -
      units (fmul 0x3FF0000000000001 0x3FF0000000000001) * 2 ^ 1074 := by exact_mod_cast h
  rw [val_eq_units, val_eq_units, val_eq_units]
  have hp : (2 : ℚ) ^ 1074 ≠ 0 := by positivity
  generalize (2 : ℚ) ^ 1074 = p at h' hp
  field_simp
  linear_combination h'
/-- 1.0 and -1.0 have an exact sum, +0, and -3.0 and +0 have an exact product, -0. -/
theorem test_witness_exact_results : IsFinite (fadd 0x3FF0000000000000 0xBFF0000000000000) ∧
    val (fadd 0x3FF0000000000000 0xBFF0000000000000) = val 0x3FF0000000000000 + val 0xBFF0000000000000 ∧
    IsFinite 0xC008000000000000 ∧ IsFinite (fmul 0xC008000000000000 0) ∧
    val (fmul 0xC008000000000000 0) = val 0xC008000000000000 * val 0 := by
  have h : fadd 0x3FF0000000000000 0xBFF0000000000000 = 0 := by decide +kernel
  have h0 : fmul 0xC008000000000000 0 = 0x8000000000000000 := by decide +kernel
  have hs : units 0x3FF0000000000000 + units 0xBFF0000000000000 = 0 := by decide +kernel
  refine ⟨by decide +kernel, ?_, by decide, by decide +kernel, ?_⟩
  · rw [h, val_eq_units, val_eq_units, val_eq_units, ← add_div, ← Int.cast_add, hs, show units 0 = 0 by decide]
  · rw [h0, val_eq_units 0, val_eq_units 0x8000000000000000, show units 0 = 0 by decide,
      show units 0x8000000000000000 = 0 by decide]
    simp
/-- Equal values of different words are the zeros. -/
theorem test_witness_equal_values : IsFinite 0 ∧ IsFinite 0x8000000000000000 ∧ val 0 = val 0x8000000000000000 := by
  refine ⟨by decide, by decide, ?_⟩
  rw [val_eq_units, val_eq_units]
  norm_num [show units 0 = 0 by decide, show units 0x8000000000000000 = 0 by decide]
/-- An exact zero sum, of 1.0 and -1.0. -/
theorem test_witness_zero_sum : IsFinite 0x3FF0000000000000 ∧ IsFinite 0xBFF0000000000000 ∧
    val 0x3FF0000000000000 + val 0xBFF0000000000000 = 0 := by
  refine ⟨by decide, by decide, ?_⟩
  have h : units 0x3FF0000000000000 + units 0xBFF0000000000000 = 0 := by decide +kernel
  rw [val_eq_units, val_eq_units, ← add_div, ← Int.cast_add, h]
  simp
/-- The classes that the case lists of `fadd`, `fmul` and `fma` name. -/
theorem test_witness_cases : IsNan 0x7FF8000000000000 ∧ IsInf 0x7FF0000000000000 ∧ IsInf 0xFFF0000000000000 ∧
    IsZero 0 ∧ IsZero 0x8000000000000000 ∧ IsFinite 0x0000000000000001 ∧ ¬ IsNan 0x7FEFFFFFFFFFFFFF ∧
    ¬ IsZero 0x0000000000000001 ∧ sign 0xFFF0000000000000 ≠ (sign 0 ^^ sign 0) := by decide
/-- `fadd` of infinities of opposite sign creates a NaN, for every value of the free `Config.nanDraw`. -/
theorem test_witness_created_nan : IsNan (fadd 0x7FF0000000000000 0xFFF0000000000000) := by
  have h : fadd 0x7FF0000000000000 0xFFF0000000000000 = qnan .fadd 0x7FF0000000000000 0xFFF0000000000000 0 := by
    unfold fadd
    rw [if_neg (by decide), if_pos (by decide), if_neg (by decide)]
    exact if_pos (by decide)
  have hq : ∀ x : Word, IsNan (x ||| 0x7FF8000000000000) := by
    intro x
    constructor
    · refine congrArg BitVec.toNat (a₂ := 2047#11) (BitVec.eq_of_getLsbD_eq fun i hi => ?_)
      interval_cases i <;> simp
    · intro h0
      have h1 : (x ||| 0x7FF8000000000000).extractLsb' 0 52 = 0 := BitVec.eq_of_toNat_eq h0
      have h2 := congrArg (fun v => v.getLsbD 51) h1
      simp at h2
  rw [h]
  exact hq _

end Sys2Proof.Tests
end

section
/-! SUPPORT. One step by the host's next event, and the outcomes of a transaction (00_scope.md R5, 60_exceptions.md R160).
Settles O9 and O10. -/

namespace Sys2Proof.Machine

/-! ## One step, by the host's next event -/

theorem step_of_idle {s : State} (h : s.host = []) : step s = .next s := by simp [step, fetch, h]

theorem step_of_reset {s : State} {rest : List HostEvent} (h : s.host = .reset :: rest) :
    step s = .next (applyReset rest) := by simp [step, fetch, h]

theorem step_of_command {s : State} {w : Cmd} {data : Word} {rest : List HostEvent} {i : Instr}
    (h : s.host = .transaction w data :: rest) (hd : decode w = .ok i) : step s = exec i (present s w data rest) := by
  simp [step, fetch, h, hd]

theorem step_of_noCommand {s : State} {w : Cmd} {data : Word} {rest : List HostEvent}
    (h : s.host = .transaction w data :: rest) (hd : NoCommand w) : step s = illegalWord (present s w data rest) := by
  obtain ⟨e, he⟩ := hd
  simp [step, fetch, h, he]

/-- The GETS word decodes, so a word that is ignored as another command or as none is not that word (R82, R163). -/
theorem decode_getsWord : decode 0x0C000000 = .ok .gets := rfl

/-- A transaction's word is a command or no command. -/
theorem decode_ok_or_noCommand (w : Cmd) : (∃ i, decode w = .ok i) ∨ NoCommand w := by
  cases hd : decode w with
  | ok i => exact .inl ⟨i, rfl⟩
  | error e => exact .inr ⟨e, hd⟩

/-! ## The three outcomes of a transaction (60_exceptions.md R160) -/

/-- What R160 allows the next state `t` of a transaction with command word `w`, presented in state `s`, to be: OK, FAULT or
HALTED. -/
def OneOutcome (w : Cmd) (s t : State) : Prop :=
  (∃ rd, t.answer = some ⟨.ok, rd⟩ ∧ t.status.fault = s.status.fault ∧ t.status.fcmd = s.status.fcmd ∧
    (rd ≠ 0 → ∃ i, decode w = .ok i ∧ (i = .gets ∨ ∃ r, i = .get r))) ∨
  (¬ Halted s ∧ ∃ c, c ≠ .none ∧ FaultsWith s c (.next t)) ∨
  (Halted s ∧ w ≠ 0x0C000000 ∧ t = answered s .halted 0)

section
variable {w : Cmd} {s t : State}

/-- A command that answers OK with `rdata = 0` and records no fault. -/
theorem OneOutcome.of_ok_zero (ha : t.answer = some ⟨.ok, 0⟩) (hf : t.status.fault = s.status.fault)
    (hc : t.status.fcmd = s.status.fcmd) : OneOutcome w s t :=
  .inl ⟨0, ha, hf, hc, fun h => absurd rfl h⟩

theorem OneOutcome.of_raise {c : FaultCode} (hh : ¬ Halted s) (hc : c ≠ .none) :
    OneOutcome w s (answered (faultState c s) .fault 0) :=
  .inr (.inl ⟨hh, c, hc, rfl⟩)

/-- No command raises the code 0, which records no fault. -/
theorem canRaise_ne_none {i : Instr} {c : FaultCode} (h : canRaise i c = true) : c ≠ .none := by
  rintro rfl
  cases h

/-- The next state of every command is one of the three outcomes. -/
theorem oneOutcome_of_exec {i : Instr} (hd : decode w = .ok i) (h : exec i s = .next t) : OneOutcome w s t := by
  cases exec_shape h with
  | halted hh hi ht =>
    refine .inr (.inr ⟨hh, ?_, ht⟩)
    rintro rfl
    exact hi (Except.ok.inj (hd.symm.trans decode_getsWord))
  | faulted hh c hi ht =>
    subst ht
    rcases hi with ⟨-, rfl⟩ | hc
    · exact .of_raise hh (by decide)
    · exact .of_raise hh (canRaise_ne_none hc)
  | gets hi ht =>
    subst ht
    exact .inl ⟨statusWord s.status, rfl, rfl, rfl, fun _ => ⟨i, hd, .inl hi⟩⟩
  | get hh rs x hi hr ht =>
    subst ht
    exact .inl ⟨x, rfl, rfl, rfl, fun _ => ⟨i, hd, .inr ⟨rs, hi⟩⟩⟩
  | lock hh hi ht => subst ht; exact .of_ok_zero rfl rfl rfl
  | twr hh pa ri g k d hi hp hr hk ht => subst ht; exact .of_ok_zero rfl rfl rfl
  | cwr hh ra b k x hi hp hr ht => subst ht; exact .of_ok_zero rfl rfl rfl
  | reg hh rd x hd' ht => subst ht; exact .of_ok_zero rfl rfl rfl
  | pair hh p d hd' ht => subst ht; exact .of_ok_zero rfl rfl rfl

/-- The next state of a word that spells no command is one of the three outcomes. -/
theorem oneOutcome_of_illegalWord (hd : NoCommand w) (h : illegalWord s = .next t) : OneOutcome w s t := by
  rcases illegalWord_next h with ⟨hh, ht⟩ | ⟨hh, rfl⟩
  · refine .inr (.inr ⟨hh, ?_, ht⟩)
    rintro rfl
    obtain ⟨e, he⟩ := hd
    cases decode_getsWord.symm.trans he
  · exact .of_raise hh (by decide)

end

end Sys2Proof.Machine

open Sys2Proof Sys2Proof.Machine

/-- Settles O9: `step` by the host's next event. -/
theorem stepServesOneHostEvent : Obligations.StepServesOneHostEvent := fun _ =>
  ⟨step_of_idle, fun _ => step_of_reset, fun _ _ _ _ => step_of_command, fun _ _ _ => step_of_noCommand⟩

/-- Settles O10: the word is a command, whose next state has one of the shapes of `ExecShape`, or none, which is ILLEGAL or
ignored. -/
theorem everyTransactionHasOneOutcome : Obligations.EveryTransactionHasOneOutcome := by
  intro s w data rest hs
  rcases decode_ok_or_noCommand w with ⟨i, hd⟩ | hd
  · obtain ⟨t, ht⟩ := exec_answers i (present s w data rest)
    exact ⟨t, (step_of_command hs hd).trans ht, oneOutcome_of_exec hd ht⟩
  · obtain ⟨t, ht⟩ : ∃ t, illegalWord (present s w data rest) = .next t := command_answers ⟨_, rfl⟩
    exact ⟨t, (step_of_noCommand hs hd).trans ht, oneOutcome_of_illegalWord hd ht⟩
end

section
/-! SUPPORT. The magnitude of a word as a function of its low 63 bits (00_scope.md R11). Settles O55. -/

namespace Sys2Proof.Machine

/-! ## Magnitudes by the low 63 bits (00_scope.md R11)

The exponent field and the mantissa of a word are one number, and the magnitude is a strictly rising function of it. -/

/-- The low 63 bits of a word as a number. -/
def lowBits (w : Word) : Nat := bexp w * 2 ^ 52 + mant w

/-- The magnitude, in units of 2^-1074, that low bits stand for; a number past the 63 bits continues R11's formula to exponents
that no word has, as the rounding does before it overflows. -/
def magOfBits (n : Nat) : Nat := if n / 2 ^ 52 = 0 then n % 2 ^ 52 else (2 ^ 52 + n % 2 ^ 52) * 2 ^ (n / 2 ^ 52 - 1)

/-- The low bits of an infinity; those of a finite word are below. -/
abbrev infBits : Nat := 2047 * 2 ^ 52

theorem magUnits_eq (w : Word) : magUnits w = magOfBits (lowBits w) := by
  have hm := mant_lt w
  have hdiv : lowBits w / 2 ^ 52 = bexp w := by unfold lowBits; omega
  have hmod : lowBits w % 2 ^ 52 = mant w := by unfold lowBits; omega
  rw [magUnits, magOfBits, hdiv, hmod]

theorem lowBits_signMag (s : Bool) {n : Nat} (h : n < 2 ^ 63) : lowBits (signMag s n) = n := by
  rw [lowBits, bexp_signMag s h, mant_signMag s h, Nat.div_add_mod']

theorem isFinite_iff (w : Word) : IsFinite w ↔ lowBits w < infBits := by
  have := bexp_lt w
  have := mant_lt w
  unfold IsFinite lowBits infBits
  omega

theorem isInf_iff (w : Word) : IsInf w ↔ lowBits w = infBits := by
  have := bexp_lt w
  have := mant_lt w
  unfold IsInf lowBits infBits
  omega

theorem isNan_iff (w : Word) : IsNan w ↔ infBits < lowBits w := by
  have := bexp_lt w
  have := mant_lt w
  unfold IsNan lowBits infBits
  omega

theorem isZero_iff (w : Word) : IsZero w ↔ lowBits w = 0 := by
  unfold IsZero lowBits
  omega

/-- The last bit of the mantissa is the parity of the low bits. -/
theorem getLsbD_zero_eq (w : Word) : w.getLsbD 0 = decide (lowBits w % 2 = 1) := by
  have h : lowBits w % 2 = w.toNat % 2 := by
    rw [lowBits, bexp_eq, mant_eq]
    omega
  rw [h, BitVec.getLsbD, Nat.testBit_zero]

/-- Two words of one sign and one number of low bits are one word. -/
theorem eq_of_sign_lowBits {v w : Word} (hs : sign v = sign w) (h : lowBits v = lowBits w) : v = w := by
  have := mant_lt v
  have := mant_lt w
  unfold lowBits at h
  exact eq_of_fields hs (by omega) (by omega)

/-- Every number of low bits is a binade `e` and a significand `r` of at most 53 bits, with all of them in use above the first
binade. -/
theorem exists_binade (n : Nat) : ∃ e r, n = e * 2 ^ 52 + r ∧ r < 2 ^ 53 ∧ (e = 0 ∨ 2 ^ 52 ≤ r) := by
  refine ⟨n / 2 ^ 52 - 1, n - (n / 2 ^ 52 - 1) * 2 ^ 52, ?_⟩
  omega

/-- The magnitude is the significand scaled to its binade, the carry to `2^53` included. -/
theorem magOfBits_binade {e r : Nat} (hr : r ≤ 2 ^ 53) (he : e = 0 ∨ 2 ^ 52 ≤ r) :
    magOfBits (e * 2 ^ 52 + r) = r * 2 ^ e := by
  unfold magOfBits
  rcases Nat.lt_or_ge r (2 ^ 52) with h | h
  · obtain rfl : e = 0 := by omega
    rw [if_pos (by omega), pow_zero]
    omega
  · rcases Nat.lt_or_eq_of_le hr with h' | rfl
    · rw [show (e * 2 ^ 52 + r) / 2 ^ 52 = e + 1 by omega, show (e * 2 ^ 52 + r) % 2 ^ 52 = r - 2 ^ 52 by omega,
        if_neg (Nat.succ_ne_zero e), Nat.add_sub_cancel, Nat.add_sub_cancel' h]
    · rw [show (e * 2 ^ 52 + 2 ^ 53) / 2 ^ 52 = e + 2 by omega, show (e * 2 ^ 52 + 2 ^ 53) % 2 ^ 52 = 0 by omega,
        if_neg (Nat.succ_ne_zero _), show e + 2 - 1 = e + 1 by omega]
      ring

theorem magOfBits_strictMono : StrictMono magOfBits := by
  refine strictMono_nat_of_lt_succ fun n => ?_
  obtain ⟨e, r, rfl, hr, he⟩ := exists_binade n
  rw [magOfBits_binade hr.le he, Nat.add_assoc, magOfBits_binade hr (by omega)]
  exact Nat.mul_lt_mul_of_pos_right (Nat.lt_succ_self r) (by positivity)

/-- The magnitude that the first overflowing number stands for, `2^1024` in units. -/
theorem magOfBits_infBits : magOfBits infBits = 2 ^ 53 * 2 ^ 2045 := by
  rw [show infBits = 2045 * 2 ^ 52 + 2 ^ 53 by norm_num, magOfBits_binade le_rfl (.inr (by norm_num))]

/-- The magnitude of the largest finite word, `2^1024 - 2^971` in units. -/
theorem magOfBits_maxBits : magOfBits (infBits - 1) = (2 ^ 53 - 1) * 2 ^ 2045 := by
  rw [show infBits - 1 = 2045 * 2 ^ 52 + (2 ^ 53 - 1) by norm_num,
    magOfBits_binade (Nat.sub_le _ _) (.inr (by norm_num))]

/-! ## Values of words -/

theorem natAbs_units (w : Word) : (units w).natAbs = magUnits w := by
  unfold units
  split <;> simp

theorem units_signMag (s : Bool) {n : Nat} (h : n < 2 ^ 63) :
    units (signMag s n) = if s then -(magOfBits n : Int) else (magOfBits n : Int) := by
  rw [units, sign_signMag s h, magUnits_eq, lowBits_signMag s h]

theorem abs_val (w : Word) : |val w| = (magOfBits (lowBits w) : ℚ) / 2 ^ 1074 := by
  rw [val_eq_units, abs_div, abs_of_pos (show (0 : ℚ) < 2 ^ 1074 by positivity), ← Int.cast_abs, Int.abs_eq_natAbs,
    natAbs_units, magUnits_eq, Int.cast_natCast]

theorem val_of_not_sign {w : Word} (h : sign w = false) : val w = (magOfBits (lowBits w) : ℚ) / 2 ^ 1074 := by
  rw [val_eq_units, units, h, magUnits_eq]
  simp

/-- The value of the largest finite magnitude (R12). -/
theorem maxValue_eq : (magOfBits (infBits - 1) : ℚ) / 2 ^ 1074 = 2 ^ 1024 - 2 ^ 971 := by
  rw [magOfBits_maxBits, show (2045 : ℕ) = 971 + 1074 from rfl, pow_add, ← mul_assoc, Nat.cast_mul _ (2 ^ 1074),
    Nat.cast_pow 2 1074, Nat.cast_ofNat, mul_div_cancel_right₀ _ (by positivity), Nat.cast_mul, Nat.cast_pow 2 971,
    Nat.cast_ofNat, show (1024 : ℕ) = 53 + 971 from rfl, pow_add, ← sub_one_mul]
  congr 1
  norm_num

theorem magUnits_eq_zero_iff (w : Word) : magUnits w = 0 ↔ IsZero w := by
  rw [magUnits_eq, isZero_iff]
  exact magOfBits_strictMono.injective.eq_iff' rfl

theorem units_eq_of_val_eq {v w : Word} (h : val v = val w) : units v = units w := by
  rw [val_eq_units, val_eq_units, div_left_inj' (by positivity)] at h
  exact_mod_cast h

/-- Words of one value have one number of low bits. -/
theorem lowBits_eq_of_units_eq {v w : Word} (h : units v = units w) : lowBits v = lowBits w := by
  apply magOfBits_strictMono.injective
  rw [← magUnits_eq, ← magUnits_eq, ← natAbs_units, ← natAbs_units, h]

/-- Two words of one value are one word, or the two zeros. -/
theorem eq_or_isZero_of_units_eq {v w : Word} (h : units v = units w) : v = w ∨ IsZero v ∧ IsZero w := by
  have hbits := lowBits_eq_of_units_eq h
  by_cases hs : sign v = sign w
  · exact .inl (eq_of_sign_lowBits hs hbits)
  · have hmag : magUnits v = magUnits w := by rw [magUnits_eq, magUnits_eq, hbits]
    have hneg : units v = -units w := by
      rw [units, units, hmag, Bool.eq_not_of_ne hs]
      cases sign w <;> simp
    have hzero : magUnits w = 0 := by
      rw [← natAbs_units]
      omega
    rw [← magUnits_eq_zero_iff, ← magUnits_eq_zero_iff, hmag]
    exact .inr ⟨hzero, hzero⟩

end Sys2Proof.Machine

open Sys2Proof Sys2Proof.Machine

/-- Settles O55: magnitudes rise strictly with the low bits, of which `0x7FEFFFFFFFFFFFFF` has the most below the infinity. -/
theorem largestFiniteValue : Obligations.LargestFiniteValue := by
  refine ⟨?_, fun w hw => ?_, fun v w _ _ h => eq_or_isZero_of_units_eq (units_eq_of_val_eq h)⟩
  · rw [val_of_not_sign (by decide), show lowBits 0x7FEFFFFFFFFFFFFF = infBits - 1 by decide, maxValue_eq]
  · rw [abs_val, ← maxValue_eq, div_le_div_iff_of_pos_right (by positivity), Nat.cast_le]
    exact magOfBits_strictMono.monotone (Nat.le_pred_of_lt ((isFinite_iff w).mp hw))
end

section
/-! SUPPORT. The model's rounding is round to nearest, ties to even (00_scope.md R12). Settles O56. -/

namespace Sys2Proof.Machine

/-! ## Rounding of a magnitude (00_scope.md R12) -/

/-- `m / P` rounded to nearest, ties to even, from the quotient `k` and the remainder `rest`: the step of `rneMag`. -/
def roundQuotient (k rest P : Nat) : Nat := if P < 2 * rest ∨ P = 2 * rest ∧ k % 2 = 1 then k + 1 else k

/-- The low bits that `rneMag` computes before it cuts them off at the infinity. -/
def roundBits (m : Nat) : Nat :=
  let p := max (Nat.log2 m - 52) 1074
  (p - 1074) * 2 ^ 52 + roundQuotient (m / 2 ^ p) (m % 2 ^ p) (2 ^ p)

theorem rneMag_eq (m : Nat) : rneMag m = min (roundBits m) infBits := rfl

/-- The multiple of `P` that the rounded quotient stands for is, of all numbers outside the gap around `m`, the nearest to `m`;
the rounded quotient is even where another one is equally near. -/
theorem roundQuotient_nearest {k rest P : Nat} (h : rest < P) {x : ℤ} (hx : x ≤ k * P ∨ (k + 1) * P ≤ x) :
    |(roundQuotient k rest P * P : ℤ) - (k * P + rest)| ≤ |x - (k * P + rest)| ∧
      (x ≠ roundQuotient k rest P * P →
        |x - (k * P + rest)| = |(roundQuotient k rest P * P : ℤ) - (k * P + rest)| → roundQuotient k rest P % 2 = 0) := by
  unfold roundQuotient
  rw [add_one_mul] at hx
  split
  · push_cast
    rw [add_one_mul]
    generalize (k * P : ℤ) = A at *
    grind
  · generalize (k * P : ℤ) = A at *
    grind

/-- The binade in which `m` is rounded, the kept part and the rest. The kept part has at most 53 bits, and all of them above the
first binade. -/
theorem roundBits_spec (m : Nat) : ∃ e k rest, m = k * 2 ^ (e + 1074) + rest ∧ rest < 2 ^ (e + 1074) ∧ k < 2 ^ 53 ∧
    (e = 0 ∨ 2 ^ 52 ≤ k) ∧ roundBits m = e * 2 ^ 52 + roundQuotient k rest (2 ^ (e + 1074)) := by
  obtain ⟨e, he⟩ : ∃ e, max (Nat.log2 m - 52) 1074 = e + 1074 := ⟨_, (Nat.sub_add_cancel (le_max_right _ _)).symm⟩
  refine ⟨e, m / 2 ^ (e + 1074), m % 2 ^ (e + 1074), (Nat.div_add_mod' _ _).symm, Nat.mod_lt _ (by positivity), ?_, ?_, ?_⟩
  · rw [Nat.div_lt_iff_lt_mul (by positivity), ← pow_add]
    exact Nat.lt_log2_self.trans_le (Nat.pow_le_pow_right (by norm_num) (by omega))
  · refine or_iff_not_imp_left.mpr fun h0 => ?_
    have hm : m ≠ 0 := by
      rintro rfl
      rw [Nat.log2_zero] at he
      omega
    rw [Nat.le_div_iff_mul_le (by positivity), ← pow_add, show 52 + (e + 1074) = Nat.log2 m by omega]
    exact Nat.log2_self_le hm
  · simp only [roundBits, he, Nat.add_sub_cancel]

theorem roundQuotient_le (k rest P : Nat) : k ≤ roundQuotient k rest P ∧ roundQuotient k rest P ≤ k + 1 := by
  unfold roundQuotient
  split <;> simp

/-- No magnitude of either sign lies strictly between two neighbours of one binade. -/
theorem magOfBits_gap {e k n : Nat} (hk : k < 2 ^ 53) (he : e = 0 ∨ 2 ^ 52 ≤ k) {x : ℤ} (hx : x.natAbs = magOfBits n) :
    x ≤ k * 2 ^ e ∨ (k + 1) * 2 ^ e ≤ x := by
  have hlow : magOfBits (e * 2 ^ 52 + k) = k * 2 ^ e := magOfBits_binade hk.le he
  have hhigh : magOfBits (e * 2 ^ 52 + (k + 1)) = (k + 1) * 2 ^ e := magOfBits_binade hk (by omega)
  rcases le_or_gt x 0 with h0 | h0
  · exact .inl (h0.trans (by positivity))
  obtain rfl : x = (magOfBits n : ℤ) := by omega
  rcases Nat.lt_or_ge n (e * 2 ^ 52 + (k + 1)) with h | h
  · exact .inl (by exact_mod_cast hlow ▸ magOfBits_strictMono.monotone (Nat.le_of_lt_succ h))
  · exact .inr (by exact_mod_cast hhigh ▸ magOfBits_strictMono.monotone h)

/-- The rounded low bits stand for the nearest to `m` of all magnitudes of either sign, and are even where another one is equally
near. Magnitudes are in units of 2^-1074, `m` in units of 2^-2148. -/
theorem roundBits_nearest (m : Nat) {x : ℤ} {n : Nat} (hx : x.natAbs = magOfBits n) :
    |(magOfBits (roundBits m) * 2 ^ 1074 : ℤ) - m| ≤ |x * 2 ^ 1074 - m| ∧
      (x ≠ magOfBits (roundBits m) →
        |x * 2 ^ 1074 - m| = |(magOfBits (roundBits m) * 2 ^ 1074 : ℤ) - m| → roundBits m % 2 = 0) := by
  obtain ⟨e, k, rest, hm, hrest, hk, he, hr⟩ := roundBits_spec m
  obtain ⟨hkr, hrk⟩ := roundQuotient_le k rest (2 ^ (e + 1074))
  have hmag : magOfBits (roundBits m) = roundQuotient k rest (2 ^ (e + 1074)) * 2 ^ e := by
    rw [hr]
    exact magOfBits_binade (by omega) (by omega)
  have hparity : roundBits m % 2 = roundQuotient k rest (2 ^ (e + 1074)) % 2 := by omega
  have hpow : ((2 ^ (e + 1074) : ℕ) : ℤ) = 2 ^ e * 2 ^ 1074 := by rw [Nat.cast_pow]; exact pow_add _ _ _
  have hgap : x * 2 ^ 1074 ≤ k * (2 ^ (e + 1074) : ℕ) ∨ (k + 1) * (2 ^ (e + 1074) : ℕ) ≤ x * 2 ^ 1074 := by
    rw [hpow, ← mul_assoc, ← mul_assoc]
    exact (magOfBits_gap hk he hx).imp (mul_le_mul_of_nonneg_right · (by positivity))
      (mul_le_mul_of_nonneg_right · (by positivity))
  have hm' : (m : ℤ) = k * (2 ^ (e + 1074) : ℕ) + rest := by exact_mod_cast hm
  have hmul : ((magOfBits (roundBits m) : ℤ)) * 2 ^ 1074 =
      roundQuotient k rest (2 ^ (e + 1074)) * (2 ^ (e + 1074) : ℕ) := by
    rw [hmag, hpow, Nat.cast_mul, Nat.cast_pow, mul_assoc]
    rfl
  obtain ⟨hle, htie⟩ := roundQuotient_nearest hrest hgap
  rw [hmul, hm', hparity]
  refine ⟨hle, fun hne => htie ?_⟩
  rwa [← hmul, Ne, mul_left_inj' (by positivity)]

/-- Half the gap above the largest finite magnitude, in units of 2^-2148: `2^970`. -/
abbrev halfGap : ℤ := 2 ^ 970 * 2 ^ 2148

theorem two_mul_halfGap : (2 : ℤ) ^ 2045 * 2 ^ 1074 = 2 * halfGap := by
  rw [← pow_add, halfGap, ← pow_add, ← pow_succ']

theorem magOfBits_infBits_scaled : (magOfBits infBits : ℤ) * 2 ^ 1074 = 2 ^ 54 * halfGap := by
  rw [magOfBits_infBits, Nat.cast_mul, Nat.cast_pow 2 2045, Nat.cast_ofNat, mul_assoc, two_mul_halfGap, ← mul_assoc]
  norm_num only

theorem magOfBits_maxBits_scaled : (magOfBits (infBits - 1) : ℤ) * 2 ^ 1074 = (2 ^ 54 - 2) * halfGap := by
  rw [magOfBits_maxBits, Nat.cast_mul, Nat.cast_pow 2 2045, Nat.cast_ofNat, mul_assoc, two_mul_halfGap, ← mul_assoc]
  norm_num only

/-- Rounding overflows exactly from `2^1024 - 2^970` on, half-way between the largest finite magnitude and the `2^1024` that no
word has: the half-way number itself goes to the even one of the two. -/
theorem infBits_le_roundBits_iff (m : Nat) : infBits ≤ roundBits m ↔ (2 ^ 54 - 1) * halfGap ≤ m := by
  obtain ⟨hmax, -⟩ := roundBits_nearest m (x := magOfBits (infBits - 1)) (n := infBits - 1) (Int.natAbs_natCast _)
  obtain ⟨hinf, htie⟩ := roundBits_nearest m (x := magOfBits infBits) (n := infBits) (Int.natAbs_natCast _)
  rw [magOfBits_maxBits_scaled] at hmax
  rw [magOfBits_infBits_scaled] at hinf htie
  have hpos : 0 < halfGap := by positivity
  constructor
  · intro h
    have hM : 2 ^ 54 * halfGap ≤ magOfBits (roundBits m) * 2 ^ 1074 := by
      rw [← magOfBits_infBits_scaled]
      exact mul_le_mul_of_nonneg_right (by exact_mod_cast magOfBits_strictMono.monotone h) (by positivity)
    generalize (magOfBits (roundBits m) * 2 ^ 1074 : ℤ) = M at *
    generalize halfGap = g at *
    clear htie hinf
    grind
  · intro h
    by_contra hlt
    have hlt : roundBits m < infBits := Nat.lt_of_not_le hlt
    have hM : magOfBits (roundBits m) * 2 ^ 1074 ≤ (2 ^ 54 - 2) * halfGap := by
      rw [← magOfBits_maxBits_scaled]
      exact mul_le_mul_of_nonneg_right (by exact_mod_cast magOfBits_strictMono.monotone (Nat.le_pred_of_lt hlt)) (by positivity)
    have hne : (magOfBits infBits : ℤ) ≠ magOfBits (roundBits m) := by
      exact_mod_cast (magOfBits_strictMono hlt).ne'
    have heven := htie hne
    have hodd : (magOfBits (roundBits m) * 2 ^ 1074 : ℤ) = (2 ^ 54 - 2) * halfGap → roundBits m = infBits - 1 := by
      rw [← magOfBits_maxBits_scaled, mul_left_inj' (by positivity), Nat.cast_inj]
      exact (magOfBits_strictMono.injective ·)
    generalize (magOfBits (roundBits m) * 2 ^ 1074 : ℤ) = M at *
    generalize halfGap = g at *
    grind

/-! ## `rne` against R12's words -/

theorem rneMag_le (m : Nat) : rneMag m ≤ infBits := min_le_right _ _

theorem rneMag_lt (m : Nat) : rneMag m < 2 ^ 63 := (rneMag_le m).trans_lt (by norm_num)

theorem rneMag_of_lt {m : Nat} (h : roundBits m < infBits) : rneMag m = roundBits m := by
  rw [rneMag_eq, min_eq_left h.le]

theorem rneMag_of_le {m : Nat} (h : infBits ≤ roundBits m) : rneMag m = infBits := by
  rw [rneMag_eq, min_eq_right h]

theorem rne_zero (zs : Bool) : rne 0 zs = zeroWord zs := if_pos rfl

theorem rne_of_ne_zero {q : ℤ} (h : q ≠ 0) (zs : Bool) : rne q zs = signMag (decide (q < 0)) (rneMag q.natAbs) := if_neg h

theorem sign_rne {q : ℤ} (h : q ≠ 0) (zs : Bool) : sign (rne q zs) = decide (q < 0) := by
  rw [rne_of_ne_zero h, sign_signMag _ (rneMag_lt _)]

theorem lowBits_rne {q : ℤ} (h : q ≠ 0) (zs : Bool) : lowBits (rne q zs) = rneMag q.natAbs := by
  rw [rne_of_ne_zero h, lowBits_signMag _ (rneMag_lt _)]

/-- The distance of `y` from `q`, with both turned to the side where `q` is positive. -/
theorem abs_sub_eq_abs_sign_mul_sub {q : ℤ} (h : q ≠ 0) (y : ℤ) : |y - q| = |q.sign * y - q.natAbs| := by
  rcases lt_or_gt_of_ne h with h | h
  · rw [Int.sign_eq_neg_one_of_neg h, ← abs_neg, show (q.natAbs : ℤ) = -q by omega]
    congr 1
    ring
  · rw [Int.sign_eq_one_of_pos h, one_mul, show (q.natAbs : ℤ) = q by omega]

/-- A word that was rounded from `q` has the sign of `q` and the magnitude of its low bits. -/
theorem sign_mul_units_rne {q : ℤ} (h : q ≠ 0) (zs : Bool) : q.sign * units (rne q zs) = magOfBits (rneMag q.natAbs) := by
  rw [rne_of_ne_zero h, units_signMag _ (rneMag_lt _)]
  rcases lt_or_gt_of_ne h with h | h
  · simp [Int.sign_eq_neg_one_of_neg h, h]
  · simp [Int.sign_eq_one_of_pos h, h.le]

theorem natAbs_sign_mul_units {q : ℤ} (h : q ≠ 0) (v : Word) : (q.sign * units v).natAbs = magOfBits (lowBits v) := by
  rw [Int.natAbs_mul, Int.natAbs_sign_of_ne_zero h, one_mul, natAbs_units, magUnits_eq]

/-- The rounding of a number that does not overflow is the nearest word, the even one where two are equally near. -/
theorem rne_nearest {q : ℤ} (h0 : q ≠ 0) (zs : Bool) (hlt : roundBits q.natAbs < infBits) (v : Word) :
    |units (rne q zs) * 2 ^ 1074 - q| ≤ |units v * 2 ^ 1074 - q| ∧
      (units v ≠ units (rne q zs) → |units v * 2 ^ 1074 - q| = |units (rne q zs) * 2 ^ 1074 - q| →
        (rne q zs).getLsbD 0 = false) := by
  have hbits : rneMag q.natAbs = roundBits q.natAbs := rneMag_of_lt hlt
  have hsign : q.sign ≠ 0 := mt Int.sign_eq_zero_iff_zero.mp h0
  obtain ⟨hle, htie⟩ := roundBits_nearest q.natAbs (natAbs_sign_mul_units h0 v)
  rw [← hbits, ← sign_mul_units_rne h0 zs, mul_assoc, mul_assoc, ← abs_sub_eq_abs_sign_mul_sub h0,
    ← abs_sub_eq_abs_sign_mul_sub h0] at hle htie
  refine ⟨hle, fun hne heq => ?_⟩
  have heven := htie (fun h => hne (mul_left_cancel₀ hsign h)) heq
  rw [getLsbD_zero_eq, lowBits_rne h0, heven]
  rfl

/-! ## From units to values -/

/-- The value in units of 2^-2148, in which sums and products are held. -/
theorem val_eq_scaled (w : Word) : val w = ((units w * 2 ^ 1074 : ℤ) : ℚ) / 2 ^ 2148 := by
  rw [val_eq_units, div_eq_div_iff (by positivity) (by positivity), Int.cast_mul, Int.cast_pow, Int.cast_ofNat, mul_assoc,
    ← pow_add]

theorem abs_val_sub (w : Word) (q : ℤ) :
    |val w - (q : ℚ) / 2 ^ 2148| = ((|units w * 2 ^ 1074 - q| : ℤ) : ℚ) / 2 ^ 2148 := by
  rw [val_eq_scaled, ← sub_div, ← Int.cast_sub, abs_div, abs_of_pos (show (0 : ℚ) < 2 ^ 2148 by positivity),
    ← Int.cast_abs]

theorem abs_val_sub_le_iff (v w : Word) (q : ℤ) : |val w - (q : ℚ) / 2 ^ 2148| ≤ |val v - (q : ℚ) / 2 ^ 2148| ↔
    |units w * 2 ^ 1074 - q| ≤ |units v * 2 ^ 1074 - q| := by
  rw [abs_val_sub, abs_val_sub, div_le_div_iff_of_pos_right (by positivity), Int.cast_le]

theorem abs_val_sub_eq_iff (v w : Word) (q : ℤ) : |val v - (q : ℚ) / 2 ^ 2148| = |val w - (q : ℚ) / 2 ^ 2148| ↔
    |units v * 2 ^ 1074 - q| = |units w * 2 ^ 1074 - q| := by
  rw [abs_val_sub, abs_val_sub, div_left_inj' (by positivity), Int.cast_inj]

/-- R12's overflow bound `2^1024 - 2^970`, in units of 2^-2148. -/
theorem overflow_iff (q : ℤ) : 2 ^ 1024 - 2 ^ 970 ≤ |(q : ℚ) / 2 ^ 2148| ↔ infBits ≤ roundBits q.natAbs := by
  have h : (2 ^ 1024 - 2 ^ 970 : ℚ) * 2 ^ 2148 = ((2 ^ 54 - 1) * halfGap : ℤ) := by
    rw [halfGap, show (1024 : ℕ) = 54 + 970 from rfl, pow_add, ← sub_one_mul, mul_assoc]
    simp only [Int.cast_mul, Int.cast_sub, Int.cast_pow, Int.cast_ofNat, Int.cast_one]
  rw [infBits_le_roundBits_iff, abs_div, abs_of_pos (show (0 : ℚ) < 2 ^ 2148 by positivity), le_div_iff₀ (by positivity), h,
    ← Int.cast_abs, Int.cast_le, Int.abs_eq_natAbs]

theorem scaled_eq_zero_iff (q : ℤ) : (q : ℚ) / 2 ^ 2148 = 0 ↔ q = 0 := by
  rw [div_eq_zero_iff, or_iff_left (by positivity), Int.cast_eq_zero]

theorem scaled_lt_zero_iff (q : ℤ) : (q : ℚ) / 2 ^ 2148 < 0 ↔ q < 0 := by
  rw [div_lt_iff₀ (by positivity), zero_mul, Int.cast_lt_zero]

theorem zeroWord_spec (s : Bool) : IsZero (zeroWord s) ∧ sign (zeroWord s) = s := by
  cases s <;> decide

end Sys2Proof.Machine

open Sys2Proof Sys2Proof.Machine

/-- Settles O56: a zero, an overflow, or the nearest finite word. -/
theorem roundingIsToNearestEven : Obligations.RoundingIsToNearestEven := by
  intro q zs
  unfold IsRne
  rcases eq_or_ne q 0 with rfl | h0
  · rw [if_pos (by simp), rne_zero]
    exact zeroWord_spec zs
  have hsign : sign (rne q zs) = decide ((q : ℚ) / 2 ^ 2148 < 0) :=
    (sign_rne h0 zs).trans (decide_eq_decide.mpr (scaled_lt_zero_iff q).symm)
  rw [if_neg (div_ne_zero (Int.cast_ne_zero.mpr h0) (by positivity)), isInf_iff, isFinite_iff, lowBits_rne h0]
  split_ifs with h
  · exact ⟨rneMag_of_le ((overflow_iff q).mp h), hsign⟩
  · have hlt : roundBits q.natAbs < infBits := Nat.lt_of_not_le (mt (overflow_iff q).mpr h)
    refine ⟨(rneMag_of_lt hlt).trans_lt hlt, hsign, fun v _ => ?_, fun v _ hne heq => ?_⟩
    · exact (abs_val_sub_le_iff _ _ _).mpr (rne_nearest h0 zs hlt v).1
    · refine (rne_nearest h0 zs hlt v).2 (fun hu => hne ?_) ((abs_val_sub_eq_iff _ _ _).mp heq)
      rw [val_eq_units, val_eq_units, hu]
end

section
/-! SUPPORT. What `fadd`, `fneg`, `fmul` and `fma` give in each case of their rules (00_scope.md R13 to R16, R18). Settles O57
to O60. -/

namespace Sys2Proof.Machine

/-! ## Classes -/

section
variable {w : Word}

theorem not_isNan_of_isInf (h : IsInf w) : ¬ IsNan w := fun hn => hn.2 h.2

theorem not_isNan_of_isFinite (h : IsFinite w) : ¬ IsNan w := fun hn => h hn.1

theorem not_isInf_of_isFinite (h : IsFinite w) : ¬ IsInf w := fun hi => h hi.1

theorem not_isZero_of_isInf (h : IsInf w) : ¬ IsZero w := fun hz => by
  have := h.1.symm.trans hz.1
  omega

theorem not_isNan_of_isZero (h : IsZero w) : ¬ IsNan w := fun hn => hn.2 h.2

end

theorem isInf_infWord (s : Bool) : IsInf (infWord s) ∧ sign (infWord s) = s := by cases s <;> decide

theorem zeroWord_eq (s : Bool) : zeroWord s = if s then 0x8000000000000000 else 0 := by cases s <;> rfl

/-- Rounding never gives a NaN. -/
theorem not_isNan_rne (q : ℤ) (zs : Bool) : ¬ IsNan (rne q zs) := by
  rcases eq_or_ne q 0 with rfl | h0
  · rw [rne_zero]
    exact not_isNan_of_isZero (zeroWord_spec zs).1
  · rw [isNan_iff, lowBits_rne h0, Nat.not_lt]
    exact rneMag_le _

/-! ## The created NaN (00_scope.md R18) -/

/-- The bits that `qnan` forces make any word a quiet NaN. -/
theorem isQuietNan_or (w : Word) : IsQuietNan (w ||| 0x7FF8000000000000) := by
  constructor
  · refine congrArg BitVec.toNat (a₂ := 2047#11) (BitVec.eq_of_getLsbD_eq fun i hi => ?_)
    interval_cases i <;> simp
  · simp

theorem isQuietNan_qnan (op : ArithOp) (a b c : Word) : IsQuietNan (qnan op a b c) := isQuietNan_or _

theorem isQuietNan_qnanCommutative (op : ArithOp) (a b : Word) : IsQuietNan (qnanCommutative op a b) := by
  unfold qnanCommutative
  split <;> exact isQuietNan_qnan _ _ _ _

/-! ## `fneg` (00_scope.md R14) -/

theorem getLsbD_fneg (a : Word) (j : Nat) : (fneg a).getLsbD j = (a.getLsbD j ^^ decide (j = 63)) := by
  rw [fneg, show (0x8000000000000000 : Word) = BitVec.twoPow 64 63 from rfl, BitVec.getLsbD_xor, BitVec.getLsbD_twoPow]
  simp [eq_comm]

theorem getLsbD_fneg_of_lt (a : Word) {j : Nat} (h : j < 63) : (fneg a).getLsbD j = a.getLsbD j := by
  rw [getLsbD_fneg, decide_eq_false h.ne, Bool.xor_false]

@[simp] theorem sign_fneg (a : Word) : sign (fneg a) = !sign a :=
  (getLsbD_fneg a 63).trans (Bool.xor_true _)

@[simp] theorem bexp_fneg (a : Word) : bexp (fneg a) = bexp a := by
  refine congrArg BitVec.toNat (BitVec.eq_of_getLsbD_eq fun i hi => ?_)
  rw [BitVec.getLsbD_extractLsb', BitVec.getLsbD_extractLsb', getLsbD_fneg_of_lt a (by omega)]

@[simp] theorem mant_fneg (a : Word) : mant (fneg a) = mant a := by
  refine congrArg BitVec.toNat (BitVec.eq_of_getLsbD_eq fun i hi => ?_)
  rw [BitVec.getLsbD_extractLsb', BitVec.getLsbD_extractLsb', getLsbD_fneg_of_lt a (by omega)]

@[simp] theorem units_fneg (a : Word) : units (fneg a) = -units a := by
  unfold units magUnits
  cases h : sign a <;> simp [h]

/-! ## The cases of `fadd` (00_scope.md R13) -/

section
variable {a b : Word}

theorem fadd_of_isNan (h : IsNan a ∨ IsNan b) : IsQuietNan (fadd a b) := by
  rw [fadd, if_pos h]
  exact isQuietNan_qnanCommutative _ _ _

theorem fadd_of_isInf_isInf (ha : IsInf a) (hb : IsInf b) :
    fadd a b = if sign a = sign b then a else qnanCommutative .fadd a b := by
  rw [fadd, if_neg (not_or.mpr ⟨not_isNan_of_isInf ha, not_isNan_of_isInf hb⟩), if_pos ⟨ha, hb⟩]

theorem fadd_of_isInf_isFinite (ha : IsInf a) (hb : IsFinite b) : fadd a b = a := by
  rw [fadd, if_neg (not_or.mpr ⟨not_isNan_of_isInf ha, not_isNan_of_isFinite hb⟩),
    if_neg (fun h => not_isInf_of_isFinite hb h.2), if_pos ha]

theorem fadd_of_isFinite_isInf (ha : IsFinite a) (hb : IsInf b) : fadd a b = b := by
  rw [fadd, if_neg (not_or.mpr ⟨not_isNan_of_isFinite ha, not_isNan_of_isInf hb⟩),
    if_neg (fun h => not_isInf_of_isFinite ha h.1), if_neg (not_isInf_of_isFinite ha), if_pos hb]

theorem fadd_of_isFinite (ha : IsFinite a) (hb : IsFinite b) : fadd a b =
    if units a + units b = 0 then zeroWord (sign a && sign b) else rne ((units a + units b) * 2 ^ 1074) false := by
  rw [fadd, if_neg (not_or.mpr ⟨not_isNan_of_isFinite ha, not_isNan_of_isFinite hb⟩),
    if_neg (fun h => not_isInf_of_isFinite ha h.1), if_neg (not_isInf_of_isFinite ha), if_neg (not_isInf_of_isFinite hb)]

/-- The exact sum, as the integer that `fadd` rounds. -/
theorem val_add_val (a b : Word) : val a + val b = (((units a + units b) * 2 ^ 1074 : ℤ) : ℚ) / 2 ^ 2148 := by
  rw [val_eq_scaled, val_eq_scaled, ← add_div, ← Int.cast_add, ← add_mul]

theorem val_add_val_eq_zero_iff (a b : Word) : val a + val b = 0 ↔ units a + units b = 0 := by
  rw [val_add_val, scaled_eq_zero_iff, mul_eq_zero, or_iff_left (by positivity)]

/-- A NaN that `fadd` returns is one it created. -/
theorem fadd_isQuietNan_of_isNan : IsNan (fadd a b) → IsQuietNan (fadd a b) := by
  simp only [fadd]
  split_ifs with hn hii hs ha hb h0 <;> intro h
  · exact isQuietNan_qnanCommutative _ _ _
  · exact absurd h (not_isNan_of_isInf hii.1)
  · exact isQuietNan_qnanCommutative _ _ _
  · exact absurd h (not_isNan_of_isInf ha)
  · exact absurd h (not_isNan_of_isInf hb)
  · exact absurd h (not_isNan_of_isZero (zeroWord_spec _).1)
  · exact absurd h (not_isNan_rne _ _)

end

/-! ## The cases of `fmul` (00_scope.md R15) and `fma` (R16) -/

section
variable {a b c : Word}

/-- An infinity times something that is no zero is none of the products without a value. -/
theorem infinite_product (h : IsInf a ∧ ¬ IsZero b ∨ IsInf b ∧ ¬ IsZero a) :
    ¬ (IsInf a ∧ IsZero b ∨ IsZero a ∧ IsInf b) ∧ (IsInf a ∨ IsInf b) := by
  rcases h with ⟨hi, hz⟩ | ⟨hi, hz⟩
  · exact ⟨fun h => h.elim (fun h => hz h.2) (fun h => not_isZero_of_isInf hi h.1), .inl hi⟩
  · exact ⟨fun h => h.elim (fun h => not_isZero_of_isInf hi h.2) (fun h => hz h.1), .inr hi⟩

/-- A product of finite words is none of the products with an infinity. -/
theorem finite_product (ha : IsFinite a) (hb : IsFinite b) :
    ¬ (IsInf a ∧ IsZero b ∨ IsZero a ∧ IsInf b) ∧ ¬ (IsInf a ∨ IsInf b) := by
  have ha' := not_isInf_of_isFinite ha
  have hb' := not_isInf_of_isFinite hb
  exact ⟨fun h => h.elim (fun h => ha' h.1) (fun h => hb' h.2), not_or.mpr ⟨ha', hb'⟩⟩

theorem fmul_of_isNan (h : IsNan a ∨ IsNan b) : IsQuietNan (fmul a b) := by
  rw [fmul, if_pos h]
  exact isQuietNan_qnanCommutative _ _ _

theorem fmul_of_isInf_isZero (h : IsInf a ∧ IsZero b ∨ IsZero a ∧ IsInf b) : IsQuietNan (fmul a b) := by
  unfold fmul
  split_ifs <;> exact isQuietNan_qnanCommutative _ _ _

theorem fmul_of_isInf (hn : ¬ (IsNan a ∨ IsNan b)) (h : IsInf a ∧ ¬ IsZero b ∨ IsInf b ∧ ¬ IsZero a) :
    fmul a b = infWord (sign a ^^ sign b) := by
  obtain ⟨hz, hi⟩ := infinite_product h
  rw [fmul, if_neg hn, if_neg hz, if_pos hi]

theorem fmul_of_isFinite (ha : IsFinite a) (hb : IsFinite b) :
    fmul a b = rne (units a * units b) (sign a ^^ sign b) := by
  obtain ⟨hz, hi⟩ := finite_product ha hb
  rw [fmul, if_neg (not_or.mpr ⟨not_isNan_of_isFinite ha, not_isNan_of_isFinite hb⟩), if_neg hz, if_neg hi]

/-- The exact product, as the integer that `fmul` rounds. -/
theorem val_mul_val (a b : Word) : val a * val b = ((units a * units b : ℤ) : ℚ) / 2 ^ 2148 := by
  rw [val_eq_units, val_eq_units, div_mul_div_comm, ← Int.cast_mul, ← pow_add]

/-- A NaN that `fmul` returns is one it created. -/
theorem fmul_isQuietNan_of_isNan : IsNan (fmul a b) → IsQuietNan (fmul a b) := by
  unfold fmul
  split_ifs with hn hz hi <;> intro h
  · exact isQuietNan_qnanCommutative _ _ _
  · exact isQuietNan_qnanCommutative _ _ _
  · exact absurd h (not_isNan_of_isInf (isInf_infWord _).1)
  · exact absurd h (not_isNan_rne _ _)

theorem fma_of_isNan (h : IsNan a ∨ IsNan b ∨ IsNan c) : IsQuietNan (fma a b c) := by
  rw [fma, if_pos h]
  exact isQuietNan_qnan _ _ _ _

theorem fma_of_isInf_isZero (h : IsInf a ∧ IsZero b ∨ IsZero a ∧ IsInf b) : IsQuietNan (fma a b c) := by
  unfold fma
  split_ifs <;> exact isQuietNan_qnan _ _ _ _

theorem fma_of_isInf (hn : ¬ (IsNan a ∨ IsNan b ∨ IsNan c)) (h : IsInf a ∧ ¬ IsZero b ∨ IsInf b ∧ ¬ IsZero a) :
    fma a b c = if IsInf c ∧ sign c ≠ (sign a ^^ sign b) then qnan .fma a b c else infWord (sign a ^^ sign b) := by
  obtain ⟨hz, hi⟩ := infinite_product h
  rw [fma, if_neg hn, if_neg hz, if_pos hi]

theorem fma_of_isFinite_isInf (ha : IsFinite a) (hb : IsFinite b) (hc : IsInf c) : fma a b c = c := by
  obtain ⟨hz, hi⟩ := finite_product ha hb
  have hn : ¬ (IsNan a ∨ IsNan b ∨ IsNan c) :=
    not_or.mpr ⟨not_isNan_of_isFinite ha, not_or.mpr ⟨not_isNan_of_isFinite hb, not_isNan_of_isInf hc⟩⟩
  rw [fma, if_neg hn, if_neg hz, if_neg hi, if_pos hc]

theorem fma_of_isFinite (ha : IsFinite a) (hb : IsFinite b) (hc : IsFinite c) : fma a b c =
    if units a * units b + units c * 2 ^ 1074 = 0 then zeroWord ((sign a ^^ sign b) && sign c)
    else rne (units a * units b + units c * 2 ^ 1074) false := by
  obtain ⟨hz, hi⟩ := finite_product ha hb
  have hn : ¬ (IsNan a ∨ IsNan b ∨ IsNan c) :=
    not_or.mpr ⟨not_isNan_of_isFinite ha, not_or.mpr ⟨not_isNan_of_isFinite hb, not_isNan_of_isFinite hc⟩⟩
  rw [fma, if_neg hn, if_neg hz, if_neg hi, if_neg (not_isInf_of_isFinite hc)]

/-- The exact product plus addend, as the integer that `fma` rounds. -/
theorem val_mul_val_add_val (a b c : Word) :
    val a * val b + val c = ((units a * units b + units c * 2 ^ 1074 : ℤ) : ℚ) / 2 ^ 2148 := by
  rw [val_mul_val, val_eq_scaled, ← add_div, ← Int.cast_add]

theorem val_mul_val_add_val_eq_zero_iff (a b c : Word) :
    val a * val b + val c = 0 ↔ units a * units b + units c * 2 ^ 1074 = 0 := by
  rw [val_mul_val_add_val, scaled_eq_zero_iff]

/-- A NaN that `fma` returns is one it created. -/
theorem fma_isQuietNan_of_isNan : IsNan (fma a b c) → IsQuietNan (fma a b c) := by
  simp only [fma]
  split_ifs with hn hz hi ho hc h0 <;> intro h
  · exact isQuietNan_qnan _ _ _ _
  · exact isQuietNan_qnan _ _ _ _
  · exact isQuietNan_qnan _ _ _ _
  · exact absurd h (not_isNan_of_isInf (isInf_infWord _).1)
  · exact absurd h (not_isNan_of_isInf hc)
  · exact absurd h (not_isNan_of_isZero (zeroWord_spec _).1)
  · exact absurd h (not_isNan_rne _ _)

end

end Sys2Proof.Machine

open Sys2Proof Sys2Proof.Machine

/-- Settles O57: the operands' classes, then the rounding of the exact sum. -/
theorem faddIsTheRoundedSum : Obligations.FaddIsTheRoundedSum := by
  refine ⟨fun a b => ⟨fadd_of_isNan, fun ha hb => ?_, fadd_of_isInf_isFinite, fadd_of_isFinite_isInf, fun ha hb => ?_⟩,
    fun a b => ⟨rfl, fun h => fadd_of_isNan ?_, sign_fneg a, fun j => getLsbD_fneg_of_lt a⟩, fun x hx => ?_⟩
  · rw [fadd_of_isInf_isInf ha hb]
    refine ⟨fun h => if_pos h, fun h => ?_⟩
    rw [if_neg h]
    exact isQuietNan_qnanCommutative _ _ _
  · rw [fadd_of_isFinite ha hb, val_add_val_eq_zero_iff]
    refine ⟨fun h => ?_, fun h => ?_⟩
    · simp only [if_pos h, zeroWord_eq, Bool.and_eq_true]
    · rw [if_neg (mt (val_add_val_eq_zero_iff a b).mpr h), val_add_val]
      exact roundingIsToNearestEven _ _
  · simpa only [IsNan, bexp_fneg, mant_fneg] using h
  · have hn : IsFinite (fneg x) := by simpa only [IsFinite, bexp_fneg] using hx
    rw [fsub, fadd_of_isFinite hx hn, units_fneg, if_pos (add_neg_cancel _), sign_fneg, Bool.and_not_self]
    rfl

/-- Settles O58: the operands' classes, then the rounding of the exact product. -/
theorem fmulIsTheRoundedProduct : Obligations.FmulIsTheRoundedProduct := by
  refine fun a b => ⟨fmul_of_isNan, fmul_of_isInf_isZero, fun h => ?_, fun ha hb => ?_⟩
  · have hn : ¬ (IsNan a ∨ IsNan b) := by
      rcases h with ⟨hi, hn, -⟩ | ⟨hi, hn, -⟩
      · exact not_or.mpr ⟨not_isNan_of_isInf hi, hn⟩
      · exact not_or.mpr ⟨hn, not_isNan_of_isInf hi⟩
    rw [fmul_of_isInf hn (h.imp (fun h => ⟨h.1, h.2.2⟩) (fun h => ⟨h.1, h.2.2⟩))]
    exact isInf_infWord _
  · rw [fmul_of_isFinite ha hb, val_mul_val]
    exact roundingIsToNearestEven _ _

/-- Settles O59: the operands' classes, then one rounding of the exact product plus addend. -/
theorem fmaRoundsOnce : Obligations.FmaRoundsOnce := by
  refine fun a b c => ⟨fma_of_isNan, fun ha hb hc =>
    ⟨fma_of_isInf_isZero, fun hi => ?_, fma_of_isFinite_isInf, fun ha hb hc => ?_⟩⟩
  · rw [fma_of_isInf (not_or.mpr ⟨ha, not_or.mpr ⟨hb, hc⟩⟩) hi]
    refine ⟨fun h => ?_, fun h => ?_⟩
    · rw [if_pos h]
      exact isQuietNan_qnan _ _ _ _
    · rw [if_neg h]
      exact isInf_infWord _
  · rw [fma_of_isFinite ha hb hc, val_mul_val_add_val_eq_zero_iff]
    refine ⟨fun h => ?_, fun h => ?_⟩
    · simp only [if_pos h, zeroWord_eq, Bool.and_eq_true]
    · rw [if_neg (mt (val_mul_val_add_val_eq_zero_iff a b c).mpr h), val_mul_val_add_val]
      exact roundingIsToNearestEven _ _

/-- Settles O60: the created NaN has the quiet bits forced, and no other result of a primitive is a NaN. -/
theorem createdNansAreQuiet : Obligations.CreatedNansAreQuiet :=
  ⟨fun op a b c => ⟨isQuietNan_qnan op a b c, isQuietNan_qnanCommutative op a b⟩, fun _ _ _ =>
    ⟨fadd_isQuietNan_of_isNan, fadd_isQuietNan_of_isNan, fmul_isQuietNan_of_isNan, fma_isQuietNan_of_isNan⟩⟩
end

section
/-! SUPPORT. What a word that decodes says of its command: the opcode, and that the command is well formed (30_encoding.md R63,
R67). -/

namespace Sys2Proof

section
variable {w : Cmd} {i : Instr}

/-- A word that decodes has the opcode of the command it spells, format by format. -/
theorem fieldOp_of_decode (h : decode w = .ok i) : (fieldOp w).toNat = (fieldOp (encode i)).toNat := by
  unfold decode at h
  split at h <;> rename_i hop
  case h_29 => cases h
  all_goals rw [hop]
  case h_1 | h_2 => obtain ⟨-, rfl⟩ := decodeR1_ok.mp h; simp [encode]
  case h_3 | h_6 => obtain ⟨-, rfl⟩ := decodeZ_ok.mp h; simp [encode]
  case h_4 | h_7 => obtain ⟨-, p, g, -, -, rfl⟩ := decodeMTab_ok.mp h; simp [encode]
  case h_5 => obtain ⟨-, -, b, k, -, -, rfl⟩ := decodeMCoef_ok.mp h; simp [encode]
  case h_8 | h_9 | h_10 | h_15 | h_16 => obtain ⟨-, rfl⟩ := decodeR2_ok.mp h; simp [encode]
  case h_11 | h_12 => obtain ⟨-, -, rfl⟩ := decodeIField_ok.mp h; simp [encode]
  case h_13 | h_19 => obtain ⟨-, rfl⟩ := decodeR4_ok.mp h; simp [encode]
  case h_14 | h_17 => obtain ⟨-, rfl⟩ := decodeR3_ok.mp h; simp [encode]
  case h_18 => obtain ⟨-, rfl⟩ := decodeIMask_ok.mp h; simp [encode]
  case h_20 => obtain ⟨-, rfl⟩ := decodeR6_ok.mp h; simp [encode]
  case h_21 | h_22 => obtain ⟨-, pd, -, rfl⟩ := decodeR3P_ok.mp h; simp [encode]
  case h_23 | h_25 => obtain ⟨-, pd, pa, -, -, rfl⟩ := decodeR3PP_ok.mp h; simp [encode]
  case h_24 | h_26 => obtain ⟨-, pd, pa, pb, -, -, -, rfl⟩ := decodeR3PPP_ok.mp h; simp [encode]
  case h_27 | h_28 => obtain ⟨-, b, n, -, -, rfl⟩ := decodeMPoly_ok.mp h; simp [encode]

/-- Every word that decodes spells a well-formed command: a bit field is tested by its format, the rest has no limit left. -/
theorem wellFormed_of_decode (h : decode w = .ok i) : i.WellFormed := by
  have hop := fieldOp_of_decode h
  cases i with
  | bfx rd rs lsb wm1 | bfxs rd rs lsb wm1 =>
    simp only [encode, fieldOp_immWord] at hop
    rw [decode, hop] at h
    obtain ⟨-, hf, he⟩ := decodeIField_ok.mp h
    cases he
    exact decide_eq_true hf
  | _ => rfl

/-- LOCK has one word. -/
theorem word_of_decode_lock (h : decode w = .ok .lock) : w = 0x28000000 := by
  have hop : fieldOp w = 0x0A := BitVec.eq_of_toNat_eq (fieldOp_of_decode h)
  have hz : decodeZ w .lock = .ok .lock := by rwa [decode, hop] at h
  rw [← word_of_Z (decodeZ_ok.mp hz).1, hop]
  rfl

end

end Sys2Proof
end

section
/-! SUPPORT. The block's invariant, which reset establishes and every step keeps (10_state.md R34, R39; 20_memory.md R46, R47;
60_exceptions.md R160 to R163). Settles O15 and O16. -/

namespace Sys2Proof.Machine

/-! ## The memories -/

section
variable {i : Instr} {s t : State}

/-- Every command keeps the memories canonical: only TWR and CWR write, inside a region or a bank. -/
theorem ExecShape.mem_wf (h : ExecShape i s t) (hm : s.mem.wf) : t.mem.wf := by
  cases h with
  | twr hh pa ri g k d hi hp hr hk ht => subst ht; exact Memory.wf_tabWrite d hm hk
  | cwr hh ra b k w hi hp hr ht => subst ht; exact Memory.wf_coefWrite b k w hm
  | halted hh hi ht | faulted hh c hi ht | gets hi ht | get hh rs w hi hr ht | lock hh hi ht | reg hh rd w hd ht
  | pair hh p d hd ht => subst ht; exact hm

end

/-! ## The fault record -/

theorem recordFits_illegal {p : Phase} {w : Cmd} (h : NoCommand w) : recordFits ⟨p, .illegal, w⟩ := h

/-- A fault that the command of word `w` can raise fits the record. -/
theorem recordFits_of_canRaise {p : Phase} {c : FaultCode} {w : Cmd} {i : Instr} (hd : decode w = .ok i)
    (hc : canRaise i c = true) : recordFits ⟨p, c, w⟩ := by
  cases c with
  | none | illegal => cases hc
  | phase | unwritten | index | uninit | exprange => exact ⟨i, hd, hc⟩

/-- The record says nothing of the phase. -/
theorem recordFits_phase {st : Status} {p : Phase} (h : recordFits st) : recordFits { st with phase := p } := h

/-! ## The invariant of each kind of answer -/

section
variable {s : State}

theorem State.Inv.answered_ok {w : Word} (hm : s.mem.wf) (hr : recordFits s.status) : (answered s .ok w).Inv := by
  refine ⟨hm, hr, fun a ha hne => ?_⟩
  cases ha
  exact absurd rfl hne

theorem State.Inv.answered_halted (hh : Halted s) (hm : s.mem.wf) (hr : recordFits s.status) :
    (answered s .halted 0).Inv := by
  refine ⟨hm, hr, fun a ha hne => ?_⟩
  cases ha
  exact ⟨rfl, hh⟩

theorem State.Inv.raised {c : FaultCode} (hc : c ≠ .none) (hm : s.mem.wf)
    (hr : recordFits ⟨s.status.phase, c, s.cmd⟩) : (answered (faultState c s) .fault 0).Inv := by
  refine ⟨hm, hr, fun a ha hne => ?_⟩
  cases ha
  exact ⟨rfl, hc⟩

theorem applyReset_inv (rest : List HostEvent) : (applyReset rest).Inv :=
  ⟨Memory.wf_empty, rfl, fun _ ha => nomatch ha⟩

end

/-! ## Every step keeps the invariant -/

section
variable {i : Instr} {s t : State}

/-- A decoded command, whose word is on the interface, keeps the invariant. -/
theorem ExecShape.inv (h : ExecShape i s t) (hd : decode s.cmd = .ok i) (hm : s.mem.wf) (hr : recordFits s.status) :
    t.Inv := by
  have hm' := h.mem_wf hm
  cases h with
  | halted hh hi ht => subst ht; exact .answered_halted hh hm hr
  | faulted hh c hi ht =>
    subst ht
    rcases hi with ⟨hw, -⟩ | hc
    · exact absurd (wellFormed_of_decode hd) (by simp [hw])
    · exact .raised (canRaise_ne_none hc) hm (recordFits_of_canRaise hd hc)
  | gets hi ht | get hh rs w hi hr' ht | twr hh pa ri g k d hi hp hr' hk ht | cwr hh ra b k w hi hp hr' ht
  | reg hh rd w hd' ht | pair hh p d hd' ht => subst ht; exact .answered_ok hm' hr
  | lock hh hi ht => subst ht; exact .answered_ok hm (recordFits_phase hr)

/-- A word that spells no command keeps the invariant. -/
theorem inv_of_illegalWord (hd : NoCommand s.cmd) (hm : s.mem.wf) (hr : recordFits s.status)
    (h : illegalWord s = .next t) : t.Inv := by
  rcases illegalWord_next h with ⟨hh, rfl⟩ | ⟨-, rfl⟩
  · exact .answered_halted hh hm hr
  · exact .raised (by decide) hm (recordFits_illegal hd)

end

end Sys2Proof.Machine

open Sys2Proof Sys2Proof.Machine

/-- Settles O15: idle, reset, a command by the shape of its next state, or a word that spells none. -/
theorem everyStepKeepsTheInvariant : Obligations.EveryStepKeepsTheInvariant := by
  intro s t hs h
  obtain ⟨hm, hr, -⟩ := id hs
  rcases step_cases s with ⟨-, he⟩ | ⟨rest, -, he⟩ | ⟨w, data, rest, -, ⟨i, hd, he⟩ | ⟨e, hd, he⟩⟩ <;> rw [he] at h
  · cases h
    exact hs
  · cases h
    exact applyReset_inv rest
  · exact (exec_shape h).inv (s := present s w data rest) hd hm hr
  · exact inv_of_illegalWord (s := present s w data rest) ⟨e, hd⟩ hm hr h

/-- Settles O16: reset with nothing left for the host to do. -/
theorem invariantHoldsAfterReset : Obligations.InvariantHoldsAfterReset := applyReset_inv []
end

section
/-! SUPPORT. What changes the phase, and what the phase allows (10_state.md R37); that in phase INIT the memories influence
nothing (20_memory.md R55). Both rest on one lemma: a command that needs no phase goes the same way from two states that differ
only in what the command does not look at. Settles O17 and O19. -/

namespace Sys2Proof.Machine

/-! ## Two states that a command cannot tell apart

`R s s'` relates two states. A result follows another when it answers a state related to every state that the other answers. -/

/-- `R` relates states with the same registers and the same FAULT, and holds on after a register write, an answer and a fault. -/
structure Indistinct (R : State → State → Prop) : Prop where
  regs {s s' : State} : R s s' → s'.regs = s.regs
  fault {s s' : State} : R s s' → s'.status.fault = s.status.fault
  writeReg {s s' : State} (r : Reg) (w : Word) : R s s' → R (writeReg s r w) (writeReg s' r w)
  answered {s s' : State} (a : AnswerStatus) (w : Word) : R s s' → R (answered s a w) (answered s' a w)
  faultState {s s' : State} (c : FaultCode) : R s s' → R (faultState c s) (faultState c s')

/-- The result `r'` goes the same way as `r`, up to `R`. -/
def Follows (R : State → State → Prop) (r r' : Result) : Prop := ∀ t, r = .next t → ∃ t', r' = .next t' ∧ R t t'

section
variable {R : State → State → Prop} {s s' : State}

theorem Follows.next (h : R s s') : Follows R (.next s) (.next s') := by
  intro t ht
  cases ht
  exact ⟨s', rfl, h⟩

variable (hR : Indistinct R) (h : R s s')
include hR h

theorem Indistinct.halted_iff : Halted s' ↔ Halted s := by rw [Halted, hR.fault h]

theorem Indistinct.readReg_eq (r : Reg) : readReg s' r = readReg s r := by rw [readReg, readReg, hR.regs h]

theorem Indistinct.writePair (p : Pair) (d : DoubleDouble) : R (writePair s p d) (writePair s' p d) :=
  hR.writeReg _ _ (hR.writeReg _ _ h)

theorem Follows.answerData (w : Word) : Follows R (answerData s w) (answerData s' w) := .next (hR.answered _ _ h)

theorem Follows.complete : Follows R (complete s) (complete s') := .answerData hR h 0

theorem Follows.raise (c : FaultCode) : Follows R (raise c s) (raise c s') := .next (hR.answered _ _ (hR.faultState c h))

theorem Follows.command {body body' : Result} (hb : Follows R body body') :
    Follows R (command s body) (command s' body') := by
  by_cases hh : Halted s
  · rw [command_of_halted hh, command_of_halted ((hR.halted_iff h).mpr hh)]
    exact .next (hR.answered _ _ h)
  · rw [command_of_healthy hh, command_of_healthy (mt (hR.halted_iff h).mp hh)]
    exact hb

theorem Follows.withReg {r : Reg} {body body' : Word → Result} (hb : ∀ w, Follows R (body w) (body' w)) :
    Follows R (withReg s r body) (withReg s' r body') := by
  have hr := hR.readReg_eq h r
  cases hs : readReg s r with
  | none =>
    rw [withReg_of_none hs, withReg_of_none (hr.trans hs)]
    exact .raise hR h _
  | some w =>
    rw [withReg_of_some hs, withReg_of_some (hr.trans hs)]
    exact hb w

theorem Follows.withPair {p : Pair} {body body' : DoubleDouble → Result} (hb : ∀ d, Follows R (body d) (body' d)) :
    Follows R (withPair s p body) (withPair s' p body') :=
  .withReg hR h fun _ => .withReg hR h fun _ => hb _

theorem Follows.withIndex {g : Region} {k : Nat} {body body' : Result} (hb : Follows R body body') :
    Follows R (withIndex s g k body) (withIndex s' g k body') := by
  unfold Machine.withIndex
  split
  · exact hb
  · exact .raise hR h _

theorem Follows.unaryCommand (f : Word → Word) (rd rs : Reg) : Follows R (unaryCommand f rd rs s) (unaryCommand f rd rs s') :=
  .command hR h (.withReg hR h fun _ => .complete hR (hR.writeReg rd _ h))

theorem Follows.fieldCommand (f : Word → BitPos → BitPos → Word) (rd rs : Reg) (lsb wm1 : BitPos) :
    Follows R (fieldCommand f rd rs lsb wm1 s) (fieldCommand f rd rs lsb wm1 s') := by
  unfold Machine.fieldCommand
  split
  · exact .unaryCommand hR h _ rd rs
  · exact .command hR h (.raise hR h _)

/-- A command that needs no phase, other than GETS and LOCK, looks at the registers, FAULT and, if it is PUT, the data word. -/
theorem exec_follows {i : Instr} (hi : phaseNeeded i = none) (hg : i ≠ .gets) (hl : i ≠ .lock)
    (hw : ∀ rd, i = .put rd → s'.wdata = s.wdata) : Follows R (exec i s) (exec i s') := by
  cases i with
  | twr _ _ _ | cwr _ _ _ | tlu _ _ _ | polyh _ _ _ _ | polye _ _ _ _ => cases hi
  | gets => exact absurd rfl hg
  | lock => exact absurd rfl hl
  | put rd =>
    rw [exec, exec, execPut, execPut, hw rd rfl]
    exact .command hR h (.complete hR (hR.writeReg rd _ h))
  | get rs => exact .command hR h (.withReg hR h fun w => .answerData hR h w)
  | xsgn rd rs | xexp rd rs | xman rd rs | classify rd rs | iclass rd rs | ctest rd rs mask =>
    exact .unaryCommand hR h _ rd rs
  | bfx rd rs lsb wm1 | bfxs rd rs lsb wm1 => exact .fieldCommand hR h _ rd rs lsb wm1
  | pack rd ra rb rc | mux2 rd ra rb rc =>
    exact .command hR h (.withReg hR h fun _ => .withReg hR h fun _ => .withReg hR h fun _ =>
      .complete hR (hR.writeReg rd _ h))
  | expadd rd ra rn =>
    refine .command hR h (.withReg hR h fun w => .withReg hR h fun n => ?_)
    cases expAdd w n with
    | some r => exact .complete hR (hR.writeReg rd r h)
    | none => exact .raise hR h _
  | cmp rd ra rb => exact .command hR h (.withReg hR h fun _ => .withReg hR h fun _ => .complete hR (hR.writeReg rd _ h))
  | mux3 rd rp rq ra rb rc =>
    exact .command hR h (.withReg hR h fun _ => .withReg hR h fun _ => .withReg hR h fun _ => .withReg hR h fun _ =>
      .withReg hR h fun _ => .complete hR (hR.writeReg rd _ h))
  | twosum pd ra rb | twoprod pd ra rb =>
    exact .command hR h (.withReg hR h fun _ => .withReg hR h fun _ => .complete hR (hR.writePair h pd _))
  | ddaddd pd pa rb | ddmuld pd pa rb =>
    exact .command hR h (.withPair hR h fun _ => .withReg hR h fun _ => .complete hR (hR.writePair h pd _))
  | ddadd pd pa pb | ddmul pd pa pb =>
    exact .command hR h (.withPair hR h fun _ => .withPair hR h fun _ => .complete hR (hR.writePair h pd _))

end

/-! ## The phase (10_state.md R37) -/

/-- The state with the phase `p`. -/
def withPhase (p : Phase) (s : State) : State := { s with status := { s.status with phase := p } }

/-- Nothing but the phase tests, GETS and LOCK looks at the phase. -/
theorem indistinct_withPhase (p : Phase) : Indistinct fun s s' => s' = withPhase p s where
  regs h := by rw [h]; rfl
  fault h := by rw [h]; rfl
  writeReg _ _ h := by rw [h]; rfl
  answered _ _ h := by rw [h]; rfl
  faultState _ h := by rw [h]; rfl

section
variable {i : Instr} {s t : State}

/-- A command that needs a phase tests it first. -/
theorem exec_of_phaseNeeded {p : Phase} (h : phaseNeeded i = some p) (s : State) :
    ∃ body, exec i s = command s (inPhase p s body) := by
  cases i with
  | twr _ _ _ | cwr _ _ _ | tlu _ _ _ | polyh _ _ _ _ | polye _ _ _ _ => cases h; exact ⟨_, rfl⟩
  | _ => cases h

/-- A command that needs the other phase raises PHASE on a block that is not halted. -/
theorem faultsWith_phase {p : Phase} (h : phaseNeeded i = some p) (hh : ¬ Halted s) (hp : s.status.phase ≠ p) :
    FaultsWith s .phase (exec i s) := by
  obtain ⟨body, he⟩ := exec_of_phaseNeeded h s
  rw [he, command_of_healthy hh, inPhase_of_ne hp]
  rfl

/-- LOCK ends in phase RUN, and every other command keeps the phase. -/
theorem ExecShape.phase (h : ExecShape i s t) :
    t.status.phase = s.status.phase ∨ i = .lock ∧ t.status.phase = .run := by
  cases h with
  | lock hh hi ht => subst ht; exact .inr ⟨hi, rfl⟩
  | halted hh hi ht | faulted hh c hi ht | gets hi ht | get hh rs w hi hr ht | twr hh pa ri g k d hi hp hr hk ht
  | cwr hh ra b k w hi hp hr ht | reg hh rd w hd ht | pair hh p d hd ht => subst ht; exact .inl rfl

theorem illegalWord_phase (h : illegalWord s = .next t) : t.status.phase = s.status.phase := by
  rcases illegalWord_next h with ⟨-, rfl⟩ | ⟨-, rfl⟩ <;> rfl

theorem Phase.eq_init_of_run_ne {p : Phase} (h : .run ≠ p) : p = .init := by
  cases p with
  | init => rfl
  | run => exact absurd rfl h

theorem Phase.eq_run_of_init_ne {p : Phase} (h : .init ≠ p) : p = .run := by
  cases p with
  | init => exact absurd rfl h
  | run => rfl

/-- A step that changes the phase serves the word of LOCK in INIT or a reset in RUN. -/
theorem step_phase (h : step s = .next t) (hp : t.status.phase ≠ s.status.phase) :
    (s.status.phase = .init ∧ ∃ data rest, s.host = .transaction 0x28000000 data :: rest) ∨
      (s.status.phase = .run ∧ ∃ rest, s.host = .reset :: rest) := by
  rcases step_cases s with ⟨-, he⟩ | ⟨rest, hs, he⟩ | ⟨w, data, rest, hs, ⟨i, hd, he⟩ | ⟨e, -, he⟩⟩ <;> rw [he] at h
  · cases h
    exact absurd rfl hp
  · cases h
    exact .inr ⟨Phase.eq_run_of_init_ne hp, rest, hs⟩
  · rcases (exec_shape h).phase with hk | ⟨rfl, hrun⟩
    · exact absurd hk hp
    · rw [hrun] at hp
      exact .inl ⟨Phase.eq_init_of_run_ne hp, data, rest, word_of_decode_lock hd ▸ hs⟩
  · exact absurd (illegalWord_phase h) hp

theorem exec_lock_run (hh : ¬ Halted s) : ∃ t, exec .lock s = .next t ∧ t.status.phase = .run :=
  ⟨_, command_of_healthy hh _, rfl⟩

end

/-! ## The memories in phase INIT -/

/-- The two states differ in nothing but their memories. -/
def DifferInMemory (s s' : State) : Prop := ∃ m, s' = { s with mem := m }

/-- The registers, the status and the answers do not look at the memories. -/
theorem indistinct_memory : Indistinct DifferInMemory where
  regs := by rintro s _ ⟨m, rfl⟩; rfl
  fault := by rintro s _ ⟨m, rfl⟩; rfl
  writeReg _ _ := by rintro ⟨m, rfl⟩; exact ⟨m, rfl⟩
  answered _ _ := by rintro ⟨m, rfl⟩; exact ⟨m, rfl⟩
  faultState _ := by rintro ⟨m, rfl⟩; exact ⟨m, rfl⟩

section
variable {i : Instr} {s s' : State}

/-- In phase INIT a command that needs RUN does not get to the memories. -/
theorem follows_of_phaseNeeded_run (hi : phaseNeeded i = some .run) (hp : s.status.phase = .init) (h : DifferInMemory s s') :
    Follows DifferInMemory (exec i s) (exec i s') := by
  have hp' : s'.status.phase = .init := by obtain ⟨m, rfl⟩ := h; exact hp
  obtain ⟨body, he⟩ := exec_of_phaseNeeded hi s
  obtain ⟨body', he'⟩ := exec_of_phaseNeeded hi s'
  rw [he, he', inPhase_of_ne (by simp [hp]), inPhase_of_ne (by simp [hp'])]
  exact .command indistinct_memory h (.raise indistinct_memory h _)

/-- In phase INIT every command goes the same way whatever the memories hold: TWR and CWR write them and do not read them. -/
theorem exec_follows_memory (i : Instr) (hp : s.status.phase = .init) (h : DifferInMemory s s') :
    Follows DifferInMemory (exec i s) (exec i s') := by
  have hR := indistinct_memory
  have hst : s'.status = s.status := by obtain ⟨m, rfl⟩ := h; rfl
  have hp' : s'.status.phase = .init := hst ▸ hp
  have hmem (m m' : Memory) : DifferInMemory { s with mem := m } { s' with mem := m' } := by
    obtain ⟨_, rfl⟩ := h
    exact ⟨m', rfl⟩
  cases i with
  | twr pa ri g =>
    refine .command hR h ?_
    rw [inPhase_of_eq hp, inPhase_of_eq hp']
    exact .withReg hR h fun k => .withPair hR h fun d => .withIndex hR h (.complete hR (hmem _ _))
  | cwr ra b k =>
    refine .command hR h ?_
    rw [inPhase_of_eq hp, inPhase_of_eq hp']
    exact .withReg hR h fun w => .complete hR (hmem _ _)
  | tlu _ _ _ | polyh _ _ _ _ | polye _ _ _ _ => exact follows_of_phaseNeeded_run rfl hp h
  | gets =>
    rw [exec, exec, execGets, execGets, hst]
    exact .answerData hR h _
  | lock =>
    obtain ⟨m, rfl⟩ := h
    exact .command hR ⟨m, rfl⟩ (.complete hR ⟨m, rfl⟩)
  | _ =>
    refine exec_follows hR h rfl (by simp) (by simp) fun _ _ => ?_
    obtain ⟨m, rfl⟩ := h
    rfl

end

end Sys2Proof.Machine

open Sys2Proof Sys2Proof.Machine

/-- Settles O17: LOCK and reset alone change the phase, and nothing but the phase tests, GETS and LOCK looks at it. -/
theorem phaseIsALifecycle : Obligations.PhaseIsALifecycle := by
  refine ⟨fun _ _ => step_phase, fun _ _ _ => faultsWith_phase, fun i p s t hi hg hl h => ?_, fun _ => exec_lock_run⟩
  obtain ⟨_, ht, rfl⟩ := exec_follows (indistinct_withPhase p) rfl hi hg hl (fun _ _ => rfl) t h
  exact ht

/-- Settles O19: what a command answers in INIT follows what it answers with other memories. -/
theorem memoriesAreUnobservableInInit : Obligations.MemoriesAreUnobservableInInit := by
  intro i s t m hp h
  obtain ⟨_, ht, m', rfl⟩ := exec_follows_memory i hp ⟨m, rfl⟩ t h
  exact ⟨m', ht⟩
end

section
/-! SUPPORT. The written marks of the registers (10_state.md R31) and the state that a reset leaves (R39). Settles O20 and O11. -/

namespace Sys2Proof.Machine

/-! ## An unwritten source raises UNWRITTEN

Each lemma takes the list of the registers still to be read and hands on the rest of it. -/

section
variable {s : State}

theorem not_someUnwritten_nil : ¬ SomeUnwritten s [] := fun ⟨_, hr, _⟩ => nomatch hr

theorem someUnwritten_cons {r : Reg} {rs : List Reg} :
    SomeUnwritten s (r :: rs) ↔ readReg s r = none ∨ SomeUnwritten s rs := List.exists_mem_cons_iff _ _ _

theorem withReg_of_someUnwritten {r : Reg} {rs : List Reg} {body : Word → Result} (h : SomeUnwritten s (r :: rs))
    (hb : SomeUnwritten s rs → ∀ w, body w = raise .unwritten s) : withReg s r body = raise .unwritten s := by
  cases hr : readReg s r with
  | none => exact withReg_of_none hr body
  | some w =>
    rw [withReg_of_some hr]
    exact hb ((someUnwritten_cons.mp h).resolve_left (by simp [hr])) w

theorem withPair_of_someUnwritten {p : Pair} {rs : List Reg} {body : DoubleDouble → Result}
    (h : SomeUnwritten s (pairHi p :: pairLo p :: rs)) (hb : SomeUnwritten s rs → ∀ d, body d = raise .unwritten s) :
    withPair s p body = raise .unwritten s :=
  withReg_of_someUnwritten h fun h _ => withReg_of_someUnwritten h fun h _ => hb h _

/-- The last source: when all before it are written, it is the unwritten one. -/
theorem withReg_of_lastUnwritten {r : Reg} {body : Word → Result} (h : SomeUnwritten s [r]) :
    withReg s r body = raise .unwritten s :=
  withReg_of_someUnwritten h fun h => absurd h not_someUnwritten_nil

theorem withPair_of_lastUnwritten {p : Pair} {body : DoubleDouble → Result} (h : SomeUnwritten s [pairHi p, pairLo p]) :
    withPair s p body = raise .unwritten s :=
  withPair_of_someUnwritten h fun h => absurd h not_someUnwritten_nil

theorem unaryCommand_of_unwritten {f : Word → Word} {rd rs : Reg} (hh : ¬ Halted s) (h : SomeUnwritten s [rs]) :
    unaryCommand f rd rs s = raise .unwritten s :=
  (command_of_healthy hh _).trans (withReg_of_lastUnwritten h)

theorem polyCommand_of_unwritten {eval : List Word → Word → Word} {rd rs : Reg} {b : Bank} {n : Slot} (hh : ¬ Halted s)
    (hp : s.status.phase = .run) (h : SomeUnwritten s [rs]) : polyCommand eval rd rs b n s = raise .unwritten s :=
  (command_of_healthy hh _).trans ((inPhase_of_eq hp _).trans (withReg_of_lastUnwritten h))

/-- A legal command in its phase, on a block that is not halted, raises UNWRITTEN when any of its sources is unwritten. -/
theorem exec_of_someUnwritten {i : Instr} (hi : i.WellFormed) (hh : ¬ Halted s)
    (hp : ∀ p, phaseNeeded i = some p → s.status.phase = p) (h : SomeUnwritten s (sources i)) :
    exec i s = raise .unwritten s := by
  cases i with
  | put _ | gets | lock => exact absurd h not_someUnwritten_nil
  | get rs => exact (command_of_healthy hh _).trans (withReg_of_lastUnwritten h)
  | twr pa ri g =>
    exact (command_of_healthy hh _).trans ((inPhase_of_eq (hp _ rfl) _).trans
      (withReg_of_someUnwritten h fun h _ => withPair_of_lastUnwritten h))
  | cwr ra b k | tlu pd ri g =>
    exact (command_of_healthy hh _).trans ((inPhase_of_eq (hp _ rfl) _).trans (withReg_of_lastUnwritten h))
  | xsgn rd rs | xexp rd rs | xman rd rs | classify rd rs | iclass rd rs | ctest rd rs mask =>
    exact unaryCommand_of_unwritten hh h
  | bfx rd rs lsb wm1 | bfxs rd rs lsb wm1 =>
    exact (if_pos (of_decide_eq_true hi)).trans (unaryCommand_of_unwritten hh h)
  | pack rd ra rb rc | mux2 rd ra rb rc =>
    exact (command_of_healthy hh _).trans (withReg_of_someUnwritten h fun h _ => withReg_of_someUnwritten h fun h _ =>
      withReg_of_lastUnwritten h)
  | expadd rd ra rb | cmp rd ra rb | twosum pd ra rb | twoprod pd ra rb =>
    exact (command_of_healthy hh _).trans (withReg_of_someUnwritten h fun h _ => withReg_of_lastUnwritten h)
  | mux3 rd rp rq ra rb rc =>
    exact (command_of_healthy hh _).trans (withReg_of_someUnwritten h fun h _ => withReg_of_someUnwritten h fun h _ =>
      withReg_of_someUnwritten h fun h _ => withReg_of_someUnwritten h fun h _ => withReg_of_lastUnwritten h)
  | ddaddd pd pa rb | ddmuld pd pa rb =>
    exact (command_of_healthy hh _).trans (withPair_of_someUnwritten h fun h _ => withReg_of_lastUnwritten h)
  | ddadd pd pa pb | ddmul pd pa pb =>
    exact (command_of_healthy hh _).trans (withPair_of_someUnwritten h fun h _ => withPair_of_lastUnwritten h)
  | polyh rd rs b n | polye rd rs b n => exact polyCommand_of_unwritten hh (hp _ rfl) h

end

/-! ## A write sets the mark, and no command clears one -/

section
variable {i : Instr} {s t : State} {r : Reg}

theorem writeReg_keeps_mark (r' : Reg) (w : Word) (h : readReg s r ≠ none) : readReg (writeReg s r' w) r ≠ none := by
  rw [readReg_writeReg]
  split
  · exact Option.some_ne_none w
  · exact h

/-- The destinations of a command that completes are written. -/
theorem ExecShape.destinations_written {rd : Word} (h : ExecShape i s t) (ha : t.answer = some ⟨.ok, rd⟩)
    (hr : r ∈ destinations i) : readReg t r ≠ none := by
  cases h with
  | halted hh hi ht | faulted hh c hi ht => subst ht; cases ha
  | gets hi ht | get hh rs w hi hr' ht | lock hh hi ht | twr hh pa ri g k d hi hp hr' hk ht
  | cwr hh ra b k w hi hp hr' ht => subst hi; cases hr
  | reg hh rd' w hd ht =>
    rw [hd, List.mem_singleton] at hr
    subst ht hr
    simp
  | pair hh p d hd ht =>
    rw [hd, List.mem_pair] at hr
    subst ht
    rcases hr with rfl | rfl <;> simp

/-- No command clears a written mark. -/
theorem ExecShape.keeps_mark (h : ExecShape i s t) (hr : readReg s r ≠ none) : readReg t r ≠ none := by
  cases h with
  | reg hh rd w hd ht => subst ht; exact writeReg_keeps_mark rd w hr
  | pair hh p d hd ht => subst ht; exact writeReg_keeps_mark _ _ (writeReg_keeps_mark _ _ hr)
  | halted hh hi ht | faulted hh c hi ht | gets hi ht | get hh rs w hi hr' ht | lock hh hi ht
  | twr hh pa ri g k d hi hp hr' hk ht | cwr hh ra b k w hi hp hr' ht => subst ht; exact hr

theorem illegalWord_keeps_mark (h : illegalWord s = .next t) (hr : readReg s r ≠ none) : readReg t r ≠ none := by
  rcases illegalWord_next h with ⟨-, rfl⟩ | ⟨-, rfl⟩ <;> exact hr

/-- Only a reset clears a written mark. -/
theorem step_keeps_mark (h : step s = .next t) (hn : ∀ rest, s.host ≠ .reset :: rest) (hr : readReg s r ≠ none) :
    readReg t r ≠ none := by
  rcases step_cases s with ⟨-, he⟩ | ⟨rest, hs, he⟩ | ⟨w, data, rest, -, ⟨i, -, he⟩ | ⟨e, -, he⟩⟩
  · cases he.symm.trans h
    exact hr
  · exact absurd hs (hn rest)
  · exact (exec_shape (he.symm.trans h)).keeps_mark hr
  · exact illegalWord_keeps_mark (he.symm.trans h) hr

end

/-! ## The state after reset (10_state.md R39) -/

section
variable (rest : List HostEvent)

theorem statusWord_reset : statusWord .reset = 0 := by decide

@[simp] theorem readReg_applyReset (r : Reg) : readReg (applyReset rest) r = none := by
  simp [readReg, applyReset, State.reset]

/-- A reset, whatever the host does next, leaves every register, entry and slot unwritten and STATUS 0. -/
theorem applyReset_unwritten : (∀ r, readReg (applyReset rest) r = none) ∧ statusWord (applyReset rest).status = 0 ∧
    (applyReset rest).status = ⟨.init, .none, 0⟩ ∧ (∀ g k, tabRead (applyReset rest).mem g k = none) ∧
    ∀ b k, coefRead (applyReset rest).mem b k = none :=
  ⟨readReg_applyReset rest, statusWord_reset, rfl, tabRead_empty, coefRead_empty⟩

end

end Sys2Proof.Machine

open Sys2Proof Sys2Proof.Machine

/-- Settles O20: the sources in their order of test, then the shapes of a command's next state. -/
theorem writtenMarks : Obligations.WrittenMarks :=
  ⟨fun _ _ => exec_of_someUnwritten, fun _ _ _ _ h ha _ => (exec_shape h).destinations_written ha,
    fun _ _ h hn _ => step_keeps_mark h hn⟩

/-- Settles O11: the state after reset is a reset with nothing left for the host to do. -/
theorem resetLeavesEverythingUnwritten : Obligations.ResetLeavesEverythingUnwritten := by
  rintro t (rfl | ⟨s, rest, hs, h⟩)
  · exact applyReset_unwritten []
  · cases (step_of_reset hs).symm.trans h
    exact applyReset_unwritten rest
end

section
/-! SUPPORT. What a command and a run of the block do to the memories (10_state.md R37; 20_memory.md R45, R49, R51, R57). Settles
O23 and O18. -/

namespace Sys2Proof.Machine

/-! ## What a command changes of the memories and of the host's plans -/

section
variable {i : Instr} {s t : State}

theorem regNat_of_some {r : Reg} {w : Word} (h : readReg s r = some w) : regNat s r = w.toNat := by simp [regNat, h]

/-- A command keeps the memories, or is TWR or CWR in phase INIT, which writes its one entry or slot. -/
theorem ExecShape.mem_cases (h : ExecShape i s t) : t.mem = s.mem ∨
    s.status.phase = .init ∧ ((∃ pa ri g d, i = .twr pa ri g ∧ t.mem = tabWrite s.mem g (regNat s ri) d) ∨
      ∃ ra b k w, i = .cwr ra b k ∧ t.mem = coefWrite s.mem b k w) := by
  cases h with
  | twr hh pa ri g k d hi hp hr hk ht =>
    subst ht
    exact .inr ⟨hp, .inl ⟨pa, ri, g, d, hi, by rw [regNat_of_some hr]; rfl⟩⟩
  | cwr hh ra b k w hi hp hr ht => subst ht; exact .inr ⟨hp, .inr ⟨ra, b, k, w, hi, rfl⟩⟩
  | halted hh hi ht | faulted hh c hi ht | gets hi ht | get hh rs w hi hr ht | lock hh hi ht | reg hh rd w hd ht
  | pair hh p d hd ht => subst ht; exact .inl rfl

theorem ExecShape.mem_of_run (h : ExecShape i s t) (hp : s.status.phase = .run) : t.mem = s.mem :=
  h.mem_cases.resolve_right fun ⟨hinit, _⟩ => nomatch hinit.symm.trans hp

theorem ExecShape.tabRead_eq (h : ExecShape i s t) {g : Region} {k : Nat}
    (hi : ∀ pa ri, i = .twr pa ri g → k ≠ regNat s ri) : tabRead t.mem g k = tabRead s.mem g k := by
  rcases h.mem_cases with hm | ⟨-, ⟨pa, ri, g', d, rfl, hm⟩ | ⟨ra, b, j, w, -, hm⟩⟩ <;> rw [hm]
  · refine tabRead_tabWrite_ne _ d fun he => ?_
    obtain ⟨rfl, hk⟩ := Prod.mk.inj he
    exact hi pa ri rfl hk
  · exact tabRead_coefWrite _ b j w g k

theorem ExecShape.coefRead_eq (h : ExecShape i s t) {b : Bank} {k : Slot} (hi : ∀ ra, i ≠ .cwr ra b k) :
    coefRead t.mem b k = coefRead s.mem b k := by
  rcases h.mem_cases with hm | ⟨-, ⟨pa, ri, g, d, -, hm⟩ | ⟨ra, b', k', w, rfl, hm⟩⟩ <;> rw [hm]
  · exact coefRead_tabWrite _ g _ d b k
  · refine coefRead_coefWrite_ne _ w fun he => ?_
    obtain ⟨rfl, rfl⟩ := Prod.mk.inj he
    exact hi ra rfl

theorem ExecShape.mem_eq (h : ExecShape i s t) (ht : ∀ pa ri g, i ≠ .twr pa ri g) (hc : ∀ ra b k, i ≠ .cwr ra b k) :
    t.mem = s.mem := by
  rcases h.mem_cases with hm | ⟨-, ⟨pa, ri, g, d, hi, -⟩ | ⟨ra, b, k, w, hi, -⟩⟩
  · exact hm
  · exact absurd hi (ht pa ri g)
  · exact absurd hi (hc ra b k)

/-- No command changes what the host does next. -/
theorem ExecShape.host_eq (h : ExecShape i s t) : t.host = s.host := by
  cases h with
  | halted hh hi ht | faulted hh c hi ht | gets hi ht | get hh rs w hi hr ht | lock hh hi ht
  | twr hh pa ri g k d hi hp hr hk ht | cwr hh ra b k w hi hp hr ht | reg hh rd w hd ht | pair hh p d hd ht => subst ht; rfl

end

/-! ## Runs -/

section
variable {s t : State}

/-- A run of `n + 1` steps is a step and a run of `n`. -/
theorem core_run_succ_next {n : Nat} (h : core.run (n + 1) s = .next t) :
    ∃ u, step s = .next u ∧ core.run n u = .next t := by
  simp only [Host.Core.run] at h
  split at h
  · next u hu => exact ⟨u, hu, h⟩
  · cases h
  · cases h

/-- What every step keeps, every run keeps. -/
theorem core_run_keeps {P : State → Prop} (hP : ∀ s t, P s → step s = .next t → P t) (n : Nat) (hs : P s)
    (h : core.run n s = .next t) : P t := by
  induction n generalizing s with
  | zero => cases h; exact hs
  | succ n ih =>
    obtain ⟨u, hu, h⟩ := core_run_succ_next h
    exact ih (hP s u hs hu) h

end

/-! ## The locked block -/

/-- The block is in phase RUN with the memories `m`, and the host plans no reset. -/
structure LockedWith (m : Memory) (s : State) : Prop where
  mem_eq : s.mem = m
  phase_eq : s.status.phase = .run
  noReset : .reset ∉ s.host

section
variable {m : Memory} {s t : State}

/-- Serving a transaction leaves the later events of the host. -/
theorem LockedWith.present {w : Cmd} {data : Word} {rest : List HostEvent} (h : LockedWith m s)
    (hs : s.host = .transaction w data :: rest) : LockedWith m (present s w data rest) where
  mem_eq := h.mem_eq
  phase_eq := h.phase_eq
  noReset hr := h.noReset (hs ▸ List.mem_cons_of_mem _ hr)

theorem ExecShape.keeps_lockedWith {i : Instr} (h : ExecShape i s t) (hs : LockedWith m s) : LockedWith m t where
  mem_eq := (h.mem_of_run hs.phase_eq).trans hs.mem_eq
  phase_eq := h.phase.elim (·.trans hs.phase_eq) And.right
  noReset := h.host_eq ▸ hs.noReset

theorem illegalWord_keeps_lockedWith (h : illegalWord s = .next t) (hs : LockedWith m s) : LockedWith m t := by
  rcases illegalWord_next h with ⟨-, rfl⟩ | ⟨-, rfl⟩ <;> exact ⟨hs.mem_eq, hs.phase_eq, hs.noReset⟩

/-- A step that is no reset keeps a locked block locked, with the same memories. -/
theorem step_keeps_lockedWith (hs : LockedWith m s) (h : step s = .next t) : LockedWith m t := by
  rcases step_cases s with ⟨-, he⟩ | ⟨rest, hh, -⟩ | ⟨w, data, rest, hh, ⟨i, -, he⟩ | ⟨e, -, he⟩⟩
  · cases he.symm.trans h
    exact hs
  · exact absurd (hh ▸ List.mem_cons_self) hs.noReset
  · exact (exec_shape (he.symm.trans h)).keeps_lockedWith (hs.present hh)
  · exact illegalWord_keeps_lockedWith (he.symm.trans h) (hs.present hh)

end

end Sys2Proof.Machine

open Sys2Proof Sys2Proof.Machine

/-- Settles O23: a command keeps the memories, or writes the one entry or slot that it names. -/
theorem memoryFrame : Obligations.MemoryFrame := fun _ _ _ h =>
  ⟨fun _ _ => (exec_shape h).tabRead_eq, fun _ _ => (exec_shape h).coefRead_eq, (exec_shape h).mem_eq⟩

/-- Settles O18: every step keeps a locked block locked with the memories it had, so every run does. -/
theorem memoriesAreImmutableAfterLock : Obligations.MemoriesAreImmutableAfterLock := by
  intro n s t hp hr h
  obtain ⟨hm, hrun, -⟩ := core_run_keeps (P := LockedWith s.mem) (fun _ _ => step_keeps_lockedWith) n ⟨rfl, hp, hr⟩ h
  exact ⟨hm, hrun⟩
end

section
/-! SUPPORT. The decoder and the encoder are inverse to each other (30_encoding.md R60 to R68). Settles O1 and O2. -/

namespace Sys2Proof

/-! ## Each format reads back the word built from its operands -/

section
variable (op : BitVec 6) (r r' r'' r''' q q' : Reg) (p p' p'' : Pair) (g : Region) (b : Bank) (k : Slot)

theorem decodeZ_fieldsWord (i : Instr) : decodeZ (fieldsWord op 0#4 0#4 0#4 0#4 0#4 0#4) i = .ok i :=
  decodeZ_ok.mpr ⟨zeroBits_eq_ok.mp (zeroBits_Z op), rfl⟩

theorem decodeR1_fieldsWord (mk : Reg → Instr) :
    decodeR1 (fieldsWord op (regBits r) 0#4 0#4 0#4 0#4 0#4) mk = .ok (mk r) :=
  decodeR1_ok.mpr ⟨zeroBits_eq_ok.mp (zeroBits_R1 ..), by simp⟩

theorem decodeR2_fieldsWord (mk : Reg → Reg → Instr) :
    decodeR2 (fieldsWord op (regBits r) (regBits r') 0#4 0#4 0#4 0#4) mk = .ok (mk r r') :=
  decodeR2_ok.mpr ⟨zeroBits_eq_ok.mp (zeroBits_R2 ..), by simp⟩

theorem decodeR3_fieldsWord (mk : Reg → Reg → Reg → Instr) :
    decodeR3 (fieldsWord op (regBits r) (regBits r') (regBits r'') 0#4 0#4 0#4) mk = .ok (mk r r' r'') :=
  decodeR3_ok.mpr ⟨zeroBits_eq_ok.mp (zeroBits_R3 ..), by simp⟩

theorem decodeR3P_fieldsWord (mk : Pair → Reg → Reg → Instr) :
    decodeR3P (fieldsWord op (pairBits p) (regBits r) (regBits r') 0#4 0#4 0#4) mk = .ok (mk p r r') :=
  decodeR3P_ok.mpr ⟨zeroBits_eq_ok.mp (zeroBits_R3 ..), by simp⟩

theorem decodeR3PP_fieldsWord (mk : Pair → Pair → Reg → Instr) :
    decodeR3PP (fieldsWord op (pairBits p) (pairBits p') (regBits r) 0#4 0#4 0#4) mk = .ok (mk p p' r) :=
  decodeR3PP_ok.mpr ⟨zeroBits_eq_ok.mp (zeroBits_R3 ..), by simp⟩

theorem decodeR3PPP_fieldsWord (mk : Pair → Pair → Pair → Instr) :
    decodeR3PPP (fieldsWord op (pairBits p) (pairBits p') (pairBits p'') 0#4 0#4 0#4) mk = .ok (mk p p' p'') :=
  decodeR3PPP_ok.mpr ⟨zeroBits_eq_ok.mp (zeroBits_R3 ..), by simp⟩

theorem decodeR4_fieldsWord (mk : Reg → Reg → Reg → Reg → Instr) :
    decodeR4 (fieldsWord op (regBits r) (regBits r') (regBits r'') (regBits r''') 0#4 0#4) mk = .ok (mk r r' r'' r''') :=
  decodeR4_ok.mpr ⟨zeroBits_eq_ok.mp (zeroBits_R4 ..), by simp⟩

theorem decodeR6_fieldsWord (mk : Reg → Reg → Reg → Reg → Reg → Reg → Instr) :
    decodeR6 (fieldsWord op (regBits r) (regBits r') (regBits r'') (regBits r''') (regBits q) (regBits q')) mk =
      .ok (mk r r' r'' r''' q q') :=
  decodeR6_ok.mpr ⟨zeroBits_eq_ok.mp (zeroBits_R6 ..), by simp⟩

theorem decodeIField_immWord {lsb wm1 : BitPos} (h : fieldFits lsb wm1) (mk : Reg → Reg → BitPos → BitPos → Instr) :
    decodeIField (immWord op (regBits r) (regBits r') (fieldImmBits lsb wm1)) mk = .ok (mk r r' lsb wm1) :=
  decodeIField_ok.mpr ⟨zeroBits_eq_ok.mp (zeroBits_I ..), by simpa using h, by simp⟩

theorem decodeIMask_immWord (mask : BitVec 12) (mk : Reg → Reg → BitVec 12 → Instr) :
    decodeIMask (immWord op (regBits r) (regBits r') mask) mk = .ok (mk r r' mask) :=
  decodeIMask_ok.mpr ⟨zeroBits_eq_ok.mp (zeroBits_I ..), by simp⟩

theorem decodeMTab_fieldsWord (mk : Pair → Reg → Region → Instr) :
    decodeMTab (fieldsWord op (pairBits p) (regBits r) (regionBits g) 0#4 0#4 0#4) mk = .ok (mk p r g) :=
  decodeMTab_ok.mpr ⟨zeroBits_eq_ok.mp (zeroBits_R3 ..), by simp⟩

theorem decodeMCoef_fieldsWord (mk : Reg → Bank → Slot → Instr) :
    decodeMCoef (fieldsWord op (regBits r) 0#4 (bankBits b) (slotBits k) 0#4 0#4) mk = .ok (mk r b k) :=
  decodeMCoef_ok.mpr ⟨zeroBits_eq_ok.mp (zeroBits_R4 ..), zeroBits_eq_ok.mp (zeroBits_M ..), by simp⟩

theorem decodeMPoly_fieldsWord (mk : Reg → Reg → Bank → Slot → Instr) :
    decodeMPoly (fieldsWord op (regBits r) (regBits r') (bankBits b) (slotBits k) 0#4 0#4) mk = .ok (mk r r' b k) :=
  decodeMPoly_ok.mpr ⟨zeroBits_eq_ok.mp (zeroBits_R4 ..), by simp⟩

end

/-! ## The two round trips -/

/-- The decoder reads the encoder's word of a well-formed command as that command, format by format. -/
theorem decode_encode {i : Instr} (h : i.WellFormed) : decode (encode i) = .ok i := by
  cases i with
  | gets | lock => simp [decode, encode, decodeZ_fieldsWord]
  | put _ | get _ => simp [decode, encode, decodeR1_fieldsWord]
  | xsgn _ _ | xexp _ _ | xman _ _ | classify _ _ | iclass _ _ => simp [decode, encode, decodeR2_fieldsWord]
  | expadd _ _ _ | cmp _ _ _ => simp [decode, encode, decodeR3_fieldsWord]
  | twosum _ _ _ | twoprod _ _ _ => simp [decode, encode, decodeR3P_fieldsWord]
  | ddaddd _ _ _ | ddmuld _ _ _ => simp [decode, encode, decodeR3PP_fieldsWord]
  | ddadd _ _ _ | ddmul _ _ _ => simp [decode, encode, decodeR3PPP_fieldsWord]
  | pack _ _ _ _ | mux2 _ _ _ _ => simp [decode, encode, decodeR4_fieldsWord]
  | mux3 _ _ _ _ _ _ => simp [decode, encode, decodeR6_fieldsWord]
  | bfx _ _ _ _ | bfxs _ _ _ _ => simp [decode, encode, decodeIField_immWord _ _ _ (of_decide_eq_true h)]
  | ctest _ _ _ => simp [decode, encode, decodeIMask_immWord]
  | twr _ _ _ | tlu _ _ _ => simp [decode, encode, decodeMTab_fieldsWord]
  | cwr _ _ _ => simp [decode, encode, decodeMCoef_fieldsWord]
  | polyh _ _ _ _ | polye _ _ _ _ => simp [decode, encode, decodeMPoly_fieldsWord]

/-- A word that decodes is the encoder's word of its command: the format's zero bits and the operand codes leave no other. -/
theorem encode_of_decode {w : Cmd} {i : Instr} (h : decode w = .ok i) : encode i = w := by
  have hop : fieldOp w = fieldOp (encode i) := BitVec.eq_of_toNat_eq (fieldOp_of_decode h)
  cases i <;> simp only [encode, fieldOp_fieldsWord, fieldOp_immWord] at hop <;> rw [decode, hop] at h
  case gets | lock =>
    obtain ⟨hz, -⟩ := decodeZ_ok.mp h
    simpa [encode, hop] using word_of_Z hz
  case put | get =>
    obtain ⟨hz, he⟩ := decodeR1_ok.mp h
    cases he
    simpa [encode, hop] using word_of_R1 hz
  case xsgn | xexp | xman | classify | iclass =>
    obtain ⟨hz, he⟩ := decodeR2_ok.mp h
    cases he
    simpa [encode, hop] using word_of_R2 hz
  case expadd | cmp =>
    obtain ⟨hz, he⟩ := decodeR3_ok.mp h
    cases he
    simpa [encode, hop] using word_of_R3 hz
  case twosum | twoprod =>
    obtain ⟨hz, pd, hd, he⟩ := decodeR3P_ok.mp h
    cases he
    simpa [encode, hop, pairBits_of_pairOf hd] using word_of_R3 hz
  case ddaddd | ddmuld =>
    obtain ⟨hz, pd, pa, hd, ha, he⟩ := decodeR3PP_ok.mp h
    cases he
    simpa [encode, hop, pairBits_of_pairOf hd, pairBits_of_pairOf ha] using word_of_R3 hz
  case ddadd | ddmul =>
    obtain ⟨hz, pd, pa, pb, hd, ha, hb, he⟩ := decodeR3PPP_ok.mp h
    cases he
    simpa [encode, hop, pairBits_of_pairOf hd, pairBits_of_pairOf ha, pairBits_of_pairOf hb] using word_of_R3 hz
  case pack | mux2 =>
    obtain ⟨hz, he⟩ := decodeR4_ok.mp h
    cases he
    simpa [encode, hop] using word_of_R4 hz
  case mux3 =>
    obtain ⟨hz, he⟩ := decodeR6_ok.mp h
    cases he
    simpa [encode, hop] using word_of_R6 hz
  case bfx | bfxs =>
    obtain ⟨hz, -, he⟩ := decodeIField_ok.mp h
    cases he
    simpa [encode, hop, fieldImmBits_of_fields] using word_of_I hz
  case ctest =>
    obtain ⟨hz, he⟩ := decodeIMask_ok.mp h
    cases he
    simpa [encode, hop] using word_of_I hz
  case twr | tlu =>
    obtain ⟨hz, p, g, hp, hg, he⟩ := decodeMTab_ok.mp h
    cases he
    simpa [encode, hop, pairBits_of_pairOf hp, regionBits_of_regionOf hg] using word_of_R3 hz
  case cwr =>
    obtain ⟨hz, hB, b, k, hb, hk, he⟩ := decodeMCoef_ok.mp h
    cases he
    simpa [encode, hop, bankBits_of_bankOf hb, slotBits_of_slotOf hk] using word_of_M hz hB
  case polyh | polye =>
    obtain ⟨hz, b, n, hb, hn, he⟩ := decodeMPoly_ok.mp h
    cases he
    simpa [encode, hop, bankBits_of_bankOf hb, slotBits_of_slotOf hn] using word_of_R4 hz

end Sys2Proof

open Sys2Proof Sys2Proof.Machine

/-- Settles O1: the operand codes of each format read back. -/
theorem decodeOfEncodeIsTheCommand : Obligations.DecodeOfEncodeIsTheCommand := fun _ => decode_encode

/-- Settles O2: a word that decodes is rebuilt from its fields. -/
theorem encodeOfDecodedWordIsTheWord : Obligations.EncodeOfDecodedWordIsTheWord := fun _ _ h =>
  ⟨wellFormed_of_decode h, encode_of_decode h⟩
end

section
/-! SUPPORT. The opcode map and the limits of 30_encoding.md R63 to R67: a word that decodes is the encoder's word of its
command (`encode_of_decode`), so what the encoder's words never hold raises ILLEGAL. Settles O3 to O7. -/

namespace Sys2Proof.Machine

/-! ## The rows of the opcode map (R63) -/

/-- The encoder's word of a command meets the command's row. -/
theorem encode_and_mask (i : Instr) : encode i &&& (opcodeRow i).mask = (opcodeRow i).fixedBits := by
  cases i with
  | put => exact Laws.TableWord.put ..
  | get => exact Laws.TableWord.get ..
  | gets => exact Laws.TableWord.gets
  | twr => exact Laws.TableWord.twr ..
  | cwr => exact Laws.TableWord.cwr ..
  | lock => exact Laws.TableWord.lock
  | tlu => exact Laws.TableWord.tlu ..
  | xsgn => exact Laws.TableWord.xsgn ..
  | xexp => exact Laws.TableWord.xexp ..
  | xman => exact Laws.TableWord.xman ..
  | bfx => exact Laws.TableWord.bfx ..
  | bfxs => exact Laws.TableWord.bfxs ..
  | pack => exact Laws.TableWord.pack ..
  | expadd => exact Laws.TableWord.expadd ..
  | classify => exact Laws.TableWord.classify ..
  | iclass => exact Laws.TableWord.iclass ..
  | cmp => exact Laws.TableWord.cmp ..
  | ctest => exact Laws.TableWord.ctest ..
  | mux2 => exact Laws.TableWord.mux2 ..
  | mux3 => exact Laws.TableWord.mux3 ..
  | twosum => exact Laws.TableWord.twosum ..
  | twoprod => exact Laws.TableWord.twoprod ..
  | ddaddd => exact Laws.TableWord.ddaddd ..
  | ddadd => exact Laws.TableWord.ddadd ..
  | ddmuld => exact Laws.TableWord.ddmuld ..
  | ddmul => exact Laws.TableWord.ddmul ..
  | polyh => exact Laws.TableWord.polyh ..
  | polye => exact Laws.TableWord.polye ..

/-- A bit that the opcode's format does not use is fixed to 0 by the opcode's row. -/
theorem unusedBits_fixed (i : Instr) :
    (opcodeRow i).mask &&& unusedBits (fieldOp (encode i)).toNat = unusedBits (fieldOp (encode i)).toNat ∧
      (opcodeRow i).fixedBits &&& unusedBits (fieldOp (encode i)).toNat = 0 := by
  cases i <;> simp [encode, unusedBits, opcodeRow]

/-- No encoder's word has a 1 in an unused bit (R65). -/
theorem encode_and_unusedBits (i : Instr) : encode i &&& unusedBits (fieldOp (encode i)).toNat = 0 := by
  obtain ⟨hm, hf⟩ := unusedBits_fixed i
  rw [← hm, ← BitVec.and_assoc, encode_and_mask, hf]

/-! ## What the fields of an encoder's word hold (R66, R67) -/

theorem toNat_pairBits_mod_two (p : Pair) : (pairBits p).toNat % 2 = 0 := by revert p; decide
theorem toNat_regionBits_lt (g : Region) : (regionBits g).toNat < 3 := by cases g <;> decide
theorem toNat_bankBits_lt (b : Bank) : (bankBits b).toNat < 4 := by revert b; decide
theorem toNat_slotBits_le (k : Slot) : (slotBits k).toNat ≤ 8 := by revert k; decide
theorem toNat_posBits (p : BitPos) : (posBits p).toNat = p.val := by revert p; decide

/-- The pair fields of an encoder's word are even. -/
theorem encode_pairFields_even (i : Instr) :
    ((fieldOp (encode i)).toNat ∈ [0x08, 0x0B, 0x28, 0x29, 0x2A, 0x2B, 0x2C, 0x2D] → (fieldA (encode i)).toNat % 2 = 0) ∧
    ((fieldOp (encode i)).toNat ∈ [0x2A, 0x2B, 0x2C, 0x2D] → (fieldB (encode i)).toNat % 2 = 0) ∧
    ((fieldOp (encode i)).toNat ∈ [0x2B, 0x2D] → (fieldC (encode i)).toNat % 2 = 0) := by
  cases i <;> simp [encode, toNat_pairBits_mod_two]

/-- The fields of limited range are inside their ranges in the encoder's word of a well-formed command. -/
theorem encode_fields_inRange {i : Instr} (h : i.WellFormed) :
    ((fieldOp (encode i)).toNat ∈ [0x08, 0x09, 0x0B, 0x30, 0x31] → (fieldC (encode i)).toNat < 4) ∧
    ((fieldOp (encode i)).toNat ∈ [0x08, 0x0B] → (fieldC (encode i)).toNat ≠ 3 ∧ fieldD (encode i) = 0) ∧
    ((fieldOp (encode i)).toNat = 0x09 → fieldB (encode i) = 0) ∧
    ((fieldOp (encode i)).toNat ∈ [0x09, 0x30, 0x31] → (fieldD (encode i)).toNat ≤ 8) ∧
    ((fieldOp (encode i)).toNat ∈ [0x13, 0x14] →
      (fieldLsb (encode i)).toNat + (fieldWm1 (encode i)).toNat + 1 ≤ 64) := by
  cases i with
  | twr _ _ g | tlu _ _ g =>
    have := toNat_regionBits_lt g
    simp [encode]
    omega
  | cwr _ b k | polyh _ _ b k | polye _ _ b k => simp [encode, toNat_bankBits_lt, toNat_slotBits_le]
  | bfx _ _ lsb wm1 | bfxs _ _ lsb wm1 => simpa [encode, toNat_posBits] using of_decide_eq_true h
  | _ => simp [encode]

/-- The encoder's word of a well-formed command is within the further limits of R67. -/
theorem withinLimits_encode {i : Instr} (h : i.WellFormed) : withinLimits (encode i) := by
  obtain ⟨-, hg, -, hk, hf⟩ := encode_fields_inRange h
  unfold withinLimits
  split <;> rename_i hop
  case h_1 | h_2 => exact (hg (by simp [hop])).1
  case h_3 | h_4 | h_5 => exact hk (by simp [hop])
  case h_6 | h_7 => exact hf (by simp [hop])
  case h_8 => trivial

/-! ## Candidates of a row (R63) -/

section
variable {w : Cmd}

/-- A word whose lowest bit of a field is 0 has an even number in the field. -/
theorem even_of_lowBit {k : Nat} (h : w.extractLsb' k 1 = 0) : (w.extractLsb' k 4).toNat % 2 = 0 := by
  have h0 : (w.extractLsb' k 1).toNat = 0 := by rw [h]; rfl
  rw [BitVec.extractLsb'_toNat] at h0 ⊢
  rwa [Nat.mod_mod_of_dvd _ (by norm_num)]

/-- A word whose two highest bits of a field are 0 has a number below 4 in the field. -/
theorem lt_four_of_highBits {k : Nat} (h : w.extractLsb' (k + 2) 2 = 0) : (w.extractLsb' k 4).toNat < 4 := by
  have h0 : (w.extractLsb' (k + 2) 2).toNat = 0 := by rw [h]; rfl
  rw [BitVec.extractLsb'_toNat, Nat.shiftRight_add] at h0
  rw [BitVec.extractLsb'_toNat]
  omega

theorem exists_pairOf {f : BitVec 4} (h : f.toNat % 2 = 0) : ∃ p, pairOf f = .ok p := ⟨_, if_pos h⟩
theorem exists_bankOf {f : BitVec 4} (h : f.toNat < 4) : ∃ b, bankOf f = .ok b := ⟨_, dif_pos h⟩
theorem exists_slotOf {f : BitVec 4} (h : f.toNat ≤ 8) : ∃ k, slotOf f = .ok k := ⟨_, dif_pos (Nat.lt_succ_of_le h)⟩
theorem exists_regionOf {f : BitVec 4} (h : f.toNat < 3) : ∃ g, regionOf f = .ok g := by
  obtain h | h | h : f.toNat = 0 ∨ f.toNat = 1 ∨ f.toNat = 2 := by omega
  · exact ⟨.exp, by simp [regionOf, h]⟩
  · exact ⟨.log, by simp [regionOf, h]⟩
  · exact ⟨.pow, by simp [regionOf, h]⟩

/-- A candidate of a row has the row's opcode. -/
theorem fieldOp_of_candidate {j : Instr} (h : w &&& (opcodeRow j).mask = (opcodeRow j).fixedBits) :
    fieldOp w = fieldOp (encode j) := by
  have hm : ∀ k < 6, (opcodeRow j).mask.getLsbD (26 + k) = true := by cases j <;> simp only [opcodeRow] <;> decide
  exact (extract_of_mask 26 6 h hm).trans (extract_of_mask 26 6 (encode_and_mask j) hm).symm

/-- A candidate of a row within the further limits spells a command of the row's mnemonic. -/
theorem decodes_of_candidate {j : Instr} (h : w &&& (opcodeRow j).mask = (opcodeRow j).fixedBits) (hl : withinLimits w) :
    ∃ i, decode w = .ok i ∧ opcodeRow i = opcodeRow j := by
  have hop := fieldOp_of_candidate h
  cases j <;> simp only [opcodeRow] at h <;> simp only [encode, fieldOp_fieldsWord, fieldOp_immWord] at hop <;>
    rw [withinLimits, hop] at hl <;> rw [decode, hop]
  case gets | lock =>
    have hz := extract_of_mask 0 26 h (by decide)
    exact ⟨_, decodeZ_ok.mpr ⟨hz, rfl⟩, rfl⟩
  case put | get =>
    have hz := extract_of_mask 0 22 h (by decide)
    exact ⟨_, decodeR1_ok.mpr ⟨hz, rfl⟩, rfl⟩
  case xsgn | xexp | xman | classify | iclass =>
    have hz := extract_of_mask 0 18 h (by decide)
    exact ⟨_, decodeR2_ok.mpr ⟨hz, rfl⟩, rfl⟩
  case expadd | cmp =>
    have hz := extract_of_mask 0 14 h (by decide)
    exact ⟨_, decodeR3_ok.mpr ⟨hz, rfl⟩, rfl⟩
  case twosum | twoprod =>
    have hz := extract_of_mask 0 14 h (by decide)
    obtain ⟨pd, hd⟩ := exists_pairOf (even_of_lowBit (extract_of_mask 22 1 h (by decide)))
    exact ⟨_, decodeR3P_ok.mpr ⟨hz, pd, hd, rfl⟩, rfl⟩
  case ddaddd | ddmuld =>
    have hz := extract_of_mask 0 14 h (by decide)
    obtain ⟨pd, hd⟩ := exists_pairOf (even_of_lowBit (extract_of_mask 22 1 h (by decide)))
    obtain ⟨pa, ha⟩ := exists_pairOf (even_of_lowBit (extract_of_mask 18 1 h (by decide)))
    exact ⟨_, decodeR3PP_ok.mpr ⟨hz, pd, pa, hd, ha, rfl⟩, rfl⟩
  case ddadd | ddmul =>
    have hz := extract_of_mask 0 14 h (by decide)
    obtain ⟨pd, hd⟩ := exists_pairOf (even_of_lowBit (extract_of_mask 22 1 h (by decide)))
    obtain ⟨pa, ha⟩ := exists_pairOf (even_of_lowBit (extract_of_mask 18 1 h (by decide)))
    obtain ⟨pb, hb⟩ := exists_pairOf (even_of_lowBit (extract_of_mask 14 1 h (by decide)))
    exact ⟨_, decodeR3PPP_ok.mpr ⟨hz, pd, pa, pb, hd, ha, hb, rfl⟩, rfl⟩
  case pack | mux2 =>
    have hz := extract_of_mask 0 10 h (by decide)
    exact ⟨_, decodeR4_ok.mpr ⟨hz, rfl⟩, rfl⟩
  case mux3 =>
    have hz := extract_of_mask 0 2 h (by decide)
    exact ⟨_, decodeR6_ok.mpr ⟨hz, rfl⟩, rfl⟩
  case bfx | bfxs =>
    have hz := extract_of_mask 12 6 h (by decide)
    exact ⟨_, decodeIField_ok.mpr ⟨hz, hl, rfl⟩, rfl⟩
  case ctest =>
    have hz := extract_of_mask 12 6 h (by decide)
    exact ⟨_, decodeIMask_ok.mpr ⟨hz, rfl⟩, rfl⟩
  case twr | tlu =>
    have hz := extract_of_mask 0 14 h (by decide)
    have hc : (fieldC w).toNat < 4 := lt_four_of_highBits (extract_of_mask 16 2 h (by decide))
    obtain ⟨p, hp⟩ := exists_pairOf (even_of_lowBit (extract_of_mask 22 1 h (by decide)))
    obtain ⟨g, hg⟩ := exists_regionOf (Nat.lt_of_le_of_ne (Nat.le_of_lt_succ hc) hl)
    exact ⟨_, decodeMTab_ok.mpr ⟨hz, p, g, hp, hg, rfl⟩, rfl⟩
  case cwr =>
    have hz := extract_of_mask 0 10 h (by decide)
    have hB := extract_of_mask 18 4 h (by decide)
    obtain ⟨b, hb⟩ := exists_bankOf (lt_four_of_highBits (extract_of_mask 16 2 h (by decide)))
    obtain ⟨k, hk⟩ := exists_slotOf hl
    exact ⟨_, decodeMCoef_ok.mpr ⟨hz, hB, b, k, hb, hk, rfl⟩, rfl⟩
  case polyh | polye =>
    have hz := extract_of_mask 0 10 h (by decide)
    obtain ⟨b, hb⟩ := exists_bankOf (lt_four_of_highBits (extract_of_mask 16 2 h (by decide)))
    obtain ⟨n, hn⟩ := exists_slotOf hl
    exact ⟨_, decodeMPoly_ok.mpr ⟨hz, b, n, hb, hn, rfl⟩, rfl⟩

end

/-! ## Words that raise ILLEGAL -/

section
variable {w : Cmd}

/-- A word that is no encoder's word raises ILLEGAL. -/
theorem raisesIllegal_of_ne_encode (h : ∀ i : Instr, i.WellFormed → encode i ≠ w) : RaisesIllegal w :=
  raisesIllegal_of_noCommand (noCommand_of_ne fun i hd => h i (wellFormed_of_decode hd) (encode_of_decode hd))

/-! ### Undefined opcodes (R64) -/

/-- A sequence of tests none of which rejects the opcode does not reject it. -/
theorem bind_ne_undefinedOp {α β : Type} {x : Except DecodeError α} {f : α → Except DecodeError β}
    (hx : x ≠ .error .undefinedOp) (hf : ∀ a, f a ≠ .error .undefinedOp) : (x >>= f) ≠ .error .undefinedOp := by
  cases x with
  | ok a => exact hf a
  | error e => exact fun h => hx (congrArg Except.error (Except.error.inj h))

theorem zeroBits_ne_undefinedOp {lo len : Nat} : zeroBits w lo len ≠ .error .undefinedOp :=
  fun h => nomatch zeroBits_error h
theorem pairOf_ne_undefinedOp {f : BitVec 4} : pairOf f ≠ .error .undefinedOp := fun h => nomatch pairOf_error h
theorem regionOf_ne_undefinedOp {f : BitVec 4} : regionOf f ≠ .error .undefinedOp := fun h => nomatch regionOf_error h
theorem bankOf_ne_undefinedOp {f : BitVec 4} : bankOf f ≠ .error .undefinedOp := fun h => nomatch bankOf_error h
theorem slotOf_ne_undefinedOp {f : BitVec 4} : slotOf f ≠ .error .undefinedOp := fun h => nomatch slotOf_error h

/-- The format of a defined opcode rejects a word under another name. -/
theorem decode_ne_undefinedOp (h : (fieldOp w).toNat ∈ definedOps) : decode w ≠ .error .undefinedOp := by
  unfold decode
  split
  case h_29 => simp_all [definedOps]
  case h_1 | h_2 | h_3 | h_6 | h_8 | h_9 | h_10 | h_13 | h_14 | h_15 | h_16 | h_17 | h_18 | h_19 | h_20 =>
    exact bind_ne_undefinedOp zeroBits_ne_undefinedOp nofun
  case h_21 | h_22 =>
    exact bind_ne_undefinedOp zeroBits_ne_undefinedOp fun _ => bind_ne_undefinedOp pairOf_ne_undefinedOp nofun
  case h_23 | h_25 =>
    exact bind_ne_undefinedOp zeroBits_ne_undefinedOp fun _ => bind_ne_undefinedOp pairOf_ne_undefinedOp fun _ =>
      bind_ne_undefinedOp pairOf_ne_undefinedOp nofun
  case h_24 | h_26 =>
    exact bind_ne_undefinedOp zeroBits_ne_undefinedOp fun _ => bind_ne_undefinedOp pairOf_ne_undefinedOp fun _ =>
      bind_ne_undefinedOp pairOf_ne_undefinedOp fun _ => bind_ne_undefinedOp pairOf_ne_undefinedOp nofun
  case h_4 | h_7 =>
    exact bind_ne_undefinedOp zeroBits_ne_undefinedOp fun _ => bind_ne_undefinedOp pairOf_ne_undefinedOp fun _ =>
      bind_ne_undefinedOp regionOf_ne_undefinedOp nofun
  case h_5 =>
    exact bind_ne_undefinedOp zeroBits_ne_undefinedOp fun _ => bind_ne_undefinedOp zeroBits_ne_undefinedOp fun _ =>
      bind_ne_undefinedOp bankOf_ne_undefinedOp fun _ => bind_ne_undefinedOp slotOf_ne_undefinedOp nofun
  case h_27 | h_28 =>
    exact bind_ne_undefinedOp zeroBits_ne_undefinedOp fun _ => bind_ne_undefinedOp bankOf_ne_undefinedOp fun _ =>
      bind_ne_undefinedOp slotOf_ne_undefinedOp nofun
  case h_11 | h_12 =>
    refine bind_ne_undefinedOp zeroBits_ne_undefinedOp fun _ => ?_
    dsimp only
    split <;> nofun

/-- No arm of the opcode map takes an opcode that it does not list. -/
theorem decode_of_undefinedOp (h : (fieldOp w).toNat ∉ definedOps) : decode w = .error .undefinedOp := by
  unfold decode
  split
  case h_29 => rfl
  all_goals simp_all [definedOps]

theorem decode_undefinedOp_iff : decode w = .error .undefinedOp ↔ (fieldOp w).toNat ∉ definedOps :=
  ⟨fun hd h => decode_ne_undefinedOp h hd, decode_of_undefinedOp⟩

end

/-! ## The words of the polynomial commands (R67, R69) -/

theorem encode_polyh (rd rs : Reg) (b : Bank) (n : Slot) :
    encode (.polyh rd rs b n) = 0xC0000000 ||| shl rd 22 ||| shl rs 18 ||| shl b 14 ||| shl n 10 := by
  simp [encode, fieldsWord, shl]

theorem encode_polye (rd rs : Reg) (b : Bank) (n : Slot) :
    encode (.polye rd rs b n) = 0xC4000000 ||| shl rd 22 ||| shl rs 18 ||| shl b 14 ||| shl n 10 := by
  simp [encode, fieldsWord, shl]

end Sys2Proof.Machine

open Sys2Proof Sys2Proof.Machine

/-- Settles O3: the row fixes all bits but the operands', and the limits are what the operand codes leave open. -/
theorem candidateWordsWithinLimitsAreLegal : Obligations.CandidateWordsWithinLimitsAreLegal := by
  refine ⟨fun w i hd => ?_, fun w j h => ⟨decodes_of_candidate h, fun ⟨i, hd, _⟩ => ?_⟩⟩ <;> rw [← encode_of_decode hd]
  · exact encode_and_mask i
  · exact withinLimits_encode (wellFormed_of_decode hd)

/-- Settles O4: the arms of the decoder are the listed opcodes. -/
theorem undefinedOpcodeRaisesIllegal : Obligations.UndefinedOpcodeRaisesIllegal :=
  ⟨by decide, fun _ => ⟨decode_undefinedOp_iff, fun h =>
    raisesIllegal_of_noCommand ⟨.undefinedOp, decode_of_undefinedOp h⟩⟩⟩

/-- Settles O5: no encoder's word has a 1 in an unused bit. -/
theorem unusedBitRaisesIllegal : Obligations.UnusedBitRaisesIllegal := by
  refine fun w _ h => raisesIllegal_of_ne_encode ?_
  rintro i - rfl
  exact h (encode_and_unusedBits i)

/-- Settles O6: the pair fields of an encoder's word are even. -/
theorem oddPairFieldRaisesIllegal : Obligations.OddPairFieldRaisesIllegal := by
  refine fun w h => raisesIllegal_of_ne_encode ?_
  rintro i - rfl
  obtain ⟨hA, hB, hC⟩ := encode_pairFields_even i
  rcases h with ⟨hop, h⟩ | ⟨hop, h⟩ | ⟨hop, h⟩
  · exact Nat.mod_two_ne_one.mpr (hA hop) h
  · exact Nat.mod_two_ne_one.mpr (hB hop) h
  · exact Nat.mod_two_ne_one.mpr (hC hop) h

/-- Settles O7: every degree has its encoder's word, and the fields of an encoder's word are inside their ranges. -/
theorem fieldOutOfRangeRaisesIllegal : Obligations.FieldOutOfRangeRaisesIllegal := by
  refine ⟨fun rd rs b n => ⟨?_, ?_⟩, fun w h => raisesIllegal_of_ne_encode ?_⟩
  · rw [← encode_polyh]
    exact decode_encode rfl
  · rw [← encode_polye]
    exact decode_encode rfl
  · rintro i hi rfl
    obtain ⟨hC, hG, hB, hD, hF⟩ := encode_fields_inRange hi
    rcases h with ⟨hop, h⟩ | ⟨hop, h⟩ | ⟨hop, h⟩ | ⟨hop, h⟩ | ⟨hop, h⟩
    · exact absurd (hC hop) (by omega)
    · exact h.elim (hG hop).1 (absurd (hG hop).2)
    · exact h (hB hop)
    · exact absurd (hD hop) (by omega)
    · exact absurd (hF hop) (by omega)
end

section
/-! SUPPORT. The data word of a transaction is PUT's operand and no other command's (30_encoding.md R60, 40_transfer.md R80).
Settles O21. -/

namespace Sys2Proof.Machine

/-- The state with the data word `d` on the interface. -/
def withData (d : Word) (s : State) : State := { s with wdata := d }

/-- The second state is the first with the data word `d`. -/
abbrev DiffersInData (d : Word) (s s' : State) : Prop := s' = withData d s

/-- The registers, STATUS and the answers do not look at the data word. -/
theorem indistinct_differsInData (d : Word) : Indistinct (DiffersInData d) where
  regs h := by rw [h]; rfl
  fault h := by rw [h]; rfl
  writeReg _ _ h := by rw [h]; rfl
  answered _ _ h := by rw [h]; rfl
  faultState _ h := by rw [h]; rfl

section
variable {d : Word} {s : State}

theorem follows_inPhase_withData {p : Phase} {body body' : Result} (hb : Follows (DiffersInData d) body body') :
    Follows (DiffersInData d) (inPhase p s body) (inPhase p (withData d s) body') := by
  by_cases hp : s.status.phase = p
  · rw [inPhase_of_eq hp, inPhase_of_eq (s := withData d s) hp]
    exact hb
  · rw [inPhase_of_ne hp, inPhase_of_ne (s := withData d s) hp]
    exact .raise (indistinct_differsInData d) rfl _

theorem follows_withEntry_withData {g : Region} {k : Nat} {body body' : DoubleDouble → Result}
    (hb : ∀ e, Follows (DiffersInData d) (body e) (body' e)) :
    Follows (DiffersInData d) (withEntry s g k body) (withEntry (withData d s) g k body') := by
  refine .withIndex (indistinct_differsInData d) rfl ?_
  rw [show (withData d s).mem = s.mem from rfl]
  cases tabRead s.mem g k with
  | some e => exact hb e
  | none => exact .raise (indistinct_differsInData d) rfl _

theorem follows_withCoefs_withData {b : Bank} {n : Slot} {body body' : List Word → Result}
    (hb : ∀ cs, Follows (DiffersInData d) (body cs) (body' cs)) :
    Follows (DiffersInData d) (withCoefs s b n body) (withCoefs (withData d s) b n body') := by
  rw [withCoefs, withCoefs, show (withData d s).mem = s.mem from rfl]
  cases readCoefs s.mem b n with
  | some cs => exact hb cs
  | none => exact .raise (indistinct_differsInData d) rfl _

/-- Every command but PUT goes the same way whatever the data word: those that need a phase look at the phase, the registers
and the memories, the others at less (`exec_follows`). -/
theorem exec_follows_withData {i : Instr} (hi : ∀ rd, i ≠ .put rd) :
    Follows (DiffersInData d) (exec i s) (exec i (withData d s)) := by
  have hR := indistinct_differsInData d
  cases i with
  | put rd => exact absurd rfl (hi rd)
  | twr pa ri g =>
    exact .command hR rfl <| follows_inPhase_withData <| .withReg hR rfl fun _ => .withPair hR rfl fun _ =>
      .withIndex hR rfl (.complete hR rfl)
  | cwr ra b k => exact .command hR rfl <| follows_inPhase_withData <| .withReg hR rfl fun _ => .complete hR rfl
  | tlu pd ri g =>
    exact .command hR rfl <| follows_inPhase_withData <| .withReg hR rfl fun _ => follows_withEntry_withData fun _ =>
      .complete hR (hR.writePair rfl pd _)
  | polyh rd rs b n | polye rd rs b n =>
    exact .command hR rfl <| follows_inPhase_withData <| .withReg hR rfl fun _ => follows_withCoefs_withData fun _ =>
      .complete hR (hR.writeReg rd _ rfl)
  | gets => exact .answerData hR rfl _
  | lock => exact .command hR rfl (.complete hR rfl)
  | _ => exact exec_follows hR rfl rfl (by simp) (by simp) fun rd h => absurd h (hi rd)

end

end Sys2Proof.Machine

open Sys2Proof Sys2Proof.Machine

/-- Settles O21: what a command answers with another data word follows what it answers with its own. -/
theorem dataWordIsIgnoredExceptByPut : Obligations.DataWordIsIgnoredExceptByPut := by
  intro i s t d hi h
  obtain ⟨_, ht, rfl⟩ := exec_follows_withData (d := d) hi t h
  exact ht
end

section
/-! SUPPORT. What a command with one source writes, and the bit field `[m:0]` (30_encoding.md R70, 42_classify.md R93). Settles
O33. -/

namespace Sys2Proof.Machine

/-! ## A completed command with one source -/

section
variable {s : State}

/-- A register write answered OK is all that a command of that kind does. -/
theorem writesReg_answered (s : State) (r : Reg) (w : Word) : WritesReg s (answered (writeReg s r w) .ok 0) r w :=
  ⟨rfl, readReg_writeReg_self s r w, fun _ h => readReg_writeReg_ne s w h, rfl, rfl, rfl, rfl, rfl⟩

theorem unaryCommand_writesReg {rs : Reg} {w : Word} (hh : ¬ Halted s) (hr : readReg s rs = some w) (f : Word → Word)
    (rd : Reg) : ∃ t, unaryCommand f rd rs s = .next t ∧ WritesReg s t rd (f w) :=
  ⟨_, (command_of_healthy hh _).trans (withReg_of_some hr _), writesReg_answered s rd (f w)⟩

theorem fieldCommand_writesReg {rs : Reg} {w : Word} {lsb wm1 : BitPos} (hf : fieldFits lsb wm1) (hh : ¬ Halted s)
    (hr : readReg s rs = some w) (f : Word → BitPos → BitPos → Word) (rd : Reg) :
    ∃ t, fieldCommand f rd rs lsb wm1 s = .next t ∧ WritesReg s t rd (f w lsb wm1) := by
  rw [fieldCommand, if_pos hf]
  exact unaryCommand_writesReg hh hr _ rd

end

/-! ## The field of a word -/

theorem getLsbD_zextField (w : Word) (lsb wm1 : BitPos) (j : Nat) :
    (zextField w lsb wm1).getLsbD j = (decide (j ≤ wm1.val) && w.getLsbD (lsb.val + j)) := by
  rw [zextField, BitVec.getLsbD_setWidth, BitVec.getLsbD_extractLsb']
  have := wm1.isLt
  by_cases h : j ≤ wm1.val
  · simp [h, show j < 64 by omega, Nat.lt_succ_of_le h]
  · simp [h, show ¬ j < wm1.val + 1 by omega]

/-- The field of all 64 bits is the word. -/
theorem zextField_full (w : Word) : zextField w 0 63 = w := by
  refine BitVec.eq_of_getLsbD_eq fun j hj => ?_
  rw [getLsbD_zextField]
  simp [show j ≤ 63 by omega]

/-! ## A word without its sign (00_scope.md R9, R11) -/

section
variable {v w : Word}

theorem bexp_congr (h : ∀ j < 63, v.getLsbD j = w.getLsbD j) : bexp v = bexp w := by
  refine congrArg BitVec.toNat (BitVec.eq_of_getLsbD_eq fun i hi => ?_)
  rw [BitVec.getLsbD_extractLsb', BitVec.getLsbD_extractLsb', h _ (by omega)]

theorem mant_congr (h : ∀ j < 63, v.getLsbD j = w.getLsbD j) : mant v = mant w := by
  refine congrArg BitVec.toNat (BitVec.eq_of_getLsbD_eq fun i hi => ?_)
  rw [BitVec.getLsbD_extractLsb', BitVec.getLsbD_extractLsb', h _ (by omega)]

/-- A word with the sign cleared and the other bits kept has the magnitude as its value. -/
theorem val_eq_abs_val (hs : sign v = false) (h : ∀ j < 63, v.getLsbD j = w.getLsbD j) : val v = |val w| := by
  rw [val_of_not_sign hs, abs_val, lowBits, lowBits, bexp_congr h, mant_congr h]

theorem isNan_congr (h : ∀ j < 63, v.getLsbD j = w.getLsbD j) : IsNan v ↔ IsNan w := by
  rw [IsNan, IsNan, bexp_congr h, mant_congr h]

end

end Sys2Proof.Machine

open Sys2Proof Sys2Proof.Machine

/-- Settles O33: the field of all bits is the word, and the field `[62:0]` is the word without its sign. -/
theorem movCopiesAndFabsClearsTheSign : Obligations.MovCopiesAndFabsClearsTheSign := by
  intro rd rs s w hh hr
  constructor
  · have hmov := fieldCommand_writesReg (lsb := 0) (wm1 := 63) (by decide) hh hr zextField rd
    rwa [zextField_full] at hmov
  · obtain ⟨t, ht, hw⟩ := fieldCommand_writesReg (lsb := 0) (wm1 := 62) (by decide) hh hr zextField rd
    have hsign : (zextField w 0 62).getLsbD 63 = false := by rw [getLsbD_zextField]; rfl
    have hbits : ∀ j < 63, (zextField w 0 62).getLsbD j = w.getLsbD j := fun j hj => by
      simp [getLsbD_zextField, show j ≤ 62 by omega]
    exact ⟨t, _, ht, hw, hsign, hbits, fun _ => val_eq_abs_val hsign hbits, (isNan_congr hbits).mpr⟩
end

section
/-! SUPPORT. The unused bits of a format as a command's list of faults names them, the answer of a halted block, and the fields
of the word STATUS (10_state.md R34; 30_encoding.md R65; 40_transfer.md R80 to R82). Settles O8 and O24 to O26. -/

namespace Sys2Proof.Machine

/-! ## A 1 in an unused bit (30_encoding.md R65) -/

/-- A 1 among bits that the format of a defined opcode does not use raises ILLEGAL. -/
theorem illegalWhen_unusedBits {op lo len : Nat} (hop : op ∈ definedOps)
    (hm : ∀ j < len, (unusedBits op).getLsbD (lo + j) = true) : IllegalWhen op fun w => w.extractLsb' lo len ≠ 0 := by
  rintro w rfl hw
  refine unusedBitRaisesIllegal w hop fun hz => hw ?_
  simpa using extract_of_mask lo len hz hm

/-! ## The words of the transfer commands (40_transfer.md R80, R81) -/

theorem encode_put (rd : Reg) : encode (.put rd) = 0x04000000 ||| shl rd 22 := by
  simp [encode, fieldsWord, shl]

theorem encode_get (rs : Reg) : encode (.get rs) = 0x08000000 ||| shl rs 22 := by
  simp [encode, fieldsWord, shl]

/-! ## What the transfer commands do -/

section
variable {s : State}

/-- An answer OK with a data word is all that GET and GETS do. -/
theorem answersOnly_answered (s : State) (w : Word) : AnswersOnly s (answered s .ok w) w :=
  ⟨rfl, readReg_answered s .ok w, rfl, rfl, rfl, rfl, rfl⟩

theorem exec_put_of_healthy (hh : ¬ Halted s) (rd : Reg) :
    exec (.put rd) s = .next (answered (writeReg s rd s.wdata) .ok 0) := command_of_healthy hh _

theorem exec_get_of_some {rs : Reg} {w : Word} (hh : ¬ Halted s) (hr : readReg s rs = some w) :
    exec (.get rs) s = .next (answered s .ok w) := (command_of_healthy hh _).trans (withReg_of_some hr _)

theorem exec_get_of_none {rs : Reg} (hh : ¬ Halted s) (hr : readReg s rs = none) :
    exec (.get rs) s = raise .unwritten s := (command_of_healthy hh _).trans (withReg_of_none hr _)

theorem exec_gets (s : State) : exec .gets s = .next (answered s .ok (statusWord s.status)) := rfl

end

/-! ## The halted block (60_exceptions.md R163) -/

section
variable {s : State}

/-- Of the shapes that a command can leave, a halted block admits one for a command other than GETS. -/
theorem exec_of_halted {i : Instr} (hh : Halted s) (hi : i ≠ .gets) : exec i s = .next (answered s .halted 0) := by
  obtain ⟨t, ht⟩ := exec_answers i s
  rw [ht]
  cases exec_shape ht with
  | halted _ _ h => rw [h]
  | gets h => exact absurd h hi
  | faulted h | get h | lock h | twr h | cwr h | reg h | pair h => exact absurd hh h

/-- A halted block ignores every word but the GETS word, legal or not. -/
theorem step_of_halted {w : Cmd} {data : Word} {rest : List HostEvent} (hh : Halted s)
    (hs : s.host = .transaction w data :: rest) (hw : w ≠ 0x0C000000) :
    step s = .next (answered (present s w data rest) .halted 0) := by
  rcases decode_ok_or_noCommand w with ⟨i, hd⟩ | hd
  · rw [step_of_command hs hd]
    refine exec_of_halted hh fun hi => hw ?_
    rw [← encode_of_decode hd, hi]
    rfl
  · rw [step_of_noCommand hs hd]
    exact command_of_halted (s := present s w data rest) hh _

end

/-! ## The fields of the word STATUS (10_state.md R34) -/

theorem faultNumber_le (c : FaultCode) : faultNumber c ≤ 6 := by cases c <;> decide

theorem phaseBit_lt (p : Phase) : (phaseBit p).toNat < 2 := (phaseBit p).isLt

section
variable (t : Status)

/-- STATUS as a number: its three fields do not overlap. -/
theorem toNat_statusWord :
    (statusWord t).toNat = t.fcmd.toNat * 2 ^ 32 + faultNumber t.fault * 2 ^ 4 + (phaseBit t.phase).toNat := by
  have hfault := faultNumber_le t.fault
  have hphase := phaseBit_lt t.phase
  have hfcmd := t.fcmd.isLt
  have hor : (statusWord t).toNat =
      2 ^ 32 * t.fcmd.toNat ||| (2 ^ 4 * faultNumber t.fault ||| (phaseBit t.phase).toNat) := by
    simp (disch := omega) only [statusWord, BitVec.toNat_or, BitVec.toNat_shiftLeft, BitVec.toNat_setWidth,
      BitVec.toNat_ofNat, Nat.shiftLeft_eq, Nat.mod_eq_of_lt, Nat.or_assoc, Nat.mul_comm]
  have hlow := Nat.two_pow_add_eq_or_of_lt (i := 4) (b := (phaseBit t.phase).toNat) (by omega) (faultNumber t.fault)
  rw [hor, ← hlow, ← Nat.two_pow_add_eq_or_of_lt (by omega)]
  omega

theorem toNat_field_statusWord (lo len : Nat) : ((statusWord t).extractLsb' lo len).toNat =
    (t.fcmd.toNat * 2 ^ 32 + faultNumber t.fault * 2 ^ 4 + (phaseBit t.phase).toNat) / 2 ^ lo % 2 ^ len := by
  rw [BitVec.extractLsb'_toNat, toNat_statusWord, Nat.shiftRight_eq_div_pow]

theorem statusWord_phase : (statusWord t).extractLsb' 0 1 = phaseBit t.phase := by
  refine BitVec.eq_of_toNat_eq ((toNat_field_statusWord t 0 1).trans ?_)
  have := phaseBit_lt t.phase
  omega

theorem statusWord_bits_3_1 : (statusWord t).extractLsb' 1 3 = 0#3 := by
  refine BitVec.eq_of_toNat_eq ((toNat_field_statusWord t 1 3).trans ?_)
  have := phaseBit_lt t.phase
  rw [BitVec.toNat_zero]
  omega

theorem statusWord_fault : ((statusWord t).extractLsb' 4 4).toNat = faultNumber t.fault := by
  have := phaseBit_lt t.phase
  have := faultNumber_le t.fault
  rw [toNat_field_statusWord]
  omega

theorem statusWord_bits_31_8 : (statusWord t).extractLsb' 8 24 = 0#24 := by
  refine BitVec.eq_of_toNat_eq ((toNat_field_statusWord t 8 24).trans ?_)
  have := phaseBit_lt t.phase
  have := faultNumber_le t.fault
  rw [BitVec.toNat_zero]
  omega

theorem statusWord_fcmd : (statusWord t).extractLsb' 32 32 = t.fcmd := by
  refine BitVec.eq_of_toNat_eq ((toNat_field_statusWord t 32 32).trans ?_)
  have := phaseBit_lt t.phase
  have := faultNumber_le t.fault
  omega

end

end Sys2Proof.Machine

open Sys2Proof Sys2Proof.Machine

/-- Settles O8: the decoder evaluated on each word. -/
theorem wordsOfTheRulesExamplesDecode : Obligations.WordsOfTheRulesExamplesDecode :=
  ⟨rfl, rfl, rfl, rfl, rfl, rfl, rfl, rfl, rfl, rfl, rfl, rfl⟩

/-- Settles O24: PUT is a register write of the data word, and bits 21:0 are unused. -/
theorem putWritesTheDataWord : Obligations.PutWritesTheDataWord :=
  ⟨encode_put, fun rd s hh => ⟨_, exec_put_of_healthy hh rd, writesReg_answered s rd s.wdata⟩,
    illegalWhen_unusedBits (by decide) (by decide)⟩

/-- Settles O25: GET by the written mark of its source, and bits 21:0 are unused. -/
theorem getReturnsTheRegister : Obligations.GetReturnsTheRegister :=
  ⟨encode_get, fun _ s w hh hr => ⟨_, exec_get_of_some hh hr, answersOnly_answered s w⟩,
    fun _ _ hh hr => exec_get_of_none hh hr, illegalWhen_unusedBits (by decide) (by decide)⟩

/-- Settles O26: GETS answers the word STATUS, whose fields are read one by one, and a halted block ignores every other word. -/
theorem getsReturnsStatus : Obligations.GetsReturnsStatus := by
  refine ⟨rfl, fun s => ⟨_, _, exec_gets s, answersOnly_answered s _, ?_⟩, illegalWhen_unusedBits (by decide) (by decide),
    fun s w data rest hh hs hw => ⟨_, step_of_halted hh hs hw, rfl⟩⟩
  exact ⟨statusWord_phase _, statusWord_bits_3_1 _, statusWord_fault _, faultNumber_le _, statusWord_bits_31_8 _,
    statusWord_fcmd _⟩
end

section
/-! SUPPORT. The words of the table and coefficient commands, and what each command does once its phase and its sources are
tested (20_memory.md R46, R48, R49, R51; 41_table.md R85 to R88). Settles O27 to O30. -/

namespace Sys2Proof.Machine

/-! ## The words of TWR, CWR and TLU (R85, R86, R88) -/

theorem encode_twr (pa : Pair) (ri : Reg) (g : Region) : encode (.twr pa ri g) =
    0x20000000 ||| shl (2 * pa.val) 22 ||| shl ri 18 ||| shl (regionBits g).toNat 14 := by
  simp [encode, fieldsWord, shl, BitVec.ofNat_toNat]

theorem encode_cwr (ra : Reg) (b : Bank) (k : Slot) :
    encode (.cwr ra b k) = 0x24000000 ||| shl ra 22 ||| shl b 14 ||| shl k 10 := by
  simp [encode, fieldsWord, shl]

theorem encode_tlu (pd : Pair) (ri : Reg) (g : Region) : encode (.tlu pd ri g) =
    0x2C000000 ||| shl (2 * pd.val) 22 ||| shl ri 18 ||| shl (regionBits g).toNat 14 := by
  simp [encode, fieldsWord, shl, BitVec.ofNat_toNat]

/-- TWR and TLU are illegal for the same fields: an unused bit, an odd pair, a region that does not exist, a 1 in `D`. -/
theorem illegalWhen_tableCommand {op : Nat} (hop : op ∈ [0x08, 0x0B]) : IllegalWhen op fun w =>
    w.extractLsb' 0 10 ≠ 0 ∨ (fieldA w).toNat % 2 = 1 ∨ 3 ≤ (fieldC w).toNat ∨ fieldD w ≠ 0 := by
  have hdef : op ∈ definedOps := by revert op; decide
  have hunused : ∀ j < 10, (unusedBits op).getLsbD (0 + j) = true := by revert op; decide
  have hpair : op ∈ [0x08, 0x0B, 0x28, 0x29, 0x2A, 0x2B, 0x2C, 0x2D] := by revert op; decide
  have hregion : op ∈ [0x08, 0x09, 0x0B, 0x30, 0x31] := by revert op; decide
  obtain ⟨-, hrange⟩ := fieldOutOfRangeRaisesIllegal
  rintro w rfl (h | h | h | h)
  · exact illegalWhen_unusedBits hdef hunused w rfl h
  · exact oddPairFieldRaisesIllegal w (.inl ⟨hpair, h⟩)
  · rcases Nat.eq_or_lt_of_le h with h | h
    · exact hrange w (.inr (.inl ⟨hop, .inl h.symm⟩))
    · exact hrange w (.inl ⟨hregion, h⟩)
  · exact hrange w (.inr (.inl ⟨hop, .inr h⟩))

/-- CWR is illegal for an unused bit, a 1 in `B`, a bank above 3 and a slot above 8. -/
theorem illegalWhen_cwr : IllegalWhen 0x09 fun w =>
    w.extractLsb' 0 10 ≠ 0 ∨ fieldB w ≠ 0 ∨ 3 < (fieldC w).toNat ∨ 8 < (fieldD w).toNat := by
  obtain ⟨-, hrange⟩ := fieldOutOfRangeRaisesIllegal
  rintro w hop (h | h | h | h)
  · exact illegalWhen_unusedBits (by decide) (by decide) w hop h
  · exact hrange w (.inr (.inr (.inl ⟨hop, h⟩)))
  · exact hrange w (.inl ⟨by simp [hop], h⟩)
  · exact hrange w (.inr (.inr (.inr (.inl ⟨by simp [hop], h⟩))))

/-! ## What the commands do in their phase, their sources written -/

/-- A pair write answered OK is all that a command of that kind does. -/
theorem writesPair_answered (s : State) (p : Pair) (d : DoubleDouble) :
    WritesPair s (answered (writePair s p d) .ok 0) p d.hi d.lo :=
  ⟨rfl, readReg_writePair_hi s p d, readReg_writePair_lo s p d, fun _ => readReg_writePair_ne s d, rfl, rfl, rfl, rfl, rfl⟩

section
variable {s : State} (hh : ¬ Halted s)
include hh

/-- A command in the phase that it needs raises UNWRITTEN when a source is unwritten. -/
theorem exec_of_phaseNeeded_of_someUnwritten {i : Instr} {p : Phase} (hi : i.WellFormed) (hn : phaseNeeded i = some p)
    (hp : s.status.phase = p) (h : SomeUnwritten s (sources i)) : exec i s = raise .unwritten s :=
  exec_of_someUnwritten hi hh (fun _ hq => hp.trans (Option.some.inj (hn.symm.trans hq))) h

/-- TWR in INIT with its sources written goes on to the index test. -/
theorem exec_twr_of_some {pa : Pair} {ri : Reg} {k h l : Word} (hp : s.status.phase = .init) (hk : readReg s ri = some k)
    (hhi : readReg s (pairHi pa) = some h) (hlo : readReg s (pairLo pa) = some l) (g : Region) :
    exec (.twr pa ri g) s = withIndex s g k.toNat (complete { s with mem := tabWrite s.mem g k.toNat ⟨h, l⟩ }) := by
  rw [exec, execTwr, command_of_healthy hh, inPhase_of_eq hp, withReg_of_some hk, withPair_of_some hhi hlo]

/-- CWR in INIT with its source written stores the word. -/
theorem exec_cwr_of_some {ra : Reg} {w : Word} (hp : s.status.phase = .init) (hr : readReg s ra = some w) (b : Bank)
    (k : Slot) : exec (.cwr ra b k) s = complete { s with mem := coefWrite s.mem b k w } := by
  rw [exec, execCwr, command_of_healthy hh, inPhase_of_eq hp, withReg_of_some hr]

/-- TLU in RUN with its index register written goes on to the table read. -/
theorem exec_tlu_of_some {ri : Reg} {k : Word} (hp : s.status.phase = .run) (hk : readReg s ri = some k) (pd : Pair)
    (g : Region) : exec (.tlu pd ri g) s = withEntry s g k.toNat fun d => complete (writePair s pd d) := by
  rw [exec, execTlu, command_of_healthy hh, inPhase_of_eq hp, withReg_of_some hk]

theorem exec_lock_of_healthy :
    exec .lock s = .next (answered { s with status := { s.status with phase := .run } } .ok 0) := command_of_healthy hh _

end

end Sys2Proof.Machine

open Sys2Proof Sys2Proof.Machine

/-- Settles O27: the phase test, the sources, the index test, then one table write. -/
theorem twrWritesTheEntry : Obligations.TwrWritesTheEntry := by
  refine ⟨illegalWhen_tableCommand (by decide), ⟨rfl, rfl, rfl, Nat.succ_pos _⟩, fun pa ri g => ⟨?_, fun s hh => ⟨?_, ?_⟩⟩⟩
  · rw [encode_twr]
    cases g <;> rfl
  · exact fun hp => faultsWith_phase rfl hh (by simp [hp])
  · refine fun hp => ⟨exec_of_phaseNeeded_of_someUnwritten (i := .twr pa ri g) hh rfl rfl hp, fun k h l hk hhi hlo => ?_⟩
    rw [exec_twr_of_some hh hp hk hhi hlo]
    refine ⟨fun hle => withIndex_of_le hle _, fun hlt => ⟨_, withIndex_of_lt hlt _, rfl, ?_⟩⟩
    exact ⟨tabRead_tabWrite_self .., fun _ _ => tabRead_tabWrite_ne _ _, coefRead_tabWrite _ _ _ _, rfl, rfl, rfl, rfl, rfl⟩

/-- Settles O28: the phase test, the source, then one coefficient write. -/
theorem cwrWritesTheCoefficient : Obligations.CwrWritesTheCoefficient := by
  refine ⟨illegalWhen_cwr, fun ra b k => ⟨encode_cwr ra b k, fun s hh => ⟨?_, fun hp => ⟨?_, fun w hr => ?_⟩⟩⟩⟩
  · exact fun hp => faultsWith_phase rfl hh (by simp [hp])
  · exact fun hr => exec_of_phaseNeeded_of_someUnwritten hh rfl rfl hp ⟨_, List.mem_singleton_self _, hr⟩
  · exact ⟨_, exec_cwr_of_some hh hp hr b k, rfl, coefRead_coefWrite_self .., fun _ _ => coefRead_coefWrite_ne _ _,
      tabRead_coefWrite _ _ _ _, rfl, rfl, rfl, rfl, rfl⟩

/-- Settles O30: the phase test, the source, the index and UNINIT tests of the table read, then one pair write. -/
theorem tluReadsTheEntry : Obligations.TluReadsTheEntry := by
  refine ⟨illegalWhen_tableCommand (by decide), fun pd ri g => ⟨?_, fun s hh => ⟨?_, fun hp => ⟨?_, fun k hk => ?_⟩⟩⟩⟩
  · rw [encode_tlu]
    cases g <;> rfl
  · exact fun hp => faultsWith_phase rfl hh (by simp [hp])
  · exact fun hr => exec_of_phaseNeeded_of_someUnwritten hh rfl rfl hp ⟨_, List.mem_singleton_self _, hr⟩
  · rw [exec_tlu_of_some hh hp hk]
    exact ⟨fun hle => withIndex_of_le hle _, fun hlt hn => withEntry_of_none hlt hn _, fun h l hlt he =>
      ⟨_, withEntry_of_some hlt he _, writesPair_answered s pd ⟨h, l⟩⟩⟩

/-- Settles O29: LOCK is an update of the phase, and bits 25:0 are unused. -/
theorem lockEntersRun : Obligations.LockEntersRun :=
  ⟨rfl, fun _ hh => ⟨_, exec_lock_of_healthy hh, rfl, rfl, rfl, rfl, rfl, rfl, rfl⟩,
    illegalWhen_unusedBits (by decide) (by decide)⟩
end

section
/-! SUPPORT. The words of the commands of 42_classify.md, and what those with one destination register do with their sources;
the bit fields of a word as numbers (R90 to R95, R99). Settles O31, O32, O34 and O38. -/

namespace Sys2Proof.Machine

/-! ## The words (42_classify.md R90 to R100) -/

theorem encode_xsgn (rd rs : Reg) : encode (.xsgn rd rs) = 0x40000000 ||| shl rd 22 ||| shl rs 18 := by
  simp [encode, fieldsWord, shl]

theorem encode_xexp (rd rs : Reg) : encode (.xexp rd rs) = 0x44000000 ||| shl rd 22 ||| shl rs 18 := by
  simp [encode, fieldsWord, shl]

theorem encode_xman (rd rs : Reg) : encode (.xman rd rs) = 0x48000000 ||| shl rd 22 ||| shl rs 18 := by
  simp [encode, fieldsWord, shl]

theorem encode_bfx (rd rs : Reg) (lsb wm1 : BitPos) :
    encode (.bfx rd rs lsb wm1) = 0x4C000000 ||| shl rd 22 ||| shl rs 18 ||| shl lsb 6 ||| shl wm1 0 := by
  simp [encode, immWord, shl, setWidth_fieldImmBits, BitVec.or_assoc]

theorem encode_bfxs (rd rs : Reg) (lsb wm1 : BitPos) :
    encode (.bfxs rd rs lsb wm1) = 0x50000000 ||| shl rd 22 ||| shl rs 18 ||| shl lsb 6 ||| shl wm1 0 := by
  simp [encode, immWord, shl, setWidth_fieldImmBits, BitVec.or_assoc]

theorem encode_pack (rd rs re rm : Reg) :
    encode (.pack rd rs re rm) = 0x54000000 ||| shl rd 22 ||| shl rs 18 ||| shl re 14 ||| shl rm 10 := by
  simp [encode, fieldsWord, shl]

theorem encode_expadd (rd ra rn : Reg) :
    encode (.expadd rd ra rn) = 0x58000000 ||| shl rd 22 ||| shl ra 18 ||| shl rn 14 := by
  simp [encode, fieldsWord, shl]

theorem encode_classify (rd rs : Reg) : encode (.classify rd rs) = 0x5C000000 ||| shl rd 22 ||| shl rs 18 := by
  simp [encode, fieldsWord, shl]

theorem encode_iclass (rd rs : Reg) : encode (.iclass rd rs) = 0x60000000 ||| shl rd 22 ||| shl rs 18 := by
  simp [encode, fieldsWord, shl]

theorem encode_cmp (rd ra rb : Reg) :
    encode (.cmp rd ra rb) = 0x64000000 ||| shl rd 22 ||| shl ra 18 ||| shl rb 14 := by
  simp [encode, fieldsWord, shl]

theorem encode_ctest (rd rs : Reg) (mask : BitVec 12) :
    encode (.ctest rd rs mask) = 0x68000000 ||| shl rd 22 ||| shl rs 18 ||| shl mask.toNat 0 := by
  simp [encode, immWord, shl, BitVec.ofNat_toNat]

/-- BFX and BFXS are illegal for an unused bit and for a field that runs past bit 63. -/
theorem illegalWhen_fieldCommand {op : Nat} (hop : op ∈ [0x13, 0x14]) : IllegalWhen op fun w =>
    w.extractLsb' 12 6 ≠ 0 ∨ 64 < (fieldLsb w).toNat + (fieldWm1 w).toNat + 1 := by
  have hdef : op ∈ definedOps := by revert op; decide
  have hunused : ∀ j < 6, (unusedBits op).getLsbD (12 + j) = true := by revert op; decide
  obtain ⟨-, hrange⟩ := fieldOutOfRangeRaisesIllegal
  rintro w rfl (h | h)
  · exact illegalWhen_unusedBits hdef hunused w rfl h
  · exact hrange w (.inr (.inr (.inr (.inr ⟨hop, h⟩))))

/-! ## What a command with one destination register does -/

section
variable {s : State}

theorem someUnwritten_singleton {r : Reg} : SomeUnwritten s [r] ↔ readReg s r = none := by
  simp [SomeUnwritten]

/-- A result that writes a word of which a property is known. -/
theorem exists_writesReg {r : Result} {rd : Reg} {v : Word} {P : Word → Prop}
    (h : ∃ t, r = .next t ∧ WritesReg s t rd v) (hP : P v) : ∃ t v, r = .next t ∧ WritesReg s t rd v ∧ P v := by
  obtain ⟨t, ht, hw⟩ := h
  exact ⟨t, v, ht, hw, hP⟩

variable (hh : ¬ Halted s)
include hh

/-- A command of either phase raises UNWRITTEN when a source is unwritten. -/
theorem exec_of_noPhase_of_someUnwritten {i : Instr} (hi : i.WellFormed) (hn : phaseNeeded i = none)
    (h : SomeUnwritten s (sources i)) : exec i s = raise .unwritten s :=
  exec_of_someUnwritten hi hh (fun _ hp => nomatch hn.symm.trans hp) h

theorem fieldCommand_of_not_fits {lsb wm1 : BitPos} (hf : ¬ fieldFits lsb wm1) (f : Word → BitPos → BitPos → Word)
    (rd rs : Reg) : fieldCommand f rd rs lsb wm1 s = raise .illegal s :=
  (if_neg hf).trans (command_of_healthy hh _)

theorem exec_pack_writesReg {rs re rm : Reg} {ws we wm : Word} (hs : readReg s rs = some ws) (he : readReg s re = some we)
    (hm : readReg s rm = some wm) (rd : Reg) :
    ∃ t, exec (.pack rd rs re rm) s = .next t ∧ WritesReg s t rd (packWord ws we wm) := by
  rw [exec, execPack, command_of_healthy hh, withReg_of_some hs, withReg_of_some he, withReg_of_some hm]
  exact ⟨_, rfl, writesReg_answered s rd _⟩

end

/-! ## A field as a number (R90 to R93) -/

theorem toNat_extractLsb'_setWidth (w : Word) {lo len : Nat} (h : len ≤ 64) :
    ((w.extractLsb' lo len).setWidth 64).toNat = w.toNat / 2 ^ lo % 2 ^ len := by
  rw [BitVec.toNat_setWidth_of_le h, BitVec.extractLsb'_toNat, Nat.shiftRight_eq_div_pow]

/-! ## The sign-extended field (R94) -/

section
variable (w : Word) (lsb wm1 : BitPos)

/-- Above the field stands its top bit. -/
theorem getLsbD_sextField {j : Nat} (hj : j < 64) :
    (sextField w lsb wm1).getLsbD j = w.getLsbD (lsb.val + min j wm1.val) := by
  rw [sextField, BitVec.getLsbD_signExtend, BitVec.msb_eq_getLsbD_last, Nat.add_sub_cancel]
  rcases Nat.lt_or_ge j (wm1.val + 1) with h | h
  · simp [hj, h, show min j wm1.val = j by omega]
  · simp [hj, show ¬ j < wm1.val + 1 by omega, show min j wm1.val = wm1.val by omega]

variable {lsb wm1}

/-- A field that reaches bit 63 makes BFXS an arithmetic shift right (00_scope.md R22). -/
theorem sextField_eq_sshiftRight (h : lsb.val + wm1.val + 1 = 64) : sextField w lsb wm1 = w.sshiftRight lsb.val := by
  refine BitVec.eq_of_getLsbD_eq fun j hj => ?_
  rw [getLsbD_sextField w lsb wm1 hj, BitVec.getLsbD_sshiftRight, BitVec.msb_eq_getLsbD_last]
  rcases Nat.lt_or_ge (lsb.val + j) 64 with h' | h'
  · simp [hj, h', show min j wm1.val = j by omega]
  · simp [hj, show ¬ lsb.val + j < 64 by omega, show lsb.val + min j wm1.val = 63 by omega]

theorem toInt_sextField (h : lsb.val + wm1.val + 1 = 64) : (sextField w lsb wm1).toInt = w.toInt / 2 ^ lsb.val := by
  rw [sextField_eq_sshiftRight w h, BitVec.toInt_sshiftRight, Int.shiftRight_eq_div_pow]
  norm_cast

end

/-! ## The fields of a packed word (R95) -/

section
variable (ws we wm : Word)

theorem sign_packWord : sign (packWord ws we wm) = ws.getLsbD 0 := by
  simp [packWord, sign_joinFields]

theorem bexp_packWord : bexp (packWord ws we wm) = we.toNat % 2 ^ 11 := by
  simp [packWord, bexp_joinFields]

theorem mant_packWord : mant (packWord ws we wm) = wm.toNat % 2 ^ 52 := by
  simp [packWord, mant_joinFields]

end

/-- Packing the three fields of a word, as XSGN, XEXP and XMAN give them, gives the word back. -/
theorem packWord_fields {ws we wm w : Word} (hs : ws.toNat = w.toNat / 2 ^ 63) (he : we.toNat = bexp w)
    (hm : wm.toNat = mant w) : packWord ws we wm = w := by
  refine eq_of_fields ?_ ?_ ?_
  · have := w.isLt
    rw [sign_packWord, BitVec.getLsbD, Nat.testBit_zero, sign_eq, hs, decide_eq_decide]
    omega
  · rw [bexp_packWord, he]
    exact Nat.mod_eq_of_lt (bexp_lt w)
  · rw [mant_packWord, hm, Nat.mod_eq_of_lt (mant_lt w)]

/-! ## The masked word (R99) -/

/-- The source and the mask have a common 1 exactly when the masked word is not all zeros. -/
theorem and_zextMask_ne_zero_iff (w : Word) (mask : BitVec 12) :
    w &&& zextMask mask ≠ 0 ↔ ∃ j < 12, w.getLsbD j = true ∧ mask.getLsbD j = true := by
  have hbit : ∀ j < 64, (w &&& zextMask mask).getLsbD j = (w.getLsbD j && mask.getLsbD j) := fun j hj => by
    simp [zextMask, hj]
  rw [← not_iff_not, not_not]
  push Not
  constructor
  · intro h j hj hw
    have := hbit j (by omega)
    simpa [h, hw] using this.symm
  · intro h
    refine BitVec.eq_of_getLsbD_eq fun j hj => ?_
    rw [hbit j hj]
    rcases Nat.lt_or_ge j 12 with hj' | hj'
    · simpa using h j hj'
    · simp [BitVec.getLsbD_of_ge mask j hj']

theorem predWord_eq_one_iff (b : Bool) : predWord b = 1 ↔ b = true := by cases b <;> decide

theorem predWord_eq_zero_or_one (b : Bool) : predWord b = 0 ∨ predWord b = 1 := by cases b <;> decide

end Sys2Proof.Machine

open Sys2Proof Sys2Proof.Machine

/-- Settles O31: each command writes a field of the source, widened with zeros. -/
theorem fieldExtractionResults : Obligations.FieldExtractionResults := by
  constructor
  · intro op hop
    exact illegalWhen_unusedBits (by revert op; decide) (by revert op; decide)
  · refine fun rd rs => ⟨encode_xsgn rd rs, encode_xexp rd rs, encode_xman rd rs, fun s hh => ⟨fun hr => ?_, fun w hr => ?_⟩⟩
    · have hu := someUnwritten_singleton.mpr hr
      simp only [List.forall_mem_cons, List.not_mem_nil, false_implies, implies_true, and_true]
      exact ⟨exec_of_noPhase_of_someUnwritten (i := .xsgn rd rs) hh rfl rfl hu,
        exec_of_noPhase_of_someUnwritten (i := .xexp rd rs) hh rfl rfl hu,
        exec_of_noPhase_of_someUnwritten (i := .xman rd rs) hh rfl rfl hu⟩
    · refine ⟨exists_writesReg (unaryCommand_writesReg hh hr _ rd) ?_, exists_writesReg (unaryCommand_writesReg hh hr _ rd) ?_,
        exists_writesReg (unaryCommand_writesReg hh hr _ rd) ?_⟩
      · have := w.isLt
        rw [toNat_extractLsb'_setWidth w (by decide)]
        omega
      · exact toNat_extractLsb'_setWidth w (by decide)
      · rw [toNat_extractLsb'_setWidth w (by decide), pow_zero, Nat.div_one]

/-- Settles O32: the test of the field, the source, then the field with zeros or its top bit above it. -/
theorem bitFieldResults : Obligations.BitFieldResults := by
  refine ⟨fun op => illegalWhen_fieldCommand, fun rd rs lsb wm1 => ⟨encode_bfx rd rs lsb wm1, encode_bfxs rd rs lsb wm1,
    fun s hh => ⟨fun hf => ?_, fun hf => ⟨fun hr => ?_, fun w hr => ⟨?_, ?_⟩⟩⟩⟩⟩
  · simp only [List.forall_mem_cons, List.not_mem_nil, false_implies, implies_true, and_true]
    exact ⟨fieldCommand_of_not_fits hh hf _ rd rs, fieldCommand_of_not_fits hh hf _ rd rs⟩
  · have hu := someUnwritten_singleton.mpr hr
    simp only [List.forall_mem_cons, List.not_mem_nil, false_implies, implies_true, and_true]
    exact ⟨exec_of_noPhase_of_someUnwritten (i := .bfx rd rs lsb wm1) hh (decide_eq_true hf) rfl hu,
      exec_of_noPhase_of_someUnwritten (i := .bfxs rd rs lsb wm1) hh (decide_eq_true hf) rfl hu⟩
  · exact exists_writesReg (fieldCommand_writesReg hf hh hr zextField rd) (toNat_extractLsb'_setWidth w (by omega))
  · exact exists_writesReg (fieldCommand_writesReg hf hh hr sextField rd)
      ⟨fun _ => getLsbD_sextField w lsb wm1, toInt_sextField w⟩

/-- Settles O34: the three fields of the packed word, which are all of it. -/
theorem packBuildsAWordFromFields : Obligations.PackBuildsAWordFromFields :=
  ⟨illegalWhen_unusedBits (by decide) (by decide), fun rd rs re rm => ⟨encode_pack rd rs re rm, fun _ hh =>
    ⟨exec_of_noPhase_of_someUnwritten (i := .pack rd rs re rm) hh rfl rfl, fun ws we wm hs he hm =>
      exists_writesReg (exec_pack_writesReg hh hs he hm rd)
        ⟨sign_packWord ws we wm, bexp_packWord ws we wm, mant_packWord ws we wm, fun _ => packWord_fields⟩⟩⟩⟩

/-- Settles O38: the masked word is not all zeros exactly when it has a 1 in a bit of the mask. -/
theorem ctestTestsTheMask : Obligations.CtestTestsTheMask := by
  refine ⟨illegalWhen_unusedBits (by decide) (by decide), fun rd rs mask => ⟨encode_ctest rd rs mask, fun s hh =>
    ⟨fun hr => ?_, fun w hr => exists_writesReg (unaryCommand_writesReg hh hr _ rd) ⟨predWord_eq_zero_or_one _, ?_⟩⟩⟩⟩
  · exact exec_of_noPhase_of_someUnwritten (i := .ctest rd rs mask) hh rfl rfl (someUnwritten_singleton.mpr hr)
  · rw [predWord_eq_one_iff, decide_eq_true_iff, and_zextMask_ne_zero_iff]
end

section
/-! SUPPORT. The classes of a word and the order of extended reals, and what CLASS, CMP and EXPADD write (42_classify.md R96,
R98, R100; 00_scope.md R10, R17). Settles O35, O37 and O39. -/

namespace Sys2Proof.Machine

/-! ## The classes (00_scope.md R10) -/

/-- The condition of each class on a word; an infinity or a zero is one word for each sign. -/
def ClassCondition (w : Word) (c : FpClass) : Prop :=
  match c with
  | .nan => IsNan w
  | .posInf => w = 0x7FF0000000000000
  | .negInf => w = 0xFFF0000000000000
  | .posZero => w = 0x0000000000000000
  | .negZero => w = 0x8000000000000000
  | .subnormal => bexp w = 0 ∧ mant w ≠ 0
  | .normal => 1 ≤ bexp w ∧ bexp w ≤ 2046

theorem classCondition_classOf (w : Word) : ClassCondition w (classOf w) := by
  unfold classOf
  split_ifs with he hm hs he' hm hs
  · exact ⟨he, hm⟩
  · exact eq_of_fields hs he (not_not.mp hm)
  · exact eq_of_fields (eq_false_of_ne_true hs) he (not_not.mp hm)
  · exact ⟨he', hm⟩
  · exact eq_of_fields hs he' (not_not.mp hm)
  · exact eq_of_fields (eq_false_of_ne_true hs) he' (not_not.mp hm)
  · have := bexp_lt w
    exact ⟨by omega, by omega⟩

theorem classOf_of_classCondition {w : Word} {c : FpClass} (h : ClassCondition w c) : classOf w = c := by
  cases c with
  | nan => rw [classOf, if_pos h.1, if_pos h.2]
  | posInf | negInf | posZero | negZero => cases h; decide
  | subnormal =>
    obtain ⟨he, hm⟩ := h
    rw [classOf, if_neg (by omega), if_pos he, if_pos hm]
  | normal =>
    obtain ⟨h1, h2⟩ := h
    rw [classOf, if_neg (by omega), if_neg (by omega)]

theorem classOf_eq_iff (w : Word) (c : FpClass) : classOf w = c ↔ ClassCondition w c :=
  ⟨fun h => h ▸ classCondition_classOf w, classOf_of_classCondition⟩

theorem decide_classOf_eq {w : Word} {c : FpClass} {_ : Decidable (ClassCondition w c)} :
    decide (classOf w = c) = decide (ClassCondition w c) := decide_eq_decide.mpr (classOf_eq_iff w c)

/-! ## Class words (R96) -/

/-- Bits 6:0 of a class word are the classes in the rule's order, and bit 7 is the sign. -/
theorem classBit_or_sign_bits (c : FpClass) (s : Bool) (v : Word) (hv : v = classBit c ||| (if s then 0x080 else 0)) :
    v.getLsbD 0 = decide (c = .nan) ∧ v.getLsbD 1 = decide (c = .posInf) ∧ v.getLsbD 2 = decide (c = .negInf) ∧
      v.getLsbD 3 = decide (c = .posZero) ∧ v.getLsbD 4 = decide (c = .negZero) ∧
      v.getLsbD 5 = decide (c = .subnormal) ∧ v.getLsbD 6 = decide (c = .normal) ∧ v.getLsbD 7 = s := by
  subst hv
  cases c <;> cases s <;> decide

/-- The ten words: both signs for a NaN, a subnormal and a normal; one word for each infinity and each zero. -/
theorem classWord_mem (w : Word) :
    classWord w ∈ [0x001, 0x081, 0x002, 0x084, 0x008, 0x090, 0x020, 0x0A0, 0x040, 0x0C0] := by
  have hw := classCondition_classOf w
  cases hc : classOf w with
  | nan | subnormal | normal => rw [classWord, hc]; cases sign w <;> decide
  | posInf | negInf | posZero | negZero => rw [hc] at hw; cases hw; decide

/-! ## The order of extended reals (00_scope.md R17) -/

section
variable {a b w : Word}

theorem magUnits_lt_of_isFinite (h : IsFinite w) : magUnits w < 2 ^ 2098 := by
  rw [magUnits_eq]
  calc magOfBits (lowBits w)
    _ < magOfBits infBits := magOfBits_strictMono ((isFinite_iff w).mp h)
    _ = 2 ^ 2098 := by rw [magOfBits_infBits, ← pow_add]

/-- The infinities stand beyond every finite value. -/
theorem abs_units_lt_of_isFinite (h : IsFinite w) : |units w| < 2 ^ 2098 := by
  rw [Int.abs_eq_natAbs, natAbs_units]
  exact_mod_cast magUnits_lt_of_isFinite h

theorem extUnits_of_isFinite (h : IsFinite w) : extUnits w = units w := if_neg (not_isInf_of_isFinite h)

theorem extUnits_of_isInf (h : IsInf w) : extUnits w = if sign w then -2 ^ 2098 else 2 ^ 2098 := if_pos h

theorem val_lt_val_iff (a b : Word) : val a < val b ↔ units a < units b := by
  rw [val_eq_units, val_eq_units, div_lt_div_iff_of_pos_right (by positivity), Int.cast_lt]

theorem val_eq_val_iff (a b : Word) : val a = val b ↔ units a = units b := by
  rw [val_eq_units, val_eq_units, div_left_inj' (by positivity), Int.cast_inj]

theorem fcmp_eq_un_iff : fcmp a b = .un ↔ IsNan a ∨ IsNan b := by
  unfold fcmp
  split_ifs with hn <;> simp [hn]

section
variable (ha : ¬ IsNan a) (hb : ¬ IsNan b)
include ha hb

theorem fcmp_of_not_isNan : fcmp a b =
    if extUnits a < extUnits b then .lt else if extUnits a = extUnits b then .eq else .gt :=
  if_neg (not_or.mpr ⟨ha, hb⟩)

theorem fcmp_eq_lt_iff : fcmp a b = .lt ↔ extUnits a < extUnits b := by
  rw [fcmp_of_not_isNan ha hb]
  split_ifs with h <;> simp [h]

theorem fcmp_eq_eq_iff : fcmp a b = .eq ↔ extUnits a = extUnits b := by
  rw [fcmp_of_not_isNan ha hb]
  split_ifs with h h' <;> simp [*, ne_of_lt]

theorem fcmp_eq_gt_iff : fcmp a b = .gt ↔ extUnits b < extUnits a := by
  rw [fcmp_of_not_isNan ha hb]
  split_ifs with h h' <;> simp <;> omega

end

theorem fcmp_of_isInf_isFinite (ha : IsInf a) (hb : IsFinite b) : fcmp a b = if sign a then .lt else .gt := by
  obtain ⟨hlo, hhi⟩ := abs_lt.mp (abs_units_lt_of_isFinite hb)
  have hna := not_isNan_of_isInf ha
  have hnb := not_isNan_of_isFinite hb
  cases hs : sign a
  · refine (fcmp_eq_gt_iff hna hnb).mpr ?_
    rw [extUnits_of_isInf ha, extUnits_of_isFinite hb, hs]
    exact hhi
  · refine (fcmp_eq_lt_iff hna hnb).mpr ?_
    rw [extUnits_of_isInf ha, extUnits_of_isFinite hb, hs]
    exact hlo

theorem fcmp_of_isFinite_isInf (ha : IsFinite a) (hb : IsInf b) : fcmp a b = if sign b then .gt else .lt := by
  obtain ⟨hlo, hhi⟩ := abs_lt.mp (abs_units_lt_of_isFinite ha)
  have hna := not_isNan_of_isFinite ha
  have hnb := not_isNan_of_isInf hb
  cases hs : sign b
  · refine (fcmp_eq_lt_iff hna hnb).mpr ?_
    rw [extUnits_of_isFinite ha, extUnits_of_isInf hb, hs]
    exact hhi
  · refine (fcmp_eq_gt_iff hna hnb).mpr ?_
    rw [extUnits_of_isFinite ha, extUnits_of_isInf hb, hs]
    exact hlo

theorem fcmp_of_isInf_isInf (ha : IsInf a) (hb : IsInf b) :
    fcmp a b = if sign a = sign b then .eq else if sign a then .lt else .gt := by
  have hlt : (-2 ^ 2098 : ℤ) < 2 ^ 2098 := neg_lt_self (by positivity)
  rw [fcmp_of_not_isNan (not_isNan_of_isInf ha) (not_isNan_of_isInf hb), extUnits_of_isInf ha, extUnits_of_isInf hb]
  generalize (2 : ℤ) ^ 2098 = top at hlt ⊢
  cases sign a <;> cases sign b <;> simp [hlt, hlt.not_gt, hlt.ne']

end

/-! ## Comparison words (R98) -/

theorem cmpWord_mem (o : FpOrder) : cmpWord o = 1 ∨ cmpWord o = 2 ∨ cmpWord o = 4 ∨ cmpWord o = 8 := by
  cases o <;> decide

theorem cmpWord_eq_iff (o : FpOrder) : (cmpWord o = 1 ↔ o = .lt) ∧ (cmpWord o = 2 ↔ o = .eq) ∧
    (cmpWord o = 4 ↔ o = .gt) ∧ (cmpWord o = 8 ↔ o = .un) := by
  cases o <;> decide

/-! ## Scaling by a power of two (R100) -/

section
variable {v w n : Word}

theorem expAdd_of_outside (h : OutsideExpRange w n) : expAdd w n = none := by
  by_cases he : bexp w = 0 ∨ bexp w = 2047
  · exact if_pos he
  · exact (if_neg he).trans (if_pos (by omega))

/-- Inside the range the word keeps its sign and mantissa, and its exponent field is the sum, which eleven bits hold. -/
theorem expAdd_of_inside (h : ¬ OutsideExpRange w n) : ∃ v, expAdd w n = some v ∧ sign v = sign w ∧
    (bexp v : ℤ) = bexp w + n.toInt ∧ mant v = mant w := by
  have hin : ¬ (bexp w = 0 ∨ bexp w = 2047) := by omega
  have hr : ¬ ((bexp w : ℤ) + n.toInt < 1 ∨ 2046 < (bexp w : ℤ) + n.toInt) := by omega
  refine ⟨_, (if_neg hin).trans (if_neg hr), ?_, ?_, ?_⟩
  · rw [sign_joinFields]
    exact (BitVec.getLsbD_extractLsb' 63 1 w 0).trans (Bool.true_and _)
  · rw [bexp_joinFields, BitVec.toNat_ofInt]
    omega
  · exact mant_joinFields _ _ _

/-- A normal word with the exponent field moved by `k` has `2^k` times the value. -/
theorem val_of_bexp_eq_add {k : ℤ} (hs : sign v = sign w) (he : (bexp v : ℤ) = bexp w + k) (hm : mant v = mant w)
    (hv : bexp v ≠ 0) (hw : bexp w ≠ 0) : val v = val w * 2 ^ k := by
  have hexp : (bexp v : ℤ) - 1023 = (bexp w - 1023) + k := by omega
  rw [val, val, hs, hm, if_neg hv, if_neg hw, hexp, zpow_add₀ two_ne_zero]
  ring

end

/-! ## What the commands with two sources do -/

section
variable {s : State} {ra rb : Reg} {a b : Word} (hh : ¬ Halted s) (ha : readReg s ra = some a) (hb : readReg s rb = some b)
include hh ha hb

theorem binaryCommand_writesReg (f : Word → Word → Word) (rd : Reg) :
    ∃ t, binaryCommand f rd ra rb s = .next t ∧ WritesReg s t rd (f a b) := by
  rw [binaryCommand, command_of_healthy hh, withReg_of_some ha, withReg_of_some hb]
  exact ⟨_, rfl, writesReg_answered s rd _⟩

theorem exec_expadd_of_none (he : expAdd a b = none) (rd : Reg) : exec (.expadd rd ra rb) s = raise .exprange s := by
  rw [exec, execExpadd, command_of_healthy hh, withReg_of_some ha, withReg_of_some hb, he]

theorem exec_expadd_writesReg {v : Word} (he : expAdd a b = some v) (rd : Reg) :
    ∃ t, exec (.expadd rd ra rb) s = .next t ∧ WritesReg s t rd v := by
  rw [exec, execExpadd, command_of_healthy hh, withReg_of_some ha, withReg_of_some hb, he]
  exact ⟨_, rfl, writesReg_answered s rd v⟩

end

end Sys2Proof.Machine

open Sys2Proof Sys2Proof.Machine

/-- Settles O35: each bit is the condition of its class. -/
theorem classWordsAreOneHotWithSign : Obligations.ClassWordsAreOneHotWithSign := by
  refine ⟨illegalWhen_unusedBits (by decide) (by decide), fun rd rs => ⟨encode_classify rd rs, fun s hh =>
    ⟨fun hr => ?_, fun w hr => exists_writesReg (unaryCommand_writesReg hh hr classWord rd) ?_⟩⟩⟩
  · exact exec_of_noPhase_of_someUnwritten (i := .classify rd rs) hh rfl rfl (someUnwritten_singleton.mpr hr)
  · obtain ⟨h0, h1, h2, h3, h4, h5, h6, h7⟩ := classBit_or_sign_bits (classOf w) (sign w) (classWord w) rfl
    exact ⟨h0.trans decide_classOf_eq, h1.trans decide_classOf_eq, h2.trans decide_classOf_eq, h3.trans decide_classOf_eq,
      h4.trans decide_classOf_eq, h5.trans decide_classOf_eq, h6.trans decide_classOf_eq, h7, classWord_mem w⟩

/-- Settles O37: finite words compare by their units, and the infinities lie outside the range of those. -/
theorem compareIsTheOrderOfExtendedReals : Obligations.CompareIsTheOrderOfExtendedReals := by
  refine ⟨illegalWhen_unusedBits (by decide) (by decide), fun rd ra rb => ⟨encode_cmp rd ra rb, fun s hh =>
    ⟨exec_of_noPhase_of_someUnwritten (i := .cmp rd ra rb) hh rfl rfl, fun a b ha hb =>
      exists_writesReg (binaryCommand_writesReg hh ha hb _ rd) ?_⟩⟩⟩
  obtain ⟨hlt, heq, hgt, hun⟩ := cmpWord_eq_iff (fcmp a b)
  refine ⟨cmpWord_mem _, hun.trans fcmp_eq_un_iff, fun ha hb => ?_, fun ha hb => ?_, fun ha hb => ?_, fun ha hb => ?_⟩
  · have hna := not_isNan_of_isFinite ha
    have hnb := not_isNan_of_isFinite hb
    rw [hlt, heq, hgt, fcmp_eq_lt_iff hna hnb, fcmp_eq_eq_iff hna hnb, fcmp_eq_gt_iff hna hnb, extUnits_of_isFinite ha,
      extUnits_of_isFinite hb]
    exact ⟨(val_lt_val_iff a b).symm, (val_eq_val_iff a b).symm, (val_lt_val_iff b a).symm⟩
  · rw [fcmp_of_isInf_isFinite ha hb, apply_ite cmpWord]
    rfl
  · rw [fcmp_of_isFinite_isInf ha hb, apply_ite cmpWord]
    rfl
  · rw [fcmp_of_isInf_isInf ha hb, apply_ite cmpWord, apply_ite cmpWord]
    rfl

/-- Settles O39: the exponent field of the result is the sum, so both words are normal and their values differ by `2^n`. -/
theorem expaddScalesExactlyOrFaults : Obligations.ExpaddScalesExactlyOrFaults := by
  refine ⟨illegalWhen_unusedBits (by decide) (by decide), fun rd ra rn => ⟨encode_expadd rd ra rn, fun s hh =>
    ⟨exec_of_noPhase_of_someUnwritten (i := .expadd rd ra rn) hh rfl rfl, fun w n hw hn => ⟨fun h => ?_, fun h => ?_⟩⟩⟩⟩
  · exact exec_expadd_of_none hh hw hn (expAdd_of_outside h) rd
  · obtain ⟨v, hv, hsign, hexp, hmant⟩ := expAdd_of_inside h
    exact exists_writesReg (exec_expadd_writesReg hh hw hn hv rd)
      ⟨hsign, hexp, hmant, val_of_bexp_eq_add hsign hexp hmant (by omega) (by omega)⟩
end

section
/-! SUPPORT. Whether the value of a word is an integer, and which parity it has (42_classify.md R97; 00_scope.md R11). Settles
O36. -/

namespace Sys2Proof.Machine

/-! ## Integers by the magnitude in units -/

/-- The value 1 in units of 2^-1074. -/
def oneUnits : Nat := 2 ^ 1074

theorem oneUnits_eq {k j : Nat} (h : k + j = 1074) : oneUnits = 2 ^ k * 2 ^ j := by rw [oneUnits, ← h, pow_add]

/-- What the integer class of a finite word says of its magnitude in units: whether it is a multiple of 1, and whether of 2. -/
def MagHasClass (m : Nat) (c : IntClass) : Prop :=
  match c with
  | .nonint => ¬ oneUnits ∣ m
  | .even => 2 * oneUnits ∣ m
  | .odd => oneUnits ∣ m ∧ ¬ 2 * oneUnits ∣ m

/-- A magnitude has one class only. -/
theorem MagHasClass.unique {m : Nat} {c c' : IntClass} (h : MagHasClass m c) (h' : MagHasClass m c') : c = c' := by
  have hdvd : 2 * oneUnits ∣ m → oneUnits ∣ m := (Nat.dvd_mul_left _ _).trans
  unfold MagHasClass at h h'
  generalize oneUnits = one at *
  cases c <;> cases c' <;> tauto

/-- A magnitude between 0 and 1 is no integer. -/
theorem magHasClass_nonint_of_lt {m : Nat} (h0 : 0 < m) (h : m < oneUnits) : MagHasClass m .nonint :=
  Nat.not_dvd_of_pos_of_lt h0 h

/-- A significand with its binary point in front of the last `k` bits is an integer when those are zero, and an even one when
the units bit before them is zero too. -/
theorem magHasClass_of_binaryPoint {M k j : Nat} (h : k + j = 1074) :
    (¬ 2 ^ k ∣ M → MagHasClass (M * 2 ^ j) .nonint) ∧ (2 ^ (k + 1) ∣ M → MagHasClass (M * 2 ^ j) .even) ∧
      (2 ^ k ∣ M → ¬ 2 ^ (k + 1) ∣ M → MagHasClass (M * 2 ^ j) .odd) := by
  have hpos : 0 < 2 ^ j := by positivity
  have hint : oneUnits ∣ M * 2 ^ j ↔ 2 ^ k ∣ M := by
    rw [oneUnits_eq h, Nat.mul_dvd_mul_iff_right hpos]
  have heven : 2 * oneUnits ∣ M * 2 ^ j ↔ 2 ^ (k + 1) ∣ M := by
    rw [oneUnits_eq h, ← mul_assoc, ← pow_succ', Nat.mul_dvd_mul_iff_right hpos]
  simp only [MagHasClass, hint, heven]
  exact ⟨id, id, And.intro⟩

/-! ## The significand of a normal word -/

section
variable {w : Word} {k : Nat}

theorem magUnits_of_bexp_ne_zero (h : bexp w ≠ 0) : magUnits w = (2 ^ 52 + mant w) * 2 ^ (bexp w - 1) := if_neg h

theorem two_pow_dvd_significand (hk : k ≤ 52) : 2 ^ k ∣ 2 ^ 52 + mant w ↔ mant w % 2 ^ k = 0 :=
  (Nat.dvd_add_right (pow_dvd_pow 2 hk)).trans Nat.dvd_iff_mod_eq_zero

/-- The hidden bit is the only bit of the significand at place 52. -/
theorem not_two_pow_dvd_significand : ¬ 2 ^ (52 + 1) ∣ 2 ^ 52 + mant w := by
  have := mant_lt w
  exact Nat.not_dvd_of_pos_of_lt (by omega) (by omega)

/-- With the fraction part zero, the bit before it decides. -/
theorem two_pow_succ_dvd_significand (hk : k < 52) (h : mant w % 2 ^ k = 0) :
    2 ^ (k + 1) ∣ 2 ^ 52 + mant w ↔ (mant w).testBit k = false := by
  obtain ⟨q, hq⟩ := Nat.dvd_of_mod_eq_zero h
  rw [Nat.dvd_add_right (pow_dvd_pow 2 hk), hq, pow_succ, Nat.mul_dvd_mul_iff_left (by positivity),
    Nat.testBit_two_pow_mul]
  simp [Nat.dvd_iff_mod_eq_zero]

/-! ## The case list of R97 -/

/-- A word with exponent field below 1023 has a magnitude below 1. -/
theorem magUnits_lt_oneUnits (h : bexp w < 1023) : magUnits w < oneUnits := by
  have hm := mant_lt w
  by_cases he : bexp w = 0
  · rw [magUnits, if_pos he, oneUnits_eq (k := 52) (j := 1022) rfl]
    exact hm.trans_le (Nat.le_mul_of_pos_right _ (by positivity))
  · rw [magUnits_of_bexp_ne_zero he, oneUnits_eq (k := 1074 - (bexp w - 1)) (j := bexp w - 1) (by omega)]
    have hsig : 2 ^ 52 + mant w < 2 ^ 53 := by omega
    have hexp : 2 ^ 53 ≤ 2 ^ (1074 - (bexp w - 1)) := Nat.pow_le_pow_right two_pos (by omega)
    exact Nat.mul_lt_mul_of_pos_right (hsig.trans_le hexp) (by positivity)

/-- From exponent 53 on every value is an even integer. -/
theorem magHasClass_even_of_large (h : 1076 ≤ bexp w) : MagHasClass (magUnits w) .even := by
  obtain ⟨-, heven, -⟩ := magHasClass_of_binaryPoint (M := (2 ^ 52 + mant w) * 2 ^ (bexp w - 1075)) (Nat.zero_add 1074)
  rw [magUnits_of_bexp_ne_zero (by omega), show bexp w - 1 = bexp w - 1075 + 1074 by omega, pow_add, ← mul_assoc]
  exact heven ((pow_dvd_pow 2 (by omega)).mul_left _)

/-- The case list of R97 classifies the magnitude of a finite word. -/
theorem magHasClass_intClassOf (hf : IsFinite w) : MagHasClass (magUnits w) (intClassOf w) := by
  have hsmall (hz : ¬ IsZero w) (h : bexp w < 1023) : MagHasClass (magUnits w) .nonint :=
    magHasClass_nonint_of_lt (Nat.pos_of_ne_zero (mt (magUnits_eq_zero_iff w).mp hz)) (magUnits_lt_oneUnits h)
  have hpoint (h : 1023 ≤ bexp w ∧ bexp w ≤ 1075) :=
    magHasClass_of_binaryPoint (M := 2 ^ 52 + mant w) (k := 52 - ((bexp w : ℤ) - 1023).toNat) (j := bexp w - 1) (by omega)
  dsimp only [intClassOf]
  split_ifs with hnf hz h0 hu hl hfrac hone hbit
  · exact absurd hnf hf
  · rw [(magUnits_eq_zero_iff w).mpr hz]
    exact Nat.dvd_zero _
  · exact hsmall hz (by omega)
  · exact hsmall hz (by omega)
  · exact magHasClass_even_of_large (by omega)
  all_goals rw [magUnits_of_bexp_ne_zero h0]
  all_goals obtain ⟨hnonint, heven, hodd⟩ := hpoint (by omega)
  · exact hnonint (mt (two_pow_dvd_significand (by omega)).mp hfrac)
  · refine hodd ((two_pow_dvd_significand (by omega)).mpr (not_not.mp hfrac)) ?_
    rw [hone]
    exact not_two_pow_dvd_significand
  · refine hodd ((two_pow_dvd_significand (by omega)).mpr (not_not.mp hfrac)) ?_
    rw [two_pow_succ_dvd_significand (by omega) (not_not.mp hfrac), hbit]
    simp
  · exact heven ((two_pow_succ_dvd_significand (by omega) (not_not.mp hfrac)).mpr (eq_false_of_ne_true hbit))

theorem intClassOf_eq_iff (hf : IsFinite w) (c : IntClass) : intClassOf w = c ↔ MagHasClass (magUnits w) c :=
  ⟨fun h => h ▸ magHasClass_intClassOf hf, (magHasClass_intClassOf hf).unique⟩

/-! ## Integer values -/

theorem val_eq_intCast_iff (n : ℤ) : val w = n ↔ units w = n * oneUnits := by
  have hone : (oneUnits : ℚ) = 2 ^ 1074 := by rw [oneUnits, Nat.cast_pow, Nat.cast_ofNat]
  rw [val_eq_units, div_eq_iff (by positivity), ← hone, ← Int.cast_natCast, ← Int.cast_mul, Int.cast_inj]

/-- The value is an integer, or a multiple of one, exactly when the magnitude is that multiple of 1 in units. -/
theorem exists_val_eq_iff (d : Nat) : (∃ n : ℤ, val w = ((d * n : ℤ) : ℚ)) ↔ d * oneUnits ∣ magUnits w := by
  rw [← natAbs_units, ← Int.natCast_dvd]
  simp only [val_eq_intCast_iff, Dvd.dvd, Nat.cast_mul, mul_right_comm]

theorem exists_val_eq_int_iff : (∃ n : ℤ, val w = n) ↔ oneUnits ∣ magUnits w := by
  simpa using exists_val_eq_iff (w := w) 1

theorem exists_val_eq_even_iff : (∃ n : ℤ, val w = 2 * n) ↔ 2 * oneUnits ∣ magUnits w := by
  simpa using exists_val_eq_iff (w := w) 2

/-- An odd integer is an integer that is not even. -/
theorem exists_val_eq_odd_iff :
    (∃ n : ℤ, val w = 2 * n + 1) ↔ oneUnits ∣ magUnits w ∧ ¬ 2 * oneUnits ∣ magUnits w := by
  rw [← exists_val_eq_int_iff, ← exists_val_eq_even_iff]
  constructor
  · rintro ⟨n, hn⟩
    refine ⟨⟨2 * n + 1, by simpa using hn⟩, fun ⟨m, hm⟩ => ?_⟩
    have : 2 * n + 1 = 2 * m := by exact_mod_cast hn.symm.trans hm
    omega
  · rintro ⟨⟨n, hn⟩, hne⟩
    rcases Int.even_or_odd' n with ⟨m, rfl | rfl⟩
    · exact absurd ⟨m, by simpa using hn⟩ hne
    · exact ⟨m, by simpa using hn⟩

/-! ## Integer-class words (R97) -/

theorem iclassWord_eq_iff (w : Word) : (iclassWord w = 1 ↔ intClassOf w = .nonint) ∧
    (iclassWord w = 2 ↔ intClassOf w = .even) ∧ (iclassWord w = 4 ↔ intClassOf w = .odd) := by
  unfold iclassWord
  cases intClassOf w <;> decide

theorem iclassWord_mem (w : Word) : iclassWord w = 1 ∨ iclassWord w = 2 ∨ iclassWord w = 4 := by
  unfold iclassWord
  cases intClassOf w <;> decide

theorem intClassOf_of_not_isFinite (h : ¬ IsFinite w) : intClassOf w = .nonint := if_pos (not_not.mp h)

end

end Sys2Proof.Machine

open Sys2Proof Sys2Proof.Machine

/-- Settles O36: the case list classifies the magnitude, and the value is an integer as the magnitude is a multiple of 1. -/
theorem integerClassIsTheParityOfTheValue : Obligations.IntegerClassIsTheParityOfTheValue := by
  refine ⟨illegalWhen_unusedBits (by decide) (by decide), fun rd rs => ⟨encode_iclass rd rs, fun s hh =>
    ⟨fun hr => ?_, fun w hr => exists_writesReg (unaryCommand_writesReg hh hr iclassWord rd) ?_⟩⟩⟩
  · exact exec_of_noPhase_of_someUnwritten (i := .iclass rd rs) hh rfl rfl (someUnwritten_singleton.mpr hr)
  · obtain ⟨hnonint, heven, hodd⟩ := iclassWord_eq_iff w
    refine ⟨iclassWord_mem w, fun hf => hnonint.mpr (intClassOf_of_not_isFinite hf), fun hf => ⟨?_, ?_, ?_⟩⟩
    · rw [hnonint, intClassOf_eq_iff hf, ← not_exists]
      exact not_congr exists_val_eq_int_iff.symm
    · rw [heven, intClassOf_eq_iff hf]
      exact exists_val_eq_even_iff.symm
    · rw [hodd, intClassOf_eq_iff hf]
      exact exists_val_eq_odd_iff.symm
end

section
/-! SUPPORT. What MUX2 and MUX3 select and write, and that a command which leaves the block healthy has read all its sources
(43_mux.md R105 to R107). Settles O40. -/

namespace Sys2Proof.Machine

/-! ## The words (R106, R107) -/

theorem encode_mux2 (rd rp ra rb : Reg) :
    encode (.mux2 rd rp ra rb) = 0x80000000 ||| shl rd 22 ||| shl rp 18 ||| shl ra 14 ||| shl rb 10 := by
  simp [encode, fieldsWord, shl]

theorem encode_mux3 (rd rp rq ra rb rc : Reg) : encode (.mux3 rd rp rq ra rb rc) =
    0x84000000 ||| shl rd 22 ||| shl rp 18 ||| shl rq 14 ||| shl ra 10 ||| shl rb 6 ||| shl rc 2 := by
  simp [encode, fieldsWord, shl]

/-! ## The word chosen (R105) -/

theorem isTrue_iff (p : Word) : IsTrue p ↔ p.toNat ≠ 0 := not_congr BitVec.toNat_eq

theorem mux2_eq (p a b : Word) : mux2 p a b = if p.toNat ≠ 0 then a else b := if_congr (isTrue_iff p) rfl rfl

/-- Priority: the second predicate chooses the word that the first one passes over. -/
theorem mux3_eq_mux2 (p q a b c : Word) : mux3 p q a b c = mux2 p a (mux2 q b c) := rfl

/-! ## With every source written -/

section
variable {s : State} {rp rq ra rb rc : Reg} {p q a b c : Word} (hh : ¬ Halted s)
include hh

theorem exec_mux2_of_some (hp : readReg s rp = some p) (ha : readReg s ra = some a) (hb : readReg s rb = some b) (rd : Reg) :
    exec (.mux2 rd rp ra rb) s = .next (answered (writeReg s rd (mux2 p a b)) .ok 0) := by
  rw [exec, execMux2, command_of_healthy hh, withReg_of_some hp, withReg_of_some ha, withReg_of_some hb, complete, answerData]

theorem exec_mux3_of_some (hp : readReg s rp = some p) (hq : readReg s rq = some q) (ha : readReg s ra = some a)
    (hb : readReg s rb = some b) (hc : readReg s rc = some c) (rd : Reg) :
    exec (.mux3 rd rp rq ra rb rc) s = .next (answered (writeReg s rd (mux3 p q a b c)) .ok 0) := by
  rw [exec, execMux3, command_of_healthy hh, withReg_of_some hp, withReg_of_some hq, withReg_of_some ha, withReg_of_some hb,
    withReg_of_some hc, complete, answerData]

end

/-! ## A command that leaves the block healthy (60_exceptions.md R162, R163) -/

section
variable {s t : State} (ht : ¬ Halted t)
include ht

/-- A command that leaves the block healthy found it so, and was executed. -/
theorem command_next_healthy {body : Result} (h : command s body = .next t) : ¬ Halted s ∧ body = .next t := by
  rcases command_next h with ⟨hh, rfl⟩ | h
  · exact absurd hh ht
  · exact h

/-- A source read on the way to a healthy state was written. -/
theorem withReg_next_healthy {r : Reg} {body : Word → Result} (h : withReg s r body = .next t) :
    ∃ w, readReg s r = some w ∧ body w = .next t := by
  rcases withReg_next h with ⟨-, rfl⟩ | h
  · exact absurd nofun ht
  · exact h

/-- A MUX2 that leaves the block healthy read its three sources and wrote the selected word. -/
theorem exec_mux2_next_healthy {rd rp ra rb : Reg} (h : exec (.mux2 rd rp ra rb) s = .next t) :
    ¬ Halted s ∧ ∃ p a b, readReg s rp = some p ∧ readReg s ra = some a ∧ readReg s rb = some b ∧
      t = answered (writeReg s rd (mux2 p a b)) .ok 0 := by
  obtain ⟨hs, h⟩ := command_next_healthy ht h
  obtain ⟨p, hp, h⟩ := withReg_next_healthy ht h
  obtain ⟨a, ha, h⟩ := withReg_next_healthy ht h
  obtain ⟨b, hb, h⟩ := withReg_next_healthy ht h
  exact ⟨hs, p, a, b, hp, ha, hb, complete_next h⟩

end

/-! ## MUX3 as two MUX2 (R107) -/

/-- Two MUX2 through a spare register leave in `rd` the word that MUX3 leaves there. The first MUX2 changes the spare only, so the
second reads `rp` and `ra` as MUX3 does; the spare may be any other source, or `rd`. -/
theorem exec_mux3_of_mux2_mux2 {rd rp rq ra rb rc spare : Reg} {s t u v : State} (hrp : spare ≠ rp) (hra : spare ≠ ra)
    (ht : exec (.mux2 spare rq rb rc) s = .next t) (hu : exec (.mux2 rd rp ra spare) t = .next u)
    (hv : exec (.mux3 rd rp rq ra rb rc) s = .next v) (hh : ¬ Halted u) : readReg v rd = readReg u rd := by
  obtain ⟨hht, p, a, m, hp, ha, hm, rfl⟩ := exec_mux2_next_healthy hh hu
  obtain ⟨hhs, q, b, c, hq, hb, hc, rfl⟩ := exec_mux2_next_healthy hht ht
  rw [readReg_answered, readReg_writeReg_ne _ _ hrp.symm] at hp
  rw [readReg_answered, readReg_writeReg_ne _ _ hra.symm] at ha
  rw [readReg_answered, readReg_writeReg_self, Option.some.injEq] at hm
  rw [exec_mux3_of_some hhs hp hq ha hb hc] at hv
  cases hv
  simp only [readReg_answered, readReg_writeReg_self, mux3_eq_mux2, hm]

end Sys2Proof.Machine

open Sys2Proof Sys2Proof.Machine

/-- Settles O40: all sources are read before the one register write, and MUX3 selects by nested MUX2 selects. -/
theorem multiplexersSelectByPredicate : Obligations.MultiplexersSelectByPredicate := by
  refine ⟨illegalWhen_unusedBits (by decide) (by decide), illegalWhen_unusedBits (by decide) (by decide),
    fun rd rp ra rb => ⟨encode_mux2 rd rp ra rb, fun s hh =>
      ⟨exec_of_noPhase_of_someUnwritten (i := .mux2 rd rp ra rb) hh rfl rfl, fun p a b hp ha hb => ?_⟩⟩,
    fun rd rp rq ra rb rc => ⟨encode_mux3 rd rp rq ra rb rc, fun s hh =>
      ⟨exec_of_noPhase_of_someUnwritten (i := .mux3 rd rp rq ra rb rc) hh rfl rfl, fun p q a b c hp hq ha hb hc => ?_⟩⟩,
    fun rd rp rq ra rb rc spare s t u v w hrp hra ht hu hv hw hh =>
      (exec_mux3_of_mux2_mux2 hrp hra ht hu hv hh).trans hw⟩
  · rw [← mux2_eq]
    exact ⟨_, exec_mux2_of_some hh hp ha hb rd, writesReg_answered s rd _⟩
  · rw [← mux2_eq, ← mux2_eq, ← mux3_eq_mux2]
    exact ⟨_, exec_mux3_of_some hh hp hq ha hb hc rd, writesReg_answered s rd _⟩
end

section
/-! SUPPORT. The words of the double-double commands, their odd pair fields, and the pair that a command with its sources written
writes (44_ddarith.md R110 to R116). Settles O41 to O43. -/

namespace Sys2Proof.Machine

/-! ## The words (R111 to R116) -/

theorem encode_twosum (pd : Pair) (ra rb : Reg) :
    encode (.twosum pd ra rb) = 0xA0000000 ||| shl (2 * pd.val) 22 ||| shl ra 18 ||| shl rb 14 := by
  simp [encode, fieldsWord, shl]

theorem encode_twoprod (pd : Pair) (ra rb : Reg) :
    encode (.twoprod pd ra rb) = 0xA4000000 ||| shl (2 * pd.val) 22 ||| shl ra 18 ||| shl rb 14 := by
  simp [encode, fieldsWord, shl]

theorem encode_ddaddd (pd pa : Pair) (rb : Reg) :
    encode (.ddaddd pd pa rb) = 0xA8000000 ||| shl (2 * pd.val) 22 ||| shl (2 * pa.val) 18 ||| shl rb 14 := by
  simp [encode, fieldsWord, shl]

theorem encode_ddadd (pd pa pb : Pair) :
    encode (.ddadd pd pa pb) = 0xAC000000 ||| shl (2 * pd.val) 22 ||| shl (2 * pa.val) 18 ||| shl (2 * pb.val) 14 := by
  simp [encode, fieldsWord, shl]

theorem encode_ddmuld (pd pa : Pair) (rb : Reg) :
    encode (.ddmuld pd pa rb) = 0xB0000000 ||| shl (2 * pd.val) 22 ||| shl (2 * pa.val) 18 ||| shl rb 14 := by
  simp [encode, fieldsWord, shl]

theorem encode_ddmul (pd pa pb : Pair) :
    encode (.ddmul pd pa pb) = 0xB4000000 ||| shl (2 * pd.val) 22 ||| shl (2 * pa.val) 18 ||| shl (2 * pb.val) 14 := by
  simp [encode, fieldsWord, shl]

/-! ## The words that are illegal (R65, R66) -/

theorem IllegalWhen.or {op : Nat} {P Q : Cmd → Prop} (hP : IllegalWhen op P) (hQ : IllegalWhen op Q) :
    IllegalWhen op fun w => P w ∨ Q w := fun w hop h => h.elim (hP w hop) (hQ w hop)

section
variable {op : Nat}

/-- The opcodes of the unit; all have format R3 with a pair in `A`. -/
abbrev ddOps : List Nat := [0x28, 0x29, 0x2A, 0x2B, 0x2C, 0x2D]

theorem illegalWhen_dd_unusedBits (hop : op ∈ ddOps) : IllegalWhen op fun w => w.extractLsb' 0 14 ≠ 0 :=
  illegalWhen_unusedBits (by revert op; decide) (by revert op; decide)

theorem illegalWhen_oddA (hop : op ∈ ddOps) : IllegalWhen op fun w => (fieldA w).toNat % 2 = 1 := by
  rintro w rfl h
  exact oddPairFieldRaisesIllegal w (.inl ⟨List.mem_cons_of_mem _ (List.mem_cons_of_mem _ hop), h⟩)

theorem illegalWhen_oddB (hop : op ∈ [0x2A, 0x2B, 0x2C, 0x2D]) : IllegalWhen op fun w => (fieldB w).toNat % 2 = 1 := by
  rintro w rfl h
  exact oddPairFieldRaisesIllegal w (.inr (.inl ⟨hop, h⟩))

theorem illegalWhen_oddC (hop : op ∈ [0x2B, 0x2D]) : IllegalWhen op fun w => (fieldC w).toNat % 2 = 1 := by
  rintro w rfl h
  exact oddPairFieldRaisesIllegal w (.inr (.inr ⟨hop, h⟩))

/-- TWOSUM and TWOPROD are illegal for a 1 in bits 13:0 and for an odd `pd`. -/
theorem illegalWhen_twoRegisters (hop : op ∈ [0x28, 0x29]) :
    IllegalWhen op fun w => w.extractLsb' 0 14 ≠ 0 ∨ (fieldA w).toNat % 2 = 1 := by
  have hdd : op ∈ ddOps := by revert op; decide
  exact (illegalWhen_dd_unusedBits hdd).or (illegalWhen_oddA hdd)

/-- DDADDD and DDMULD are illegal for a 1 in bits 13:0 and for an odd `pd` or `pa`. -/
theorem illegalWhen_pairRegister (hop : op ∈ [0x2A, 0x2C]) :
    IllegalWhen op fun w => w.extractLsb' 0 14 ≠ 0 ∨ (fieldA w).toNat % 2 = 1 ∨ (fieldB w).toNat % 2 = 1 := by
  have hdd : op ∈ ddOps := by revert op; decide
  have hB : op ∈ [0x2A, 0x2B, 0x2C, 0x2D] := by revert op; decide
  exact (illegalWhen_dd_unusedBits hdd).or ((illegalWhen_oddA hdd).or (illegalWhen_oddB hB))

/-- DDADD and DDMUL are illegal for a 1 in bits 13:0 and for an odd `pd`, `pa` or `pb`. -/
theorem illegalWhen_twoPairs (hop : op ∈ [0x2B, 0x2D]) : IllegalWhen op fun w =>
    w.extractLsb' 0 14 ≠ 0 ∨ (fieldA w).toNat % 2 = 1 ∨ (fieldB w).toNat % 2 = 1 ∨ (fieldC w).toNat % 2 = 1 := by
  have hdd : op ∈ ddOps := by revert op; decide
  have hB : op ∈ [0x2A, 0x2B, 0x2C, 0x2D] := by revert op; decide
  exact (illegalWhen_dd_unusedBits hdd).or ((illegalWhen_oddA hdd).or ((illegalWhen_oddB hB).or (illegalWhen_oddC hop)))

end

/-! ## The pair written, the sources written

The three shapes of the commands' operands, for whatever sequence of operations. -/

section
variable {s : State} (hh : ¬ Halted s)
include hh

theorem twoRegisters_writesPair {ra rb : Reg} {a b : Word} (ha : readReg s ra = some a) (hb : readReg s rb = some b)
    (f : Word → Word → DoubleDouble) (pd : Pair) :
    ∃ t, command s (withReg s ra fun a => withReg s rb fun b => complete (writePair s pd (f a b))) = .next t ∧
      WritesPair s t pd (f a b).hi (f a b).lo := by
  rw [command_of_healthy hh, withReg_of_some ha, withReg_of_some hb]
  exact ⟨_, rfl, writesPair_answered s pd _⟩

theorem pairRegister_writesPair {pa : Pair} {rb : Reg} {h l b : Word} (hhi : readReg s (pairHi pa) = some h)
    (hlo : readReg s (pairLo pa) = some l) (hb : readReg s rb = some b) (f : DoubleDouble → Word → DoubleDouble) (pd : Pair) :
    ∃ t, command s (withPair s pa fun a => withReg s rb fun b => complete (writePair s pd (f a b))) = .next t ∧
      WritesPair s t pd (f ⟨h, l⟩ b).hi (f ⟨h, l⟩ b).lo := by
  rw [command_of_healthy hh, withPair_of_some hhi hlo, withReg_of_some hb]
  exact ⟨_, rfl, writesPair_answered s pd _⟩

theorem twoPairs_writesPair {pa pb : Pair} {h l h' l' : Word} (hhi : readReg s (pairHi pa) = some h)
    (hlo : readReg s (pairLo pa) = some l) (hhi' : readReg s (pairHi pb) = some h') (hlo' : readReg s (pairLo pb) = some l')
    (f : DoubleDouble → DoubleDouble → DoubleDouble) (pd : Pair) :
    ∃ t, command s (withPair s pa fun a => withPair s pb fun b => complete (writePair s pd (f a b))) = .next t ∧
      WritesPair s t pd (f ⟨h, l⟩ ⟨h', l'⟩).hi (f ⟨h, l⟩ ⟨h', l'⟩).lo := by
  rw [command_of_healthy hh, withPair_of_some hhi hlo, withPair_of_some hhi' hlo']
  exact ⟨_, rfl, writesPair_answered s pd _⟩

end

end Sys2Proof.Machine

open Sys2Proof Sys2Proof.Machine

/-- Settles O41: both sources are read, then the pair that the sequence gives is written. -/
theorem twosumAndTwoprodSequences : Obligations.TwosumAndTwoprodSequences := by
  refine ⟨fun op hop => illegalWhen_twoRegisters hop, fun pd ra rb => ⟨encode_twosum pd ra rb, encode_twoprod pd ra rb,
    fun s hh => ⟨fun h => ⟨?_, ?_⟩, fun a b ha hb => ⟨?_, ?_⟩⟩⟩⟩
  · exact exec_of_noPhase_of_someUnwritten (i := .twosum pd ra rb) hh rfl rfl h
  · exact exec_of_noPhase_of_someUnwritten (i := .twoprod pd ra rb) hh rfl rfl h
  · exact twoRegisters_writesPair hh ha hb twoSum pd
  · exact twoRegisters_writesPair hh ha hb twoProd pd

/-- Settles O42: all sources are read, those of a pair included, then the pair that the sequence gives is written. -/
theorem doubleDoubleSumSequences : Obligations.DoubleDoubleSumSequences := by
  refine ⟨illegalWhen_pairRegister (by decide), illegalWhen_twoPairs (by decide),
    fun pd pa rb => ⟨encode_ddaddd pd pa rb, fun s hh =>
      ⟨exec_of_noPhase_of_someUnwritten (i := .ddaddd pd pa rb) hh rfl rfl, fun ah al b hhi hlo hb => ?_⟩⟩,
    fun pd pa pb => ⟨encode_ddadd pd pa pb, fun s hh =>
      ⟨exec_of_noPhase_of_someUnwritten (i := .ddadd pd pa pb) hh rfl rfl, fun ah al bh bl hhi hlo hhi' hlo' => ?_⟩⟩⟩
  · exact pairRegister_writesPair hh hhi hlo hb ddAddD pd
  · obtain ⟨t, ht, hw⟩ := twoPairs_writesPair hh hhi hlo hhi' hlo' ddAdd pd
    refine ⟨t, ht, ?_⟩
    simp only [ddAdd, fastTwoSum] at hw
    exact hw

/-- Settles O43: all sources are read, those of a pair included, then the pair that the sequence gives is written. -/
theorem doubleDoubleProductSequences : Obligations.DoubleDoubleProductSequences :=
  ⟨illegalWhen_pairRegister (by decide), illegalWhen_twoPairs (by decide),
    fun pd pa rb => ⟨encode_ddmuld pd pa rb, fun _ hh =>
      ⟨exec_of_noPhase_of_someUnwritten (i := .ddmuld pd pa rb) hh rfl rfl, fun _ _ _ hhi hlo hb =>
        pairRegister_writesPair hh hhi hlo hb ddMulD pd⟩⟩,
    fun pd pa pb => ⟨encode_ddmul pd pa pb, fun _ hh =>
      ⟨exec_of_noPhase_of_someUnwritten (i := .ddmul pd pa pb) hh rfl rfl, fun _ _ _ _ hhi hlo hhi' hlo' =>
        twoPairs_writesPair hh hhi hlo hhi' hlo' ddMul pd⟩⟩⟩
end

section
/-! SUPPORT. What the double-double sequences give when an operand is a NaN or an infinity, or the first operation overflows
(44_ddarith.md R119 rows (a) to (c)), and the operation inside TWOSUM that can overflow (R111). Settles O44 and O47. -/

namespace Sys2Proof.Machine

/-! ## A word that is not finite, through one operation -/

section
variable {a b w s : Word}

theorem isNan_of_isQuietNan (h : IsQuietNan w) : IsNan w := by
  refine ⟨h.1, fun h0 => ?_⟩
  have hbit : (mant w).testBit 51 = w.getLsbD 51 := by
    rw [mant_eq, Nat.testBit_mod_two_pow]
    rfl
  rw [h0, h.2] at hbit
  exact absurd hbit (by decide)

theorem isNan_or_isInf_of_not_isFinite (h : ¬ IsFinite w) : IsNan w ∨ IsInf w :=
  (ne_or_eq (mant w) 0).imp (fun hm => ⟨not_not.mp h, hm⟩) (fun hm => ⟨not_not.mp h, hm⟩)

@[simp] theorem isFinite_fneg : IsFinite (fneg w) ↔ IsFinite w := by simp only [IsFinite, bexp_fneg]
@[simp] theorem isInf_fneg : IsInf (fneg w) ↔ IsInf w := by simp only [IsInf, bexp_fneg, mant_fneg]
@[simp] theorem isNan_fneg : IsNan (fneg w) ↔ IsNan w := by simp only [IsNan, bexp_fneg, mant_fneg]

theorem fadd_isNan_left (h : IsNan a) (b : Word) : IsNan (fadd a b) := isNan_of_isQuietNan (fadd_of_isNan (.inl h))
theorem fadd_isNan_right (h : IsNan b) (a : Word) : IsNan (fadd a b) := isNan_of_isQuietNan (fadd_of_isNan (.inr h))
theorem fsub_isNan_left (h : IsNan a) (b : Word) : IsNan (fsub a b) := fadd_isNan_left h _
theorem fsub_isNan_right (h : IsNan b) (a : Word) : IsNan (fsub a b) := fadd_isNan_right (isNan_fneg.mpr h) a

/-- An infinity plus anything is that infinity or a NaN. -/
theorem fadd_isInf_left (h : IsInf s) (w : Word) : IsNan (fadd s w) ∨ fadd s w = s := by
  by_cases hw : IsFinite w
  · exact .inr (fadd_of_isInf_isFinite h hw)
  rcases isNan_or_isInf_of_not_isFinite hw with hw | hw
  · exact .inl (fadd_isNan_right hw s)
  · rw [fadd_of_isInf_isInf h hw]
    split
    · exact .inr rfl
    · exact .inl (isNan_of_isQuietNan (isQuietNan_qnanCommutative _ _ _))

theorem fadd_fneg_self_isNan (h : IsInf s) : IsNan (fadd s (fneg s)) := by
  rw [fadd_of_isInf_isInf h (isInf_fneg.mpr h), sign_fneg, if_neg (by simp)]
  exact isNan_of_isQuietNan (isQuietNan_qnanCommutative _ _ _)

/-- A sum with an operand that is not finite is not finite. -/
theorem fadd_not_isFinite (h : ¬ IsFinite a ∨ ¬ IsFinite b) : ¬ IsFinite (fadd a b) := by
  by_cases ha : IsFinite a
  · rcases isNan_or_isInf_of_not_isFinite (h.resolve_left (not_not.mpr ha)) with hb | hb
    · exact fun hf => hf (fadd_isNan_right hb a).1
    · rw [fadd_of_isFinite_isInf ha hb]
      exact h.resolve_left (not_not.mpr ha)
  · rcases isNan_or_isInf_of_not_isFinite ha with ha' | ha'
    · exact fun hf => hf (fadd_isNan_left ha' b).1
    · rcases fadd_isInf_left ha' b with hn | he
      · exact fun hf => hf hn.1
      · rwa [he]

/-- Taking `a` off a sum that is not finite, and the rest off that sum, leaves a NaN: the infinity stays or is one already. -/
theorem fsub_fsub_self_isNan (h : ¬ IsFinite s) (a : Word) : IsNan (fsub s (fsub s a)) := by
  rcases isNan_or_isInf_of_not_isFinite h with h | h
  · exact fsub_isNan_left h _
  rcases fadd_isInf_left h (fneg a) with hn | he
  · exact fsub_isNan_right hn s
  · rw [fsub, fsub, he]
    exact fadd_fneg_self_isNan h

end

/-! ## The sequences (R110 to R112) -/

section
variable {a b : Word}

theorem twoSum_hi (a b : Word) : (twoSum a b).hi = fadd a b := rfl

/-- The two words of a TWOSUM that has a NaN operand. -/
theorem twoSum_of_isNan (h : IsNan a ∨ IsNan b) : IsQuietNan (twoSum a b).hi ∧ IsQuietNan (twoSum a b).lo := by
  have hs : IsQuietNan (fadd a b) := fadd_of_isNan h
  exact ⟨hs, fadd_of_isNan (.inl (fsub_isNan_right (fsub_isNan_left (isNan_of_isQuietNan hs) _) a))⟩

/-- TWOSUM's error word is a NaN whenever its sum is not finite. -/
theorem twoSum_lo_of_not_isFinite (h : ¬ IsFinite (fadd a b)) : IsQuietNan (twoSum a b).lo :=
  fadd_of_isNan (.inl (fsub_isNan_right (fsub_fsub_self_isNan h a) a))

theorem fastTwoSum_of_isNan (h : IsNan (fadd a b)) : IsQuietNan (fastTwoSum a b).hi ∧ IsQuietNan (fastTwoSum a b).lo :=
  ⟨fadd_isQuietNan_of_isNan h, fadd_of_isNan (.inr (isNan_fneg.mpr (fsub_isNan_left h a)))⟩

theorem twoProd_of_isNan (h : IsNan a ∨ IsNan b) : IsQuietNan (twoProd a b).hi ∧ IsQuietNan (twoProd a b).lo :=
  ⟨fmul_of_isNan h, fma_of_isNan (h.imp_right .inl)⟩

/-- TWOPROD's error word is a NaN whenever a factor is infinite: the product is a NaN, or the infinity that is taken off it. -/
theorem twoProd_lo_of_isInf (h : IsInf a ∨ IsInf b) : IsQuietNan (twoProd a b).lo := by
  by_cases hn : IsNan a ∨ IsNan b
  · exact (twoProd_of_isNan hn).2
  by_cases hz : IsInf a ∧ IsZero b ∨ IsZero a ∧ IsInf b
  · exact fma_of_isInf_isZero hz
  have hi : IsInf a ∧ ¬ IsZero b ∨ IsInf b ∧ ¬ IsZero a := by tauto
  have hp : fmul a b = infWord (sign a ^^ sign b) := fmul_of_isInf hn hi
  obtain ⟨hinf, hsign⟩ := isInf_infWord (sign a ^^ sign b)
  have hinf' : IsInf (fneg (fmul a b)) := by rwa [isInf_fneg, hp]
  have hsign' : sign (fneg (fmul a b)) ≠ (sign a ^^ sign b) := by simp [hp, hsign]
  have hn' : ¬ (IsNan a ∨ IsNan b ∨ IsNan (fneg (fmul a b))) := fun h =>
    (or_assoc.mpr h).elim hn (not_isNan_of_isInf hinf')
  rw [twoProd, fma_of_isInf hn' hi, if_pos ⟨hinf', hsign'⟩]
  exact isQuietNan_qnan _ _ _ _

/-- Finite factors whose product overflows: the error word is the opposite infinity. -/
theorem twoProd_lo_of_overflow (ha : IsFinite a) (hb : IsFinite b) (h : IsInf (fmul a b)) :
    (twoProd a b).lo = fneg (fmul a b) := fma_of_isFinite_isInf ha hb (isInf_fneg.mpr h)

end

/-! ## The commands on pairs (R113 to R116)

Each ends in a FastTwoSum of the first sum or product and a correction. -/

/-- The first product of DDMULD and DDMUL has no finite value or no finite factors. -/
abbrev NoFiniteProduct (x y : Word) : Prop := ¬ IsFinite x ∨ ¬ IsFinite y ∨ IsInf (fmul x y)

/-- The correction to a product without a finite value leaves a NaN, whatever else goes into it: the product's error word is a
NaN, or the infinity that cancels the product. -/
theorem fadd_correction_isNan {x y : Word} (h : NoFiniteProduct x y) (w : Word) :
    IsNan (fadd (fmul x y) (fadd (twoProd x y).lo w)) := by
  have of_lo (hlo : IsQuietNan (twoProd x y).lo) : IsNan (fadd (fmul x y) (fadd (twoProd x y).lo w)) :=
    fadd_isNan_right (fadd_isNan_left (isNan_of_isQuietNan hlo) w) _
  by_cases hx : IsFinite x
  · by_cases hy : IsFinite y
    · have hp : IsInf (fmul x y) := (h.resolve_left (not_not.mpr hx)).resolve_left (not_not.mpr hy)
      rw [twoProd_lo_of_overflow hx hy hp]
      rcases fadd_isInf_left (isInf_fneg.mpr hp) w with hn | he
      · exact fadd_isNan_right hn _
      · rw [he]
        exact fadd_fneg_self_isNan hp
    · exact (isNan_or_isInf_of_not_isFinite hy).elim (fun hy => of_lo (twoProd_of_isNan (.inr hy)).2)
        (fun hy => of_lo (twoProd_lo_of_isInf (.inr hy)))
  · exact (isNan_or_isInf_of_not_isFinite hx).elim (fun hx => of_lo (twoProd_of_isNan (.inl hx)).2)
      (fun hx => of_lo (twoProd_lo_of_isInf (.inl hx)))

section
variable {a b : DoubleDouble} {w : Word}

theorem ddAddD_of_not_isFinite (h : ¬ IsFinite (fadd a.hi w) ∨ IsNan a.lo) :
    IsQuietNan (ddAddD a w).hi ∧ IsQuietNan (ddAddD a w).lo := by
  refine fastTwoSum_of_isNan (fadd_isNan_right ?_ _)
  rcases h with h | h
  · exact fadd_isNan_left (isNan_of_isQuietNan (twoSum_lo_of_not_isFinite h)) _
  · exact fadd_isNan_right h _

theorem ddAdd_of_not_isFinite (h : ¬ IsFinite (fadd a.hi b.hi) ∨ IsNan a.lo ∨ IsNan b.lo) :
    IsQuietNan (ddAdd a b).hi ∧ IsQuietNan (ddAdd a b).lo := by
  have hc : IsNan (fadd (twoSum a.hi b.hi).lo (twoSum a.lo b.lo).hi) := by
    rcases h with h | h
    · exact fadd_isNan_left (isNan_of_isQuietNan (twoSum_lo_of_not_isFinite h)) _
    · exact fadd_isNan_right (isNan_of_isQuietNan (fadd_of_isNan h)) _
  obtain ⟨hvh, -⟩ := fastTwoSum_of_isNan (fadd_isNan_right hc (twoSum a.hi b.hi).hi)
  exact fastTwoSum_of_isNan (fadd_isNan_left (isNan_of_isQuietNan hvh) _)

theorem ddMulD_of_not_isFinite (h : NoFiniteProduct a.hi w ∨ IsNan a.lo) :
    IsQuietNan (ddMulD a w).hi ∧ IsQuietNan (ddMulD a w).lo := by
  refine fastTwoSum_of_isNan ?_
  rcases h with h | h
  · exact fadd_correction_isNan h _
  · exact fadd_isNan_right (fadd_isNan_right (isNan_of_isQuietNan (fmul_of_isNan (.inl h))) _) _

theorem ddMul_of_not_isFinite (h : NoFiniteProduct a.hi b.hi ∨ IsNan a.lo ∨ IsNan b.lo) :
    IsQuietNan (ddMul a b).hi ∧ IsQuietNan (ddMul a b).lo := by
  refine fastTwoSum_of_isNan ?_
  rcases h with h | h | h
  · exact fadd_correction_isNan h _
  · exact fadd_isNan_right (fadd_isNan_right (fadd_isNan_right (isNan_of_isQuietNan (fmul_of_isNan (.inl h))) _) _) _
  · exact fadd_isNan_right (fadd_isNan_right (fadd_isNan_left (isNan_of_isQuietNan (fmul_of_isNan (.inr h))) _) _) _

/-- A high part or a factor that is not finite, or a NaN low part, makes both words of DDADDD and DDMULD quiet NaNs. -/
theorem ddAddD_ddMulD_of_not_isFinite (h : ¬ IsFinite a.hi ∨ IsNan a.lo ∨ ¬ IsFinite w) :
    ∀ d ∈ [ddAddD a w, ddMulD a w], IsQuietNan d.hi ∧ IsQuietNan d.lo := by
  refine List.forall_mem_cons.mpr ⟨ddAddD_of_not_isFinite ?_, List.forall_mem_singleton.mpr (ddMulD_of_not_isFinite ?_)⟩
  · rcases h with h | h | h
    · exact .inl (fadd_not_isFinite (.inl h))
    · exact .inr h
    · exact .inl (fadd_not_isFinite (.inr h))
  · rcases h with h | h | h
    · exact .inl (.inl h)
    · exact .inr h
    · exact .inl (.inr (.inl h))

/-- A high part that is not finite or a NaN low part makes both words of DDADD and DDMUL quiet NaNs. -/
theorem ddAdd_ddMul_of_not_isFinite (h : ¬ IsFinite a.hi ∨ IsNan a.lo ∨ ¬ IsFinite b.hi ∨ IsNan b.lo) :
    ∀ d ∈ [ddAdd a b, ddMul a b], IsQuietNan d.hi ∧ IsQuietNan d.lo := by
  refine List.forall_mem_cons.mpr ⟨ddAdd_of_not_isFinite ?_, List.forall_mem_singleton.mpr (ddMul_of_not_isFinite ?_)⟩
  · rcases h with h | h | h | h
    · exact .inl (fadd_not_isFinite (.inl h))
    · exact .inr (.inl h)
    · exact .inl (fadd_not_isFinite (.inr h))
    · exact .inr (.inr h)
  · rcases h with h | h | h | h
    · exact .inl (.inl h)
    · exact .inr (.inl h)
    · exact .inl (.inr (.inl h))
    · exact .inr (.inr h)

end

end Sys2Proof.Machine

open Sys2Proof Sys2Proof.Machine

/-- Settles O44: a sum or product that is not finite makes the error word a NaN, or the infinity that cancels it, and a NaN goes
through every later operation. -/
theorem extremeOperandsOfDoubleDouble : Obligations.ExtremeOperandsOfDoubleDouble := by
  have nan {w : Word} (h : IsNan w) : ¬ IsFinite w := fun hf => hf h.1
  have inf {w : Word} (h : IsInf w) : ¬ IsFinite w := fun hf => hf h.1
  refine ⟨fun a b h => ?_, fun a b h => ?_, fun a b h => ?_, fun a b h => ?_, fun a b h => ?_, fun a b h => ?_,
    fun a b ha hb => ⟨fun h => ?_, fun h => ?_⟩, fun a b _ _ _ => ⟨fun h => ?_, fun h => ?_⟩,
    fun a b _ _ _ _ => ⟨fun h => ?_, fun h => ?_⟩⟩
  · exact List.forall_mem_cons.mpr ⟨twoSum_of_isNan h, List.forall_mem_singleton.mpr (twoProd_of_isNan h)⟩
  · exact ddAddD_ddMulD_of_not_isFinite (h.imp nan (Or.imp_right nan))
  · exact ddAdd_ddMul_of_not_isFinite (h.imp nan (Or.imp_right (Or.imp_left nan)))
  · exact ⟨rfl, twoSum_lo_of_not_isFinite (fadd_not_isFinite (h.imp inf inf)), rfl, twoProd_lo_of_isInf h⟩
  · exact ddAddD_ddMulD_of_not_isFinite (h.imp inf fun hb => .inr (inf hb))
  · exact ddAdd_ddMul_of_not_isFinite (h.imp inf fun hb => .inr (.inl (inf hb)))
  · exact ⟨rfl, twoSum_lo_of_not_isFinite (inf h)⟩
  · exact ⟨rfl, twoProd_lo_of_overflow ha hb h⟩
  · exact ddAddD_of_not_isFinite (.inl (inf h))
  · exact ddMulD_of_not_isFinite (.inl (.inr (.inr h)))
  · exact ddAdd_of_not_isFinite (.inl (inf h))
  · exact ddMul_of_not_isFinite (.inl (.inr (.inr h)))

/-- Settles O47: the sequence evaluated up to its last operation, which adds opposite infinities. -/
theorem twoSumCanOverflowInside : Obligations.TwoSumCanOverflowInside := by
  have hs : fadd 0xFCA8000000000000 0x7FEFFFFFFFFFFFFF = 0x7FEFFFFFFFFFFFFE := by decide +kernel
  have hbb : fsub 0x7FEFFFFFFFFFFFFE 0xFCA8000000000000 = 0x7FF0000000000000 := by decide +kernel
  have haa : fsub 0x7FEFFFFFFFFFFFFE 0x7FF0000000000000 = 0xFFF0000000000000 := by decide +kernel
  have hdb : fsub 0x7FEFFFFFFFFFFFFF 0x7FF0000000000000 = fneg 0x7FF0000000000000 := by decide +kernel
  have hda : fsub 0xFCA8000000000000 0xFFF0000000000000 = 0x7FF0000000000000 := by decide +kernel
  refine ⟨hs, hbb, (twoSum_hi _ _).trans hs, ?_⟩
  simp only [twoSum, hs, hbb, haa, hdb, hda]
  exact fadd_isQuietNan_of_isNan (fadd_fneg_self_isNan (by decide))
end

section
/-! SUPPORT. The grid on which a finite word lies, and the rounding of a number against that of its result: a number on a grid
that has room for it is its own rounding, and any other is half a step off at most (00_scope.md R11, R12, R20). -/

namespace Sys2Proof.Machine

/-! ## The grid of a word (R11)

A finite word is a whole number of steps `2^(grid w)` of units, of at most 53 bits; subnormals and the lowest normals share the
grid 0. -/

/-- The exponent of a word's grid, in units of 2^-1074: the weight of its last place. -/
def grid (w : Word) : Nat := bexp w - 1

@[simp] theorem grid_fneg (w : Word) : grid (fneg w) = grid w := by rw [grid, bexp_fneg, grid]

section
variable {w : Word}

/-- The magnitude in steps of the grid. -/
theorem magUnits_eq_mul (w : Word) : ∃ k, magUnits w = k * 2 ^ grid w ∧ k < 2 ^ 53 ∧ (grid w = 0 ∨ 2 ^ 52 ≤ k) := by
  have hm := mant_lt w
  unfold magUnits grid
  split
  · rename_i h
    exact ⟨mant w, by simp [h], by omega, by omega⟩
  · exact ⟨2 ^ 52 + mant w, rfl, by omega, by omega⟩

theorem two_pow_grid_dvd_units (w : Word) : (2 : ℤ) ^ grid w ∣ units w := by
  obtain ⟨k, hk, -, -⟩ := magUnits_eq_mul w
  rw [← Int.dvd_natAbs, natAbs_units, hk]
  exact ⟨k, by push_cast; ring⟩

theorem abs_units_le (w : Word) : |units w| ≤ (2 ^ 53 - 1) * 2 ^ grid w := by
  obtain ⟨k, hk, hlt, -⟩ := magUnits_eq_mul w
  rw [Int.abs_eq_natAbs, natAbs_units, hk, Nat.cast_mul, Nat.cast_pow, Nat.cast_ofNat]
  exact mul_le_mul_of_nonneg_right (by omega) (by positivity)

theorem le_abs_units (h : grid w ≠ 0) : 2 ^ 52 * 2 ^ grid w ≤ |units w| := by
  obtain ⟨k, hk, -, hle⟩ := magUnits_eq_mul w
  rw [Int.abs_eq_natAbs, natAbs_units, hk]
  exact_mod_cast Nat.mul_le_mul_right _ (hle.resolve_left h)

theorem grid_le_of_isFinite (h : IsFinite w) : grid w ≤ 2045 := by
  have := bexp_lt w
  unfold grid
  unfold IsFinite at h
  omega

end

/-! ## Numbers that a finite word has -/

/-- The number of units is the value of a finite word. -/
def Representable (x : ℤ) : Prop := ∃ w : Word, IsFinite w ∧ units w = x

section
variable {x : ℤ}

theorem Representable.neg (h : Representable x) : Representable (-x) := by
  obtain ⟨w, hw, rfl⟩ := h
  exact ⟨fneg w, isFinite_fneg.mpr hw, units_fneg w⟩

/-- A number of at most 53 bits, at any scale, is the magnitude of some low bits. -/
theorem exists_magOfBits {r : Nat} (hr : r ≤ 2 ^ 53) (e : Nat) : ∃ n, magOfBits n = r * 2 ^ e := by
  induction e generalizing r with
  | zero => exact ⟨0 * 2 ^ 52 + r, magOfBits_binade hr (.inl rfl)⟩
  | succ e ih =>
    rcases Nat.lt_or_ge r (2 ^ 52) with h | h
    · obtain ⟨n, hn⟩ := ih (r := r * 2) (by omega)
      exact ⟨n, by rw [hn]; ring⟩
    · exact ⟨(e + 1) * 2 ^ 52 + r, magOfBits_binade hr (.inr h)⟩

/-- A number of at most 53 bits, at any scale, is representable below `2^1024`. -/
theorem representable_of_dvd {e : Nat} (hd : 2 ^ e ∣ x) (hle : |x| ≤ 2 ^ 53 * 2 ^ e) (hlt : |x| < 2 ^ 2098) :
    Representable x := by
  obtain ⟨r, hr⟩ := hd
  have habs : x.natAbs = r.natAbs * 2 ^ e := by rw [hr, Int.natAbs_mul, mul_comm, Int.natAbs_pow]; rfl
  have hr53 : r.natAbs ≤ 2 ^ 53 := by
    rw [Int.abs_eq_natAbs, habs] at hle
    exact Nat.le_of_mul_le_mul_right (by exact_mod_cast hle) (by positivity : 0 < 2 ^ e)
  obtain ⟨n, hn⟩ := exists_magOfBits hr53 e
  have hninf : n < infBits := by
    rw [← magOfBits_strictMono.lt_iff_lt, hn, ← habs, magOfBits_infBits, ← pow_add]
    refine Nat.cast_lt (α := ℤ).mp ?_
    rwa [Nat.cast_pow, Nat.cast_ofNat, ← Int.abs_eq_natAbs]
  have hn63 : n < 2 ^ 63 := hninf.trans (by norm_num)
  refine ⟨signMag (decide (x < 0)) n, ?_, ?_⟩
  · rwa [isFinite_iff, lowBits_signMag _ hn63]
  · rw [units_signMag _ hn63, hn, ← habs]
    simp only [decide_eq_true_eq]
    split_ifs <;> omega

end

/-! ## Rounding on a grid (R12) -/

theorem sign_eq_decide_units {w : Word} (h0 : units w ≠ 0) : sign w = decide (units w < 0) := by
  unfold units at h0 ⊢
  cases hs : sign w
  · simp
  · rw [hs, if_pos rfl] at h0
    rw [if_pos rfl, eq_comm, decide_eq_true_iff]
    omega

/-- A representable number is its own rounding. -/
theorem rne_units {w : Word} (hw : IsFinite w) (h0 : units w ≠ 0) (zs : Bool) : rne (units w * 2 ^ 1074) zs = w := by
  have hpos : (0 : ℤ) < 2 ^ 1074 := by positivity
  have hq : units w * 2 ^ 1074 ≠ 0 := mul_ne_zero h0 hpos.ne'
  have habs : ((units w * 2 ^ 1074).natAbs : ℤ) = magOfBits (lowBits w) * 2 ^ 1074 := by
    rw [← Int.abs_eq_natAbs, abs_mul, abs_of_pos hpos, Int.abs_eq_natAbs, natAbs_units, magUnits_eq]
  have hbits : roundBits (units w * 2 ^ 1074).natAbs = lowBits w := by
    obtain ⟨hle, -⟩ := roundBits_nearest (units w * 2 ^ 1074).natAbs (Int.natAbs_natCast (magOfBits (lowBits w)))
    rw [habs, sub_self, abs_zero, abs_nonpos_iff, sub_eq_zero, mul_left_inj' hpos.ne', Nat.cast_inj] at hle
    exact magOfBits_strictMono.injective hle
  apply eq_of_sign_lowBits
  · rw [sign_rne hq, sign_eq_decide_units h0]
    exact decide_eq_decide.mpr ⟨fun h => neg_of_mul_neg_left h hpos.le, fun h => mul_neg_of_neg_of_pos h hpos⟩
  · have hlt : lowBits w < infBits := (isFinite_iff w).mp hw
    rw [lowBits_rne hq, rneMag_of_lt (hbits ▸ hlt), hbits]

/-- The rounded quotient is half a step off at most. -/
theorem two_mul_abs_roundQuotient_sub_le {k rest P : Nat} (h : rest < P) :
    2 * |(roundQuotient k rest P * P : ℤ) - (k * P + rest)| ≤ P := by
  unfold roundQuotient
  split
  · rw [Nat.cast_add_one, add_one_mul, add_sub_add_left_eq_sub, abs_of_nonneg (by omega)]
    omega
  · rw [sub_add_cancel_left, abs_neg, abs_of_nonneg (by omega)]
    omega

theorem roundBits_lt_of_isFinite {q : ℤ} {zs : Bool} (h0 : q ≠ 0) (hf : IsFinite (rne q zs)) :
    roundBits q.natAbs < infBits := by
  rwa [isFinite_iff, lowBits_rne h0, rneMag_eq, min_lt_iff, or_iff_left (lt_irrefl _)] at hf

/-- A number that rounds to a finite word `w` lies within half a step of `w`, on a grid `e` no coarser than that of `w` and fine
enough for all 53 bits. -/
theorem rne_grid {q : ℤ} (h0 : q ≠ 0) (zs : Bool) (hf : IsFinite (rne q zs)) : ∃ e ≤ grid (rne q zs),
    |q| < 2 ^ 53 * 2 ^ (e + 1074) ∧ (e = 0 ∨ 2 ^ 52 * 2 ^ (e + 1074) ≤ |q|) ∧
      2 * |units (rne q zs) * 2 ^ 1074 - q| ≤ 2 ^ (e + 1074) := by
  obtain ⟨e, k, rest, hm, hrest, hk, he, hr⟩ := roundBits_spec q.natAbs
  obtain ⟨P, hP⟩ : ∃ P : ℕ, 2 ^ (e + 1074) = P := ⟨_, rfl⟩
  have hcast : (2 : ℤ) ^ (e + 1074) = P := by rw [← hP, Nat.cast_pow, Nat.cast_ofNat]
  rw [hP] at hm hrest hr
  obtain ⟨hkr, hrk⟩ := roundQuotient_le k rest P
  have hq : |q| = k * P + rest := by rw [Int.abs_eq_natAbs, hm, Nat.cast_add, Nat.cast_mul]
  have hbits : rneMag q.natAbs = e * 2 ^ 52 + roundQuotient k rest P := by
    rw [rneMag_of_lt (roundBits_lt_of_isFinite h0 hf), hr]
  have hmag : (magOfBits (rneMag q.natAbs) : ℤ) * 2 ^ 1074 = roundQuotient k rest P * P := by
    rw [hbits, magOfBits_binade (by omega) (by omega), ← hcast, pow_add, Nat.cast_mul, Nat.cast_pow, Nat.cast_ofNat,
      mul_assoc]
  refine ⟨e, ?_, ?_, ?_, ?_⟩
  · have hlow := lowBits_rne h0 zs
    have hm := mant_lt (rne q zs)
    rw [hbits, lowBits] at hlow
    rw [grid]
    omega
  · rw [hq, hcast]
    calc (k * P + rest : ℤ)
      _ < (k + 1) * P := by rw [add_one_mul]; exact add_lt_add_right (Nat.cast_lt.mpr hrest) _
      _ ≤ 2 ^ 53 * P := mul_le_mul_of_nonneg_right (by exact_mod_cast hk) (Nat.cast_nonneg P)
  · rw [hq, hcast]
    refine he.imp_right fun he => ?_
    calc (2 ^ 52 * P : ℤ)
      _ ≤ k * P := mul_le_mul_of_nonneg_right (by exact_mod_cast he) (Nat.cast_nonneg P)
      _ ≤ k * P + rest := le_add_of_nonneg_right (Nat.cast_nonneg rest)
  · rw [abs_sub_eq_abs_sign_mul_sub h0, ← mul_assoc, sign_mul_units_rne h0, hmag, ← Int.abs_eq_natAbs, hq, hcast]
    exact two_mul_abs_roundQuotient_sub_le hrest


end Sys2Proof.Machine
end

section
/-! SUPPORT. When the sums and differences of FastTwoSum and TWOSUM are exact, the error of TWOPROD, and how large an error word is
(44_ddarith.md R110 to R112, R118). Settles O45, O46 and O48 to O50. -/

namespace Sys2Proof.Machine

/-! ## Sums (00_scope.md R13, R14) -/

theorem units_zeroWord (s : Bool) : units (zeroWord s) = 0 := by cases s <;> decide

theorem isFinite_zeroWord (s : Bool) : IsFinite (zeroWord s) := by cases s <;> decide

theorem representable_units {w : Word} (hw : IsFinite w) : Representable (units w) := ⟨w, hw, rfl⟩

section
variable {a b : Word} (ha : IsFinite a) (hb : IsFinite b)
include ha hb

/-- A representable sum is exact. -/
theorem fadd_exact (h : Representable (units a + units b)) :
    IsFinite (fadd a b) ∧ units (fadd a b) = units a + units b := by
  obtain ⟨w, hw, hu⟩ := h
  rw [fadd_of_isFinite ha hb, ← hu]
  split
  · rename_i h0
    exact ⟨isFinite_zeroWord _, (units_zeroWord _).trans h0.symm⟩
  · rename_i h0
    rw [rne_units hw h0]
    exact ⟨hw, rfl⟩

/-- A representable difference is exact. -/
theorem fsub_exact (h : Representable (units a - units b)) :
    IsFinite (fsub a b) ∧ units (fsub a b) = units a - units b := by
  have hb' : IsFinite (fneg b) := isFinite_fneg.mpr hb
  rw [sub_eq_add_neg, ← units_fneg] at h ⊢
  exact fadd_exact ha hb' h

variable (hs : IsFinite (fadd a b))
include hs

/-- No word is nearer to the exact sum than the rounded sum. -/
theorem fadd_nearest (v : Word) : |units (fadd a b) - (units a + units b)| ≤ |units v - (units a + units b)| := by
  rw [fadd_of_isFinite ha hb] at hs ⊢
  split at hs
  · rename_i h0
    rw [if_pos h0, units_zeroWord, h0, sub_zero, abs_zero]
    exact abs_nonneg _
  · rename_i h0
    have hpos : (0 : ℤ) < 2 ^ 1074 := by positivity
    have hq : (units a + units b) * 2 ^ 1074 ≠ 0 := mul_ne_zero h0 hpos.ne'
    obtain ⟨hle, -⟩ := rne_nearest hq false (roundBits_lt_of_isFinite hq hs) v
    rw [if_neg h0]
    rwa [← sub_mul, ← sub_mul, abs_mul, abs_mul, abs_of_pos hpos, mul_le_mul_iff_left₀ hpos] at hle

/-- The exact sum against the grid of the rounded sum: what `rne_grid` says, in units. -/
theorem fadd_grid : ∃ e ≤ grid (fadd a b), |units a + units b| < 2 ^ 53 * 2 ^ e ∧
    (e = 0 ∨ 2 ^ 52 * 2 ^ e ≤ |units a + units b|) ∧ 2 * |units (fadd a b) - (units a + units b)| ≤ 2 ^ e := by
  rw [fadd_of_isFinite ha hb] at hs ⊢
  split at hs
  · rename_i h0
    rw [if_pos h0, units_zeroWord, h0]
    exact ⟨0, Nat.zero_le _, by norm_num, .inl rfl, by norm_num⟩
  · rename_i h0
    have hpos : (0 : ℤ) < 2 ^ 1074 := by positivity
    obtain ⟨e, he, hlt, hle, hr⟩ := rne_grid (mul_ne_zero h0 hpos.ne') false hs
    rw [if_neg h0]
    rw [pow_add, ← mul_assoc, abs_mul, abs_of_pos hpos] at hlt hle
    rw [pow_add, ← sub_mul, abs_mul, abs_of_pos hpos, ← mul_assoc] at hr
    exact ⟨e, he, lt_of_mul_lt_mul_right hlt hpos.le, hle.imp_right (le_of_mul_le_mul_right · hpos),
      le_of_mul_le_mul_right hr hpos⟩

omit ha hb hs in
/-- A sum within half a step of a grid, and on it, is exact. -/
theorem fadd_units_eq_of_dvd {e : Nat} (he : e ≤ grid (fadd a b)) (hd : 2 ^ e ∣ units a + units b)
    (hr : 2 * |units (fadd a b) - (units a + units b)| ≤ 2 ^ e) : units (fadd a b) = units a + units b := by
  have hpos : (0 : ℤ) < 2 ^ e := by positivity
  have hd' : 2 ^ e ∣ units (fadd a b) - (units a + units b) :=
    dvd_sub ((pow_dvd_pow 2 he).trans (two_pow_grid_dvd_units _)) hd
  exact sub_eq_zero.mp (Int.eq_zero_of_abs_lt_dvd hd' (by linarith))

/-- The rounding error of a sum is at most half a step of its grid. -/
theorem two_mul_abs_fadd_sub_le : 2 * |units (fadd a b) - (units a + units b)| ≤ 2 ^ grid (fadd a b) := by
  obtain ⟨e, he, -, -, hr⟩ := fadd_grid ha hb hs
  exact hr.trans (pow_le_pow_right₀ (by norm_num) he)

/-- The rounding error of a sum is representable: it is on the finer grid of the operands, and no larger than either. -/
theorem fadd_error_representable : Representable (units a + units b - units (fadd a b)) := by
  obtain ⟨e, he, -, -, hr⟩ := fadd_grid ha hb hs
  have hda : (2 : ℤ) ^ min (grid a) (grid b) ∣ units a := (pow_dvd_pow 2 (min_le_left _ _)).trans (two_pow_grid_dvd_units a)
  have hdb : (2 : ℤ) ^ min (grid a) (grid b) ∣ units b := (pow_dvd_pow 2 (min_le_right _ _)).trans (two_pow_grid_dvd_units b)
  rcases le_total e (min (grid a) (grid b)) with hle | hle
  · rw [fadd_units_eq_of_dvd he ((pow_dvd_pow 2 hle).trans (dvd_add hda hdb)) hr, sub_self]
    exact representable_units (isFinite_zeroWord false)
  · have hds : (2 : ℤ) ^ min (grid a) (grid b) ∣ units (fadd a b) :=
      (pow_dvd_pow 2 (hle.trans he)).trans (two_pow_grid_dvd_units _)
    have hea : |units a + units b - units (fadd a b)| ≤ |units a| := by
      simpa [abs_sub_comm] using fadd_nearest ha hb hs b
    have heb : |units a + units b - units (fadd a b)| ≤ |units b| := by
      simpa [abs_sub_comm] using fadd_nearest ha hb hs a
    refine representable_of_dvd (dvd_sub (dvd_add hda hdb) hds) ?_ (hea.trans_lt (abs_units_lt_of_isFinite ha))
    rcases min_choice (grid a) (grid b) with h | h <;> rw [h]
    · linarith [abs_units_le a, show (0 : ℤ) < 2 ^ grid a by positivity]
    · linarith [abs_units_le b, show (0 : ℤ) < 2 ^ grid b by positivity]


/-! ## FastTwoSum and TWOSUM (R110, R111) -/

/-- The rounded sum less the operand of the coarser grid is representable. Where the sum is inexact it lies on a coarser grid than
`b` does, at most one step coarser than that of `a`. -/
theorem fadd_sub_left_representable (hg : grid b ≤ grid a) : Representable (units (fadd a b) - units a) := by
  obtain ⟨e, he, -, hle, hr⟩ := fadd_grid ha hb hs
  have hda := two_pow_grid_dvd_units a
  rcases Nat.lt_or_ge (grid b) e with hbe | hbe
  · have hdiff : |units (fadd a b) - units a| ≤ |units (fadd a b) - (units a + units b)| + |units b| := by
      simpa using abs_sub_le (units (fadd a b)) (units a + units b) (units a)
    have hB : 2 * (2 : ℤ) ^ grid b ≤ 2 ^ e := by
      rw [← pow_succ']
      exact pow_le_pow_right₀ (by norm_num) hbe
    have hbound : |units (fadd a b) - units a| ≤ 2 ^ 52 * 2 ^ e := by linarith [abs_units_le b]
    have hea : e ≤ grid a + 1 := by
      have hgB : (2 : ℤ) ^ grid b ≤ 2 ^ grid a := pow_le_pow_right₀ (by norm_num) hg
      have hlt : (2 : ℤ) ^ e < 2 ^ (grid a + 2) := by
        rw [pow_add]
        linarith [hle.resolve_left (by omega), abs_add_le (units a) (units b), abs_units_le a, abs_units_le b,
          show (0 : ℤ) < 2 ^ grid a by positivity]
      exact Nat.lt_succ_iff.mp ((pow_lt_pow_iff_right₀ (by norm_num)).mp hlt)
    have hds : (2 : ℤ) ^ e ∣ units (fadd a b) := (pow_dvd_pow 2 he).trans (two_pow_grid_dvd_units _)
    refine representable_of_dvd (e := min e (grid a)) (dvd_sub ((pow_dvd_pow 2 (min_le_left _ _)).trans hds)
      ((pow_dvd_pow 2 (min_le_right _ _)).trans hda)) (hbound.trans ?_) (hbound.trans_lt ?_)
    · rw [← pow_add, ← pow_add]
      exact pow_le_pow_right₀ (by norm_num) (by omega)
    · rw [← pow_add]
      exact pow_lt_pow_right₀ (by norm_num) (by have := grid_le_of_isFinite hs; omega)
  · have hd : (2 : ℤ) ^ e ∣ units a + units b :=
      (pow_dvd_pow 2 hbe).trans (dvd_add ((pow_dvd_pow 2 hg).trans hda) (two_pow_grid_dvd_units b))
    rw [fadd_units_eq_of_dvd he hd hr, add_sub_cancel_left]
    exact representable_units hb

omit hs in
theorem fsub_error_representable (h : IsFinite (fsub a b)) : Representable (units a - units b - units (fsub a b)) := by
  rw [sub_eq_add_neg (units a), ← units_fneg]
  exact fadd_error_representable ha (isFinite_fneg.mpr hb) h

omit hs in
theorem fsub_sub_left_representable (h : IsFinite (fsub a b)) (hg : grid b ≤ grid a) :
    Representable (units (fsub a b) - units a) :=
  fadd_sub_left_representable ha (isFinite_fneg.mpr hb) h (by rwa [grid_fneg])

/-- FastTwoSum is exact when the first operand has the coarser grid. -/
theorem fastTwoSum_exact (hg : grid b ≤ grid a) : IsFinite (fastTwoSum a b).lo ∧
    units (fastTwoSum a b).lo = units a + units b - units (fadd a b) := by
  obtain ⟨hz, huz⟩ := fsub_exact hs ha (fadd_sub_left_representable ha hb hs hg)
  have he : units b - units (fsub (fadd a b) a) = units a + units b - units (fadd a b) := by
    rw [huz]
    ring
  rw [← he]
  exact fsub_exact hb hz (he ▸ fadd_error_representable ha hb hs)

/-- TWOSUM is exact when each of its inner differences is representable. -/
theorem twoSum_exact_of_representable (hbb : IsFinite (fsub (fadd a b) a))
    (haa : Representable (units (fadd a b) - units (fsub (fadd a b) a)))
    (hdb : Representable (units b - units (fsub (fadd a b) a)))
    (hda : Representable (units a - (units (fadd a b) - units (fsub (fadd a b) a)))) :
    IsFinite (twoSum a b).lo ∧ units (twoSum a b).lo = units a + units b - units (fadd a b) := by
  obtain ⟨hfaa, huaa⟩ := fsub_exact hs hbb haa
  obtain ⟨hfdb, hudb⟩ := fsub_exact hb hbb hdb
  obtain ⟨hfda, huda⟩ := fsub_exact ha hfaa (by rwa [huaa])
  have he : units (fsub a (fsub (fadd a b) (fsub (fadd a b) a))) + units (fsub b (fsub (fadd a b) a)) =
      units a + units b - units (fadd a b) := by
    rw [huda, huaa, hudb]
    ring
  rw [← he]
  exact fadd_exact hfda hfdb (he ▸ fadd_error_representable ha hb hs)

/-- TWOSUM is exact when `bb` is: then `aa` is `a`, and `db` the whole error. -/
theorem twoSum_exact_of_bb (h : Representable (units (fadd a b) - units a)) : IsFinite (twoSum a b).lo ∧
    units (twoSum a b).lo = units a + units b - units (fadd a b) := by
  obtain ⟨hbb, hubb⟩ := fsub_exact hs ha h
  apply twoSum_exact_of_representable ha hb hs hbb <;> rw [hubb]
  · rw [sub_sub_cancel]
    exact representable_units ha
  · rw [sub_sub_eq_add_sub, add_comm]
    exact fadd_error_representable ha hb hs
  · rw [sub_sub_cancel, sub_self]
    exact representable_units (isFinite_zeroWord false)

/-- An inexact sum lies on a grid coarser than the finer one of its operands. -/
theorem grid_lt_of_inexact (hne : units (fadd a b) ≠ units a + units b) (hg : grid a ≤ grid b) :
    grid a < grid (fadd a b) := by
  obtain ⟨e, he, -, -, hr⟩ := fadd_grid ha hb hs
  refine lt_of_lt_of_le (lt_of_not_ge fun hea => hne (fadd_units_eq_of_dvd he ?_ hr)) he
  exact (pow_dvd_pow 2 hea).trans (dvd_add (two_pow_grid_dvd_units a) ((pow_dvd_pow 2 hg).trans (two_pow_grid_dvd_units b)))

/-- Where `b` has the coarser grid, `bb` is near enough to `b` for `db` to be representable: the error of the sum is a small
number of steps of the grid of `b`, and that of `bb` no larger. -/
theorem sub_bb_representable (hbb : IsFinite (fsub (fadd a b) a)) (hg : grid a < grid b) :
    Representable (units b - units (fsub (fadd a b) a)) := by
  have ha' : IsFinite (fneg a) := isFinite_fneg.mpr ha
  obtain ⟨k, hk⟩ : ∃ k, grid b = k + 1 := ⟨grid b - 1, by omega⟩
  obtain ⟨e, -, -, hle, hr⟩ := fadd_grid ha hb hs
  obtain ⟨e', he', hlt', -, -⟩ := fadd_grid hs ha' hbb
  rw [units_fneg, ← sub_eq_add_neg] at hlt'
  have hnear : |units (fsub (fadd a b) a) - (units (fadd a b) - units a)| ≤ |units b - (units (fadd a b) - units a)| := by
    rw [sub_eq_add_neg (units (fadd a b)), ← units_fneg]
    exact fadd_nearest hs ha' hbb b
  have hka : (2 : ℤ) ^ grid a ≤ 2 ^ k := pow_le_pow_right₀ (by norm_num) (by omega)
  have hkb : (2 : ℤ) ^ grid b = 2 * 2 ^ k := by rw [hk, pow_succ']
  have hk1 : (1 : ℤ) ≤ 2 ^ k := one_le_pow₀ (by norm_num)
  have hub := abs_units_le b
  have hub' := le_abs_units (w := b) (by omega)
  rw [hkb] at hub hub'
  have hE : (2 : ℤ) ^ e ≤ 6 * 2 ^ k := by
    rcases hle with rfl | hle
    · linarith
    · linarith [abs_add_le (units a) (units b), abs_units_le a]
  have hdelta : |units b - (units (fadd a b) - units a)| ≤ 3 * 2 ^ k := by
    have h : units b - (units (fadd a b) - units a) = -(units (fadd a b) - (units a + units b)) := by ring
    rw [h, abs_neg]
    linarith
  have hbound : |units b - units (fsub (fadd a b) a)| ≤ 6 * 2 ^ k := by
    have h := abs_sub_le (units b) (units (fadd a b) - units a) (units (fsub (fadd a b) a))
    rw [abs_sub_comm (units (fadd a b) - units a)] at h
    linarith
  have hke : k ≤ e' := by
    by_contra hlt
    have hE' : 2 * (2 : ℤ) ^ e' ≤ 2 ^ k := by
      rw [← pow_succ']
      exact pow_le_pow_right₀ (by norm_num) (by omega)
    linarith [abs_sub_abs_le_abs_sub (units b) (units (fadd a b) - units a)]
  refine representable_of_dvd (e := k) (dvd_sub ?_ ?_) (hbound.trans (by linarith)) (hbound.trans_lt ?_)
  · exact (pow_dvd_pow 2 (by omega)).trans (two_pow_grid_dvd_units b)
  · exact (pow_dvd_pow 2 (hke.trans he')).trans (two_pow_grid_dvd_units _)
  · calc 6 * (2 : ℤ) ^ k
      _ ≤ 2 ^ (3 + k) := by rw [pow_add]; linarith
      _ < 2 ^ 2098 := pow_lt_pow_right₀ (by norm_num) (by have := grid_le_of_isFinite hb; omega)

/-- TWOSUM is exact when its sum and `bb` are finite. Where `bb` is inexact, FastTwoSum's argument applies to the sum and `-a`. -/
theorem twoSum_exact (hbb : IsFinite (fsub (fadd a b) a)) :
    IsFinite (twoSum a b).lo ∧ units (twoSum a b).lo = units a + units b - units (fadd a b) := by
  by_cases hrep : Representable (units (fadd a b) - units a)
  · exact twoSum_exact_of_bb ha hb hs hrep
  have hg : grid a < grid b := lt_of_not_ge fun h => hrep (fadd_sub_left_representable ha hb hs h)
  have hne : units (fadd a b) ≠ units a + units b := fun h =>
    hrep (by rw [h, add_sub_cancel_left]; exact representable_units hb)
  have hgs : grid a ≤ grid (fadd a b) := (grid_lt_of_inexact ha hb hs hne hg.le).le
  refine twoSum_exact_of_representable ha hb hs hbb ?_ (sub_bb_representable ha hb hs hbb hg) ?_
  · rw [← neg_sub]
    exact (fsub_sub_left_representable hs ha hbb hgs).neg
  · rw [sub_sub_eq_add_sub, add_comm, ← sub_sub_eq_add_sub, ← neg_sub]
    exact (fsub_error_representable hs ha hbb).neg

end

/-! ## TWOPROD (R112) -/

section
variable {a b : Word} (ha : IsFinite a) (hb : IsFinite b) (hp : IsFinite (fmul a b))
include ha hb hp

/-- TWOPROD is exact when the error of the product is representable. -/
theorem twoProd_exact {e : Word} (he : IsFinite e) (h : units e * 2 ^ 1074 = units a * units b - units (fmul a b) * 2 ^ 1074) :
    IsFinite (twoProd a b).lo ∧ units (twoProd a b).lo = units e := by
  have hq : units a * units b + units (fneg (fmul a b)) * 2 ^ 1074 = units e * 2 ^ 1074 := by
    rw [units_fneg, h, neg_mul, sub_eq_add_neg]
  rw [twoProd, fma_of_isFinite ha hb (isFinite_fneg.mpr hp), hq]
  split
  · rename_i h0
    have hz : units e = 0 := (mul_eq_zero.mp h0).resolve_right (by positivity)
    exact ⟨isFinite_zeroWord _, (units_zeroWord _).trans hz.symm⟩
  · rename_i h0
    rw [rne_units he (left_ne_zero_of_mul h0)]
    exact ⟨he, rfl⟩

/-- The rounding error of a product is at most half a step of its grid. -/
theorem two_mul_abs_fmul_sub_le :
    2 * |units (fmul a b) * 2 ^ 1074 - units a * units b| ≤ 2 ^ (grid (fmul a b) + 1074) := by
  rw [fmul_of_isFinite ha hb] at hp ⊢
  rcases eq_or_ne (units a * units b) 0 with h0 | h0
  · rw [h0, rne_zero, units_zeroWord, zero_mul, sub_zero, abs_zero, mul_zero]
    positivity
  · obtain ⟨e, he, -, -, hr⟩ := rne_grid h0 _ hp
    exact hr.trans (pow_le_pow_right₀ (by norm_num) (Nat.add_le_add_right he _))

end

/-! ## From units to values -/

section
variable {a b w : Word}

/-- A larger magnitude does not have the smaller exponent. -/
theorem bexp_le_of_abs_val_le (h : |val b| ≤ |val a|) : bexp b ≤ bexp a := by
  rw [abs_val, abs_val, div_le_div_iff_of_pos_right (by positivity), Nat.cast_le, magOfBits_strictMono.le_iff_le] at h
  have := mant_lt a
  have := mant_lt b
  unfold lowBits at h
  omega

theorem val_add_val_eq {x y : Word} (h : units y = units a + units b - units x) : val x + val y = val a + val b := by
  rw [val_add_val, val_add_val, h, add_sub_cancel]

/-- `ulp` is one step of the grid (R20). -/
theorem ulp_eq (w : Word) : ulp w = ((2 ^ grid w : ℤ) : ℚ) / 2 ^ 1074 := by
  rw [Int.cast_pow, Int.cast_ofNat, ulp, grid]
  split
  · rename_i h
    rw [h, zpow_neg, Nat.zero_sub, pow_zero, one_div]
    rfl
  · rename_i h
    rw [show (bexp w : ℤ) - 1075 = (bexp w - 1 : ℕ) - (1074 : ℕ) by omega, zpow_sub₀ (by norm_num), zpow_natCast,
      zpow_natCast]

theorem val_fneg (w : Word) : val (fneg w) = -val w := by
  rw [val_eq_units, units_fneg, Int.cast_neg, neg_div, ← val_eq_units]

theorem val_eq_val_add_val_iff {x : Word} : val x = val a + val b ↔ units x = units a + units b := by
  rw [val_add_val, val_eq_scaled, div_left_inj' (by positivity), Int.cast_inj, mul_left_inj' (by positivity)]

theorem abs_val_le_half_ulp {x : Word} (h : 2 * |units x| ≤ 2 ^ grid w) : |val x| ≤ ulp w / 2 := by
  rw [ulp_eq, val_eq_units, abs_div, abs_of_pos (show (0 : ℚ) < 2 ^ 1074 by positivity), div_right_comm,
    div_le_div_iff_of_pos_right (by positivity), le_div_iff₀ (by norm_num), mul_comm, ← Int.cast_abs]
  exact_mod_cast h

/-- The exact error of a product as a word, in units. -/
theorem units_of_product_error {e : Word} (h : val e = val a * val b - val (fmul a b)) :
    units e * 2 ^ 1074 = units a * units b - units (fmul a b) * 2 ^ 1074 := by
  rw [val_eq_scaled, val_mul_val, val_eq_scaled (fmul a b), ← sub_div, div_left_inj' (by positivity), ← Int.cast_sub,
    Int.cast_inj] at h
  exact h

end

/-! ## Exact results (R111, R112) -/

section
variable {a b : Word} (ha : IsFinite a) (hb : IsFinite b)
include ha hb

/-- A zero difference is +0 unless it is that of -0 and +0. -/
theorem fsub_of_units_eq (h : units a = units b) : fsub a b = zeroWord (sign a && !sign b) := by
  rw [fsub, fadd_of_isFinite ha (isFinite_fneg.mpr hb), units_fneg, h, if_pos (add_neg_cancel _), sign_fneg]

omit ha hb in
/-- Words of one value and different signs are zeros. -/
theorem units_eq_zero_of_sign_ne (h : units a = units b) (hs : sign a ≠ sign b) : units a = 0 := by
  by_contra h0
  exact hs (by rw [sign_eq_decide_units h0, sign_eq_decide_units (h ▸ h0), h])

/-- The sign of a product is that of its factors, a zero or an overflow included. -/
theorem sign_fmul : sign (fmul a b) = (sign a ^^ sign b) := by
  rw [fmul_of_isFinite ha hb]
  rcases eq_or_ne (units a * units b) 0 with h0 | h0
  · rw [h0, rne_zero]
    exact (zeroWord_spec _).2
  · have ha0 := left_ne_zero_of_mul h0
    have hb0 := right_ne_zero_of_mul h0
    rw [sign_rne h0, sign_eq_decide_units ha0, sign_eq_decide_units hb0]
    rcases lt_or_gt_of_ne ha0 with h | h <;> rcases lt_or_gt_of_ne hb0 with h' | h' <;>
      simp [mul_neg_iff, h, h', h.not_gt, h'.not_gt]

/-- The error word of an exact product is +0: `fma` adds the product and a zero or number of the opposite sign. -/
theorem twoProd_lo_of_exact (hp : IsFinite (fmul a b)) (h : val (fmul a b) = val a * val b) : (twoProd a b).lo = 0 := by
  have hq : units a * units b + units (fneg (fmul a b)) * 2 ^ 1074 = 0 := by
    rw [← val_mul_val_add_val_eq_zero_iff, val_fneg, h, add_neg_cancel]
  rw [twoProd, fma_of_isFinite ha hb (isFinite_fneg.mpr hp), if_pos hq, sign_fneg, sign_fmul ha hb, Bool.and_not_self]
  rfl

/-- The error word of an exact sum is +0. It is the sum of two zeros, `da` and `db`, which are not both -0: that would need
operands -0 and `aa` = +0, but the sequence gives `aa` = -0 for them. -/
theorem twoSum_lo_of_exact (hs : IsFinite (fadd a b)) (h : units (fadd a b) = units a + units b) : (twoSum a b).lo = 0 := by
  obtain ⟨hbb, hubb⟩ := fsub_exact hs ha (by rw [h, add_sub_cancel_left]; exact representable_units hb)
  rw [h, add_sub_cancel_left] at hubb
  obtain ⟨haa, huaa⟩ := fsub_exact hs hbb (by rw [h, hubb, add_sub_cancel_right]; exact representable_units ha)
  rw [h, hubb, add_sub_cancel_right] at huaa
  have hda := fsub_of_units_eq ha haa huaa.symm
  have hdb := fsub_of_units_eq hb hbb hubb.symm
  have hsigns : ((sign a && !sign (fsub (fadd a b) (fsub (fadd a b) a))) && (sign b && !sign (fsub (fadd a b) a))) = false := by
    by_contra hne
    simp only [Bool.not_eq_false, Bool.and_eq_true, Bool.not_eq_true'] at hne
    obtain ⟨⟨hsa, hsaa⟩, hsb, hsbb⟩ := hne
    have ha0 := units_eq_zero_of_sign_ne huaa.symm (by simp [hsa, hsaa])
    have hb0 := units_eq_zero_of_sign_ne hubb.symm (by simp [hsb, hsbb])
    have hs0 : fadd a b = zeroWord true := by
      rw [fadd_of_isFinite ha hb, ha0, hb0, if_pos (add_zero 0), hsa, hsb, Bool.and_self]
    rw [fsub_of_units_eq hs hbb (by rw [h, hubb, ha0, zero_add]), hsbb, hs0] at hsaa
    exact absurd hsaa (by decide)
  rw [twoSum]
  simp only [hda, hdb]
  rw [fadd_of_isFinite (isFinite_zeroWord _) (isFinite_zeroWord _), units_zeroWord, units_zeroWord, if_pos (add_zero 0),
    (zeroWord_spec _).2, (zeroWord_spec _).2, hsigns]
  rfl

end

end Sys2Proof.Machine

open Sys2Proof Sys2Proof.Machine

/-- Settles O45: the order of the exponents is the order of the grids, and each difference is representable. -/
theorem fastTwoSumIsExact : Obligations.FastTwoSumIsExact := by
  refine ⟨fun _ _ => rfl, fun a b ha hb hs => ⟨bexp_le_of_abs_val_le, fun h => ?_⟩⟩
  obtain ⟨hf, hu⟩ := fastTwoSum_exact ha hb hs (Nat.sub_le_sub_right h 1)
  exact ⟨hf, val_add_val_eq hu⟩

/-- Settles O46: `bb` is exact, or FastTwoSum's argument applies to the sum and `-a`. -/
theorem twoSumIsExact : Obligations.TwoSumIsExact := by
  intro a b ha hb hs hbb
  obtain ⟨hf, hu⟩ := twoSum_exact ha hb hs hbb
  exact ⟨hf, val_add_val_eq hu⟩

/-- Settles O48: the error that `fma` rounds is a word's value, which is its own rounding. -/
theorem twoProdIsExact : Obligations.TwoProdIsExact := by
  rintro a b ha hb hp ⟨e, he, hv⟩
  obtain ⟨hf, hu⟩ := twoProd_exact ha hb hp he (units_of_product_error hv)
  refine ⟨hf, ?_⟩
  rw [(val_eq_val_iff _ e).mpr hu, hv]
  exact add_sub_cancel _ _

/-- Settles O50: the low word is the rounding error of the high word, half a step of its grid at most. -/
theorem lowWordIsAtMostHalfAnUlp : Obligations.LowWordIsAtMostHalfAnUlp := by
  refine ⟨fun a b ha hb hs => ⟨fun h => abs_val_le_half_ulp ?_, fun hbb => abs_val_le_half_ulp ?_⟩,
    fun a b ha hb hp ⟨e, he, hv⟩ => abs_val_le_half_ulp ?_⟩
  · rw [(fastTwoSum_exact ha hb hs (Nat.sub_le_sub_right h 1)).2, abs_sub_comm]
    exact two_mul_abs_fadd_sub_le ha hb hs
  · rw [(twoSum_exact ha hb hs hbb).2, abs_sub_comm]
    exact two_mul_abs_fadd_sub_le ha hb hs
  · have hpos : (0 : ℤ) < 2 ^ 1074 := by positivity
    have hr := two_mul_abs_fmul_sub_le ha hb hp
    rw [abs_sub_comm, ← units_of_product_error hv, abs_mul, abs_of_pos hpos, ← mul_assoc, pow_add] at hr
    rw [(twoProd_exact ha hb hp he (units_of_product_error hv)).2]
    exact le_of_mul_le_mul_right hr hpos

/-- Settles O49: the error word is a sum of zeros that are not both -0. -/
theorem errorOfAnExactResultIsPlusZero : Obligations.ErrorOfAnExactResultIsPlusZero :=
  fun _ _ ha hb => ⟨fun hs h => twoSum_lo_of_exact ha hb hs (val_eq_val_add_val_iff.mp h), twoProd_lo_of_exact ha hb⟩
end

section
/-! SUPPORT. The coefficients a polynomial command reads, the two schemes on them, and what the command does with either
(10_state.md R36; 20_memory.md R50; 45_poly.md R125 to R127). Settles O51 to O54. -/

namespace Sys2Proof.Machine

/-! ## The words that are illegal (30_encoding.md R65, R67) -/

/-- POLYH and POLYE are illegal for an unused bit, a bank above 3 and a degree above 8. -/
theorem illegalWhen_polyCommand {op : Nat} (hop : op ∈ [0x30, 0x31]) : IllegalWhen op fun w =>
    w.extractLsb' 0 10 ≠ 0 ∨ 3 < (fieldC w).toNat ∨ 8 < (fieldD w).toNat := by
  have hdef : op ∈ definedOps := by revert op; decide
  have hunused : ∀ j < 10, (unusedBits op).getLsbD (0 + j) = true := by revert op; decide
  have hbank : op ∈ [0x08, 0x09, 0x0B, 0x30, 0x31] := by revert op; decide
  have hdegree : op ∈ [0x09, 0x30, 0x31] := by revert op; decide
  obtain ⟨-, hrange⟩ := fieldOutOfRangeRaisesIllegal
  rintro w rfl (h | h | h)
  · exact illegalWhen_unusedBits hdef hunused w rfl h
  · exact hrange w (.inl ⟨hbank, h⟩)
  · exact hrange w (.inr (.inr (.inr (.inl ⟨hdegree, h⟩))))

/-! ## The coefficients read (R50) -/

/-- `mapM` in Option looks at its function on the elements of the list alone. -/
theorem mapM_congr {α β : Type} {l : List α} {f g : α → Option β} (h : ∀ a ∈ l, f a = g a) : l.mapM f = l.mapM g := by
  induction l with
  | nil => rfl
  | cons a l ih =>
    obtain ⟨ha, hl⟩ := List.forall_mem_cons.mp h
    rw [List.mapM_cons, List.mapM_cons, ha, ih hl]

section
variable {m m' : Memory} {b : Bank} {n : Slot}

/-- The coefficients read are `c 0` to `c n`, in order. -/
theorem readCoefs_of_coefsAre {c : Nat → Word} (h : CoefsAre m b n c) :
    readCoefs m b n = some ((List.range (n + 1)).map c) := by
  cases hcs : readCoefs m b n with
  | none =>
    obtain ⟨k, hk, hnone⟩ := readCoefs_none.mp hcs
    exact nomatch hnone.symm.trans (h k hk)
  | some cs =>
    obtain ⟨hlen, hget⟩ := readCoefs_some hcs
    refine congrArg some (List.ext_getElem (by simp [hlen]) fun k hk _ => ?_)
    have hkn : k < n.val + 1 := hlen ▸ hk
    have hslot := (hget ⟨k, by omega⟩ (Nat.le_of_lt_succ hkn)).symm.trans (h _ (Nat.le_of_lt_succ hkn))
    simpa [List.getElem?_eq_getElem hk] using hslot

/-- The coefficients read depend on slots 0 to `n` of the bank alone. -/
theorem readCoefs_congr (h : ∀ k ≤ n, coefRead m' b k = coefRead m b k) : readCoefs m' b n = readCoefs m b n :=
  mapM_congr fun k hk => h k ((mem_coefSlots n k).mp hk)

end

/-! ## Horner's scheme (R126) -/

theorem horner_cons {cs : List Word} (h : cs ≠ []) (c r : Word) : horner (c :: cs) r = fadd (fmul (horner cs r) r) c := by
  cases cs with
  | nil => exact absurd rfl h
  | cons c' rest => rfl

/-- One degree more is one multiplication and one addition more, the last of all for the lowest coefficient. -/
theorem hornerRule_succ (c : Nat → Word) (n : Nat) (r : Word) :
    hornerRule c (n + 1) r = fadd (fmul (hornerRule (c ∘ Nat.succ) n r) r) (c 0) := by
  rw [hornerRule, List.range_succ_eq_map, List.foldr_cons, List.foldr_map]
  rfl

theorem horner_map_range (c : Nat → Word) (n : Nat) (r : Word) :
    horner ((List.range (n + 1)).map c) r = hornerRule c n r := by
  induction n generalizing c with
  | zero => rfl
  | succ n ih =>
    rw [List.range_succ_eq_map, List.map_cons, List.map_map, horner_cons (by simp), ih, hornerRule_succ]

/-! ## Estrin's scheme (R127) -/

/-- The recursion unrolled, degree by degree. -/
theorem estrin_map_range (c : Nat → Word) (n : Slot) (r : Word) :
    estrin ((List.range (n + 1)).map c).length ((List.range (n + 1)).map c) r = estrinTable c n r := by
  match n with
  | 0 | 1 | 2 | 3 | 4 | 5 | 6 | 7 | 8 => rfl

/-! ## Operands in the other order (00_scope.md R13, R15) -/

theorem qnanCommutative_comm (op : ArithOp) (a b : Word) : qnanCommutative op a b = qnanCommutative op b a := by
  rcases lt_trichotomy a.toNat b.toNat with h | h | h
  · rw [qnanCommutative, qnanCommutative, if_pos h.le, if_neg h.not_ge]
  · rw [BitVec.eq_of_toNat_eq h]
  · rw [qnanCommutative, qnanCommutative, if_neg h.not_ge, if_pos h.le]

theorem eq_of_isInf_of_sign_eq {a b : Word} (ha : IsInf a) (hb : IsInf b) (h : sign a = sign b) : a = b :=
  eq_of_fields h (ha.1.trans hb.1.symm) (ha.2.trans hb.2.symm)

theorem fadd_comm (a b : Word) : fadd a b = fadd b a := by
  by_cases hn : IsNan a ∨ IsNan b
  · rw [fadd, if_pos hn, fadd, if_pos hn.symm, qnanCommutative_comm]
  obtain ⟨hna, hnb⟩ := not_or.mp hn
  by_cases ha : IsFinite a <;> by_cases hb : IsFinite b
  · rw [fadd_of_isFinite ha hb, fadd_of_isFinite hb ha, add_comm, Bool.and_comm]
  · have hb := (isNan_or_isInf_of_not_isFinite hb).resolve_left hnb
    rw [fadd_of_isFinite_isInf ha hb, fadd_of_isInf_isFinite hb ha]
  · have ha := (isNan_or_isInf_of_not_isFinite ha).resolve_left hna
    rw [fadd_of_isInf_isFinite ha hb, fadd_of_isFinite_isInf hb ha]
  · have ha := (isNan_or_isInf_of_not_isFinite ha).resolve_left hna
    have hb := (isNan_or_isInf_of_not_isFinite hb).resolve_left hnb
    rw [fadd_of_isInf_isInf ha hb, fadd_of_isInf_isInf hb ha]
    by_cases hs : sign a = sign b
    · rw [if_pos hs, if_pos hs.symm, eq_of_isInf_of_sign_eq ha hb hs]
    · rw [if_neg hs, if_neg (Ne.symm hs), qnanCommutative_comm]

/-- Each test of R15 and each of its results is symmetric in the operands. -/
theorem fmul_comm (a b : Word) : fmul a b = fmul b a := by
  simp only [fmul, Bool.xor_comm, mul_comm, qnanCommutative_comm, or_comm, and_comm]

/-- For degrees 0 and 1 both schemes are `c[0]`, or one product and one sum. -/
theorem horner_eq_estrin {cs : List Word} (h : cs.length = 1 ∨ cs.length = 2) (r : Word) :
    horner cs r = estrin cs.length cs r := by
  rcases h with h | h
  · obtain ⟨c, rfl⟩ := List.length_eq_one_iff.mp h
    rfl
  · obtain ⟨c, c', rfl⟩ := List.length_eq_two.mp h
    exact fadd_comm (fmul c' r) c

/-! ## The command (R125) -/

theorem withCoefs_of_none {s : State} {b : Bank} {n : Slot} (h : readCoefs s.mem b n = none) (body : List Word → Result) :
    withCoefs s b n body = raise .uninit s := by
  rw [withCoefs, h]

section
variable {s : State} {rs : Reg} {b : Bank} {n : Slot} {r : Word} (hh : ¬ Halted s)
include hh

/-- In RUN with its argument written, a polynomial command goes on to read the coefficients. -/
theorem polyCommand_of_some (hp : s.status.phase = .run) (hr : readReg s rs = some r) (eval : List Word → Word → Word)
    (rd : Reg) : polyCommand eval rd rs b n s = withCoefs s b n fun cs => complete (writeReg s rd (eval cs r)) := by
  rw [polyCommand, command_of_healthy hh, inPhase_of_eq hp, withReg_of_some hr]

/-- The tests of a polynomial command in their order, then one register write of the value that its scheme gives. -/
theorem polyCommand_spec {eval : List Word → Word → Word} {value : (Nat → Word) → Nat → Word → Word}
    (hv : ∀ c r, eval ((List.range (n + 1)).map c) r = value c n r) (rd : Reg) :
    (s.status.phase = .init → FaultsWith s .phase (polyCommand eval rd rs b n s)) ∧
      (s.status.phase = .run →
        (readReg s rs = none → FaultsWith s .unwritten (polyCommand eval rd rs b n s)) ∧
        ∀ r, readReg s rs = some r →
          ((∃ k : Slot, k ≤ n ∧ coefRead s.mem b k = none) → FaultsWith s .uninit (polyCommand eval rd rs b n s)) ∧
          ∀ c : Nat → Word, CoefsAre s.mem b n c →
            ∃ t, polyCommand eval rd rs b n s = .next t ∧ WritesReg s t rd (value c n r)) := by
  refine ⟨fun hp => ?_, fun hp => ⟨fun hr => ?_, fun r hr => ⟨fun hk => ?_, fun c hc => ?_⟩⟩⟩
  · exact (command_of_healthy hh _).trans (inPhase_of_ne (by simp [hp]) _)
  · exact polyCommand_of_unwritten hh hp ⟨rs, List.mem_singleton_self _, hr⟩
  · exact (polyCommand_of_some hh hp hr eval rd).trans (withCoefs_of_none (readCoefs_none.mpr hk) _)
  · rw [polyCommand_of_some hh hp hr, withCoefs_of_some (readCoefs_of_coefsAre hc), hv]
    exact ⟨_, rfl, writesReg_answered s rd _⟩

end

/-! ## Two schemes, and two states, that a polynomial command does not tell apart -/

/-- A polynomial command is determined by what its scheme gives for `n + 1` coefficients. -/
theorem polyCommand_congr {eval eval' : List Word → Word → Word} {n : Slot}
    (h : ∀ cs r, cs.length = n.val + 1 → eval cs r = eval' cs r) (rd rs : Reg) (b : Bank) (s : State) :
    polyCommand eval rd rs b n s = polyCommand eval' rd rs b n s := by
  refine congrArg (fun body => command s (inPhase .run s (withReg s rs body))) (funext fun r => ?_)
  cases hcs : readCoefs s.mem b n with
  | none => rw [withCoefs_of_none hcs, withCoefs_of_none hcs]
  | some cs => rw [withCoefs_of_some hcs, withCoefs_of_some hcs, h cs r (readCoefs_some hcs).1]

section
variable {R : State → State → Prop} {s s' : State} (hR : Indistinct R) (h : R s s')
include hR h

theorem Follows.inPhase {p : Phase} {body body' : Result} (hp : s'.status.phase = s.status.phase)
    (hb : Follows R body body') : Follows R (inPhase p s body) (inPhase p s' body') := by
  unfold Machine.inPhase
  rw [hp]
  split
  · exact hb
  · exact .raise hR h _

theorem Follows.withCoefs {b : Bank} {n : Slot} {body body' : List Word → Result}
    (hc : readCoefs s'.mem b n = readCoefs s.mem b n) (hb : ∀ cs, Follows R (body cs) (body' cs)) :
    Follows R (withCoefs s b n body) (withCoefs s' b n body') := by
  rw [Machine.withCoefs, Machine.withCoefs, hc]
  cases readCoefs s.mem b n with
  | none => exact .raise hR h _
  | some cs => exact hb cs

/-- A polynomial command looks at the registers, the status and the coefficients that it reads. -/
theorem Follows.polyCommand {b : Bank} {n : Slot} (hp : s'.status.phase = s.status.phase)
    (hc : readCoefs s'.mem b n = readCoefs s.mem b n) (eval : List Word → Word → Word) (rd rs : Reg) :
    Follows R (polyCommand eval rd rs b n s) (polyCommand eval rd rs b n s') :=
  .command hR h <| .inPhase hR h hp <| .withReg hR h fun _ => .withCoefs hR h hc fun _ => .complete hR (hR.writeReg rd _ h)

end

/-- A command that is neither TWR nor CWR keeps the memories, other memories too if it goes the same way with them. -/
theorem exec_withMem_of_follows {i : Instr} {s t : State} {m : Memory}
    (hf : Follows DifferInMemory (exec i s) (exec i { s with mem := m })) (ht : ∀ pa ri g, i ≠ .twr pa ri g)
    (hc : ∀ ra b k, i ≠ .cwr ra b k) (h : exec i s = .next t) : exec i { s with mem := m } = .next { t with mem := m } := by
  obtain ⟨_, he, m', rfl⟩ := hf t h
  obtain rfl : m' = m := (exec_shape he).mem_eq ht hc
  exact he

end Sys2Proof.Machine

open Sys2Proof Sys2Proof.Machine

/-- Settles O51: the tests in their order, then the write of Horner's value of the coefficients in the order of their slots. -/
theorem polyhEvaluatesByHorner : Obligations.PolyhEvaluatesByHorner :=
  ⟨illegalWhen_polyCommand (by decide), fun rd rs b n => ⟨encode_polyh rd rs b n, fun _ hh =>
    polyCommand_spec hh (horner_map_range · n) rd⟩⟩

/-- Settles O52: the tests in their order, then the write of Estrin's value, whose recursion the table unrolls. -/
theorem polyeEvaluatesByEstrin : Obligations.PolyeEvaluatesByEstrin :=
  ⟨illegalWhen_polyCommand (by decide), fun rd rs b n => ⟨encode_polye rd rs b n, fun _ hh =>
    polyCommand_spec hh (eval := fun cs r => estrin cs.length cs r) (estrin_map_range · n) rd⟩⟩

/-- Settles O53: the operations commute, so one product and one sum are the same in both schemes. -/
theorem schemesAgreeBelowDegreeTwo : Obligations.SchemesAgreeBelowDegreeTwo := by
  refine ⟨fun a b => ⟨fadd_comm a b, fmul_comm a b⟩, fun rd rs b n s hn =>
    polyCommand_congr (fun cs r hlen => horner_eq_estrin ?_ r) rd rs b s⟩
  have : n.val ≤ 1 := hn
  omega

/-- Settles O54: what a polynomial command does follows what it does with other memories that hold the same coefficients, and it
keeps the memories. -/
theorem slotsAboveTheDegreeAreNotRead : Obligations.SlotsAboveTheDegreeAreNotRead := by
  intro rd rs b n s t m hm
  have hf := Follows.polyCommand indistinct_memory ⟨m, rfl⟩ rfl (readCoefs_congr hm)
  exact ⟨exec_withMem_of_follows (hf _ rd rs) nofun nofun, exec_withMem_of_follows (hf _ rd rs) nofun nofun⟩
end

section
/-! SUPPORT. What a transaction answers on a halted block, what it leaves unchanged when it faults, and which fault it raises
(60_exceptions.md R161 to R164). Settles O12 to O14. -/

namespace Sys2Proof.Machine

/-! ## The table of the first fault, test by test (R164)

One equation of `firstFault` for each test that every command makes, then one for each command with a test of its own. -/

section
variable {i : Instr} {s : State}

theorem firstFault_of_illFormed (h : i.wellFormed = false) : firstFault i s = .illegal := if_pos h

theorem firstFault_of_phase_ne {p : Phase} (hi : i.WellFormed) (hn : phaseNeeded i = some p) (hp : s.status.phase ≠ p) :
    firstFault i s = .phase :=
  (if_neg (by simp [hi])).trans (if_pos (by simp [hn, hp.symm]))

/-- The command is legal and in its phase. -/
structure InItsPhase (i : Instr) (s : State) : Prop where
  wellFormed : i.WellFormed
  phase : ∀ p, phaseNeeded i = some p → s.status.phase = p

/-- The command is past the tests that every command makes: the next test, if any, is its own. -/
structure SourcesRead (i : Instr) (s : State) : Prop extends InItsPhase i s where
  healthy : ¬ Halted s
  written : ¬ SomeUnwritten s (sources i)

theorem InItsPhase.not_illFormed (h : InItsPhase i s) : ¬ i.wellFormed = false := by simp [h.wellFormed]

theorem InItsPhase.not_otherPhase (h : InItsPhase i s) : ¬ (phaseNeeded i).any (· ≠ s.status.phase) := by
  cases hn : phaseNeeded i with
  | none => simp
  | some p => simp [h.phase p hn]

theorem firstFault_of_someUnwritten (h : InItsPhase i s) (hs : SomeUnwritten s (sources i)) :
    firstFault i s = .unwritten :=
  (if_neg h.not_illFormed).trans ((if_neg h.not_otherPhase).trans (if_pos hs))

/-- The branch of the table that stands after the tests of every command. -/
theorem SourcesRead.firstFault_branch {a b c d : FaultCode} (h : SourcesRead i s) :
    (if i.wellFormed = false then a else if (phaseNeeded i).any (· ≠ s.status.phase) then b
      else if SomeUnwritten s (sources i) then c else d) = d := by
  rw [if_neg h.not_illFormed, if_neg h.not_otherPhase, if_neg h.written]

theorem firstFault_twr {pa : Pair} {ri : Reg} {g : Region} (h : SourcesRead (.twr pa ri g) s) :
    firstFault (.twr pa ri g) s = if regionSize g ≤ regNat s ri then .index else .none := h.firstFault_branch

theorem firstFault_tlu {pd : Pair} {ri : Reg} {g : Region} (h : SourcesRead (.tlu pd ri g) s) :
    firstFault (.tlu pd ri g) s = if regionSize g ≤ regNat s ri then .index
      else if tabRead s.mem g (regNat s ri) = none then .uninit else .none :=
  h.firstFault_branch

theorem firstFault_polyh {rd rs : Reg} {b : Bank} {n : Slot} (h : SourcesRead (.polyh rd rs b n) s) :
    firstFault (.polyh rd rs b n) s = if ∃ k : Slot, k ≤ n ∧ coefRead s.mem b k = none then .uninit else .none :=
  h.firstFault_branch

theorem firstFault_polye {rd rs : Reg} {b : Bank} {n : Slot} (h : SourcesRead (.polye rd rs b n) s) :
    firstFault (.polye rd rs b n) s = if ∃ k : Slot, k ≤ n ∧ coefRead s.mem b k = none then .uninit else .none :=
  h.firstFault_branch

theorem firstFault_expadd {rd ra rn : Reg} (h : SourcesRead (.expadd rd ra rn) s) :
    firstFault (.expadd rd ra rn) s =
      if OutsideExpRange ((readReg s ra).getD 0) ((readReg s rn).getD 0) then .exprange else .none := h.firstFault_branch

/-- A command that makes no test of its own has no fault to raise any more. -/
theorem firstFault_eq_none (h : SourcesRead i s) (hx : canRaise i .index = false) (hu : canRaise i .uninit = false)
    (he : canRaise i .exprange = false) : firstFault i s = .none := by
  refine h.firstFault_branch.trans ?_
  cases i with
  | twr => cases hx
  | tlu | polyh | polye => cases hu
  | expadd => cases he
  | _ => rfl

end

/-! ## The fault that a result records -/

/-- The result is a next state whose FAULT is `c`. -/
def EndsWithFault (c : FaultCode) (r : Result) : Prop := ∃ t, r = .next t ∧ t.status.fault = c

section
variable {s : State} {c : FaultCode} {body : Result}

theorem EndsWithFault.of_faultsWith {r : Result} (h : FaultsWith s c r) : EndsWithFault c r := ⟨_, h, rfl⟩

theorem EndsWithFault.answerData (hh : ¬ Halted s) (w : Word) : EndsWithFault .none (answerData s w) :=
  ⟨_, rfl, not_not.mp hh⟩

/-- A command that completes with FAULT untouched. -/
theorem EndsWithFault.complete {t : State} (hh : ¬ Halted s) (ht : t.status.fault = s.status.fault) :
    EndsWithFault .none (complete t) := ⟨_, rfl, ht.trans (not_not.mp hh)⟩

theorem EndsWithFault.command (hh : ¬ Halted s) (hb : EndsWithFault c body) : EndsWithFault c (command s body) := by
  rwa [command_of_healthy hh]

theorem EndsWithFault.inPhase {p : Phase} (hp : s.status.phase = p) (hb : EndsWithFault c body) :
    EndsWithFault c (inPhase p s body) := by
  rwa [inPhase_of_eq hp]

/-- The sources are written: the first is read, and the rest of them is handed on. -/
theorem EndsWithFault.withReg {r : Reg} {rs : List Reg} {body : Word → Result} (hs : ¬ SomeUnwritten s (r :: rs))
    (hb : ∀ w, readReg s r = some w → ¬ SomeUnwritten s rs → EndsWithFault c (body w)) :
    EndsWithFault c (withReg s r body) := by
  obtain ⟨hr, hs⟩ := not_or.mp (mt someUnwritten_cons.mpr hs)
  obtain ⟨w, hw⟩ := Option.ne_none_iff_exists'.mp hr
  rw [withReg_of_some hw]
  exact hb w hw hs

theorem EndsWithFault.withPair {p : Pair} {rs : List Reg} {body : DoubleDouble → Result}
    (hs : ¬ SomeUnwritten s (pairHi p :: pairLo p :: rs))
    (hb : ∀ d, ¬ SomeUnwritten s rs → EndsWithFault c (body d)) : EndsWithFault c (withPair s p body) :=
  .withReg hs fun _ _ hs => .withReg hs fun _ _ hs => hb _ hs

theorem EndsWithFault.withIndex {g : Region} {k : Nat} (hb : EndsWithFault c body) :
    EndsWithFault (if regionSize g ≤ k then .index else c) (withIndex s g k body) := by
  split
  · next h => exact .of_faultsWith (withIndex_of_le h body)
  · next h => rwa [withIndex_of_lt (Nat.not_le.mp h)]

theorem EndsWithFault.withEntry {g : Region} {k : Nat} {body : DoubleDouble → Result} (hb : ∀ d, EndsWithFault c (body d)) :
    EndsWithFault (if regionSize g ≤ k then .index else if tabRead s.mem g k = none then .uninit else c)
      (withEntry s g k body) := by
  refine .withIndex ?_
  cases tabRead s.mem g k with
  | none => exact .of_faultsWith rfl
  | some d => exact hb d

theorem EndsWithFault.withCoefs {b : Bank} {n : Slot} {body : List Word → Result} (hb : ∀ cs, EndsWithFault c (body cs)) :
    EndsWithFault (if ∃ k : Slot, k ≤ n ∧ coefRead s.mem b k = none then .uninit else c) (withCoefs s b n body) := by
  split
  · next h => exact .of_faultsWith (withCoefs_of_none (readCoefs_none.mpr h) body)
  · next h =>
    obtain ⟨cs, hcs⟩ := Option.ne_none_iff_exists'.mp (mt readCoefs_none.mp h)
    rw [withCoefs_of_some hcs]
    exact hb cs

end

/-! ## Every command raises the first fault in the order of tests (R164) -/

section
variable {i : Instr} {s : State}

/-- A command that no word spells raises ILLEGAL. -/
theorem exec_of_illFormed (hh : ¬ Halted s) (hi : i.wellFormed = false) : exec i s = raise .illegal s := by
  cases i with
  | bfx rd rs lsb wm1 | bfxs rd rs lsb wm1 => exact fieldCommand_of_not_fits hh (of_decide_eq_false hi) _ rd rs
  | _ => cases hi

theorem unaryCommand_endsWithFault_none {rd rs : Reg} (hh : ¬ Halted s) (hs : ¬ SomeUnwritten s [rs]) (f : Word → Word) :
    EndsWithFault .none (unaryCommand f rd rs s) :=
  .command hh <| .withReg hs fun _ _ _ => .complete hh rfl

theorem fieldCommand_endsWithFault_none {rd rs : Reg} {lsb wm1 : BitPos} (hh : ¬ Halted s) (hf : fieldFits lsb wm1)
    (hs : ¬ SomeUnwritten s [rs]) (f : Word → BitPos → BitPos → Word) :
    EndsWithFault .none (fieldCommand f rd rs lsb wm1 s) := by
  rw [fieldCommand, if_pos hf]
  exact unaryCommand_endsWithFault_none hh hs _

/-- A command that makes no test of its own, its sources read, records no fault. -/
theorem exec_endsWithFault_none (h : SourcesRead i s) (hx : canRaise i .index = false) (hu : canRaise i .uninit = false)
    (he : canRaise i .exprange = false) : EndsWithFault .none (exec i s) := by
  have hh := h.healthy
  have hs := h.written
  cases i with
  | put | lock => exact .command hh <| .complete hh rfl
  | get => exact .command hh <| .withReg hs fun w _ _ => .answerData hh w
  | gets => exact .answerData hh _
  | cwr => exact .command hh <| .inPhase (h.phase _ rfl) <| .withReg hs fun _ _ _ => .complete hh rfl
  | xsgn | xexp | xman | classify | iclass | ctest => exact unaryCommand_endsWithFault_none hh hs _
  | bfx | bfxs => exact fieldCommand_endsWithFault_none hh (of_decide_eq_true h.wellFormed) hs _
  | cmp | twosum | twoprod =>
    exact .command hh <| .withReg hs fun _ _ hs => .withReg hs fun _ _ _ => .complete hh rfl
  | pack | mux2 =>
    exact .command hh <| .withReg hs fun _ _ hs => .withReg hs fun _ _ hs => .withReg hs fun _ _ _ => .complete hh rfl
  | mux3 =>
    exact .command hh <| .withReg hs fun _ _ hs => .withReg hs fun _ _ hs => .withReg hs fun _ _ hs =>
      .withReg hs fun _ _ hs => .withReg hs fun _ _ _ => .complete hh rfl
  | ddaddd | ddmuld => exact .command hh <| .withPair hs fun _ hs => .withReg hs fun _ _ _ => .complete hh rfl
  | ddadd | ddmul => exact .command hh <| .withPair hs fun _ hs => .withPair hs fun _ _ => .complete hh rfl
  | twr => cases hx
  | tlu | polyh | polye => cases hu
  | expadd => cases he

/-- EXPADD, its sources read, tests the range of the exponent. -/
theorem exec_expadd_endsWithFault {rd ra rn : Reg} (h : SourcesRead (.expadd rd ra rn) s) :
    EndsWithFault (if OutsideExpRange ((readReg s ra).getD 0) ((readReg s rn).getD 0) then .exprange else .none)
      (exec (.expadd rd ra rn) s) := by
  refine .command h.healthy <| .withReg h.written fun w hw hs => .withReg hs fun n hn _ => ?_
  rw [hw, hn, Option.getD_some, Option.getD_some]
  split
  · next ho =>
    rw [expAdd_of_outside ho]
    exact .of_faultsWith rfl
  · next ho =>
    obtain ⟨v, hv, -⟩ := expAdd_of_inside ho
    rw [hv]
    exact .complete h.healthy rfl

/-- A polynomial command, its argument read, tests the coefficients. -/
theorem polyCommand_endsWithFault {eval : List Word → Word → Word} {rd rs : Reg} {b : Bank} {n : Slot} (hh : ¬ Halted s)
    (hp : s.status.phase = .run) (hs : ¬ SomeUnwritten s [rs]) :
    EndsWithFault (if ∃ k : Slot, k ≤ n ∧ coefRead s.mem b k = none then .uninit else .none)
      (polyCommand eval rd rs b n s) :=
  .command hh <| .inPhase hp <| .withReg hs fun _ _ _ => .withCoefs fun _ => .complete hh rfl

/-- Past the tests that every command makes, a command raises the first fault of its own tests. -/
theorem exec_endsWithFault_of_sourcesRead (h : SourcesRead i s) : EndsWithFault (firstFault i s) (exec i s) := by
  cases i with
  | twr pa ri g =>
    rw [firstFault_twr h]
    refine .command h.healthy <| .inPhase (h.phase _ rfl) <| .withReg h.written fun k hk hs => .withPair hs fun d _ => ?_
    rw [regNat_of_some hk]
    exact .withIndex (.complete h.healthy rfl)
  | tlu pd ri g =>
    rw [firstFault_tlu h]
    refine .command h.healthy <| .inPhase (h.phase _ rfl) <| .withReg h.written fun k hk _ => ?_
    rw [regNat_of_some hk]
    exact .withEntry fun _ => .complete h.healthy rfl
  | polyh rd rs b n =>
    rw [firstFault_polyh h]
    exact polyCommand_endsWithFault h.healthy (h.phase _ rfl) h.written
  | polye rd rs b n =>
    rw [firstFault_polye h]
    exact polyCommand_endsWithFault h.healthy (h.phase _ rfl) h.written
  | expadd rd ra rn =>
    rw [firstFault_expadd h]
    exact exec_expadd_endsWithFault h
  | _ =>
    rw [firstFault_eq_none h rfl rfl rfl]
    exact exec_endsWithFault_none h rfl rfl rfl

/-- The tests in their order: the legality of the command, its phase, its sources, then its own. -/
theorem exec_endsWithFault_firstFault (hh : ¬ Halted s) (i : Instr) : EndsWithFault (firstFault i s) (exec i s) := by
  by_cases hi : i.wellFormed = false
  · rw [firstFault_of_illFormed hi]
    exact .of_faultsWith (exec_of_illFormed hh hi)
  rw [Bool.not_eq_false] at hi
  by_cases hp : ∀ p, phaseNeeded i = some p → s.status.phase = p
  · by_cases hs : SomeUnwritten s (sources i)
    · rw [firstFault_of_someUnwritten ⟨hi, hp⟩ hs]
      exact .of_faultsWith (exec_of_someUnwritten hi hh hp hs)
    · exact exec_endsWithFault_of_sourcesRead ⟨⟨hi, hp⟩, hh, hs⟩
  · push Not at hp
    obtain ⟨p, hn, hp⟩ := hp
    rw [firstFault_of_phase_ne hi hn hp]
    exact .of_faultsWith (faultsWith_phase hn hh hp)

end

end Sys2Proof.Machine

open Sys2Proof Sys2Proof.Machine

/-- Settles O12: the GETS word answers STATUS, and every other word is ignored. -/
theorem haltedBlockServesOnlyGets : Obligations.HaltedBlockServesOnlyGets := by
  intro s w data rest hh hs
  by_cases hw : w = 0x0C000000
  · subst hw
    rw [if_pos rfl]
    exact ⟨_, (step_of_command hs decode_getsWord).trans (exec_gets _), rfl, rfl, rfl, rfl⟩
  · rw [if_neg hw]
    exact ⟨_, step_of_halted hh hs hw, rfl, rfl, rfl, rfl⟩

/-- Settles O13: of the three outcomes of a transaction, only FAULT halts a block that was not halted. -/
theorem faultChangesOnlyStatus : Obligations.FaultChangesOnlyStatus := by
  intro s t w data rest hs hhost hstep ht
  obtain ⟨t', hstep', hok | ⟨-, c, -, hfault⟩ | ⟨hhalted, -⟩⟩ := everyTransactionHasOneOutcome s w data rest hhost
  all_goals obtain rfl := Host.Outcome.next.inj (hstep'.symm.trans hstep)
  · obtain ⟨rd, -, hf, -⟩ := hok
    exact absurd (fun h => ht (hf.trans h)) hs
  · obtain rfl := Host.Outcome.next.inj hfault
    exact ⟨rfl, rfl, rfl, rfl, rfl, rfl⟩
  · exact absurd hhalted hs

/-- Settles O14: a halted block ignores the command, a word that spells none is ILLEGAL, and a command makes its tests in the
order of the table. -/
theorem firstFaultInOrderIsRaised : Obligations.FirstFaultInOrderIsRaised :=
  ⟨fun _ _ => exec_of_halted, fun _ => raisesIllegal_of_noCommand, fun i _ hh => exec_endsWithFault_firstFault hh i⟩
end

section
/-! SUPPORT. What every command leaves unchanged of the registers, STATUS and the interface (10_state.md R34; 60_exceptions.md
R162; 70_reset_and_hazards.md R178). Settles O22. -/

namespace Sys2Proof.Machine

variable {i : Instr} {s t : State}

/-- The destinations are none, one register or the two of a pair. -/
theorem destinations_length_le_two (i : Instr) : (destinations i).length ≤ 2 := by
  cases i with
  | get | gets | twr | cwr | lock => exact Nat.zero_le 2
  | put | xsgn | xexp | xman | bfx | bfxs | pack | expadd | classify | iclass | cmp | ctest | mux2 | mux3 | polyh | polye =>
    exact Nat.le_succ 1
  | tlu | twosum | twoprod | ddaddd | ddadd | ddmuld | ddmul => exact le_rfl

theorem ExecShape.readReg_eq {r : Reg} (h : ExecShape i s t) (hr : r ∉ destinations i) : readReg t r = readReg s r := by
  cases h with
  | reg hh rd w hd ht =>
    have hne : r ≠ rd := by simpa [hd] using hr
    rw [ht, readReg_answered, readReg_writeReg_ne s w hne]
  | pair hh p d hd ht =>
    obtain ⟨hhi, hlo⟩ : r ≠ pairHi p ∧ r ≠ pairLo p := by simpa [hd] using hr
    rw [ht, readReg_answered, readReg_writePair_ne s d hhi hlo]
  | halted hh hi ht | faulted hh c hi ht | gets hi ht | get hh rs w hi hr ht | lock hh hi ht
  | twr hh pa ri g k d hi hp hr hk ht | cwr hh ra b k w hi hp hr ht => subst ht; rfl

/-- FAULT and FCMD change only with the answer FAULT. -/
theorem ExecShape.faultRecord_eq (h : ExecShape i s t) (ha : t.answer ≠ some ⟨.fault, 0⟩) :
    t.status.fault = s.status.fault ∧ t.status.fcmd = s.status.fcmd := by
  cases h with
  | faulted hh c hi ht => subst ht; exact absurd rfl ha
  | halted hh hi ht | gets hi ht | get hh rs w hi hr ht | lock hh hi ht | twr hh pa ri g k d hi hp hr hk ht
  | cwr hh ra b k w hi hp hr ht | reg hh rd w hd ht | pair hh p d hd ht => subst ht; exact ⟨rfl, rfl⟩

/-- The words on the interface are the host's: no command changes them. -/
theorem ExecShape.cmd_wdata_eq (h : ExecShape i s t) : t.cmd = s.cmd ∧ t.wdata = s.wdata := by
  cases h with
  | halted hh hi ht | faulted hh c hi ht | gets hi ht | get hh rs w hi hr ht | lock hh hi ht
  | twr hh pa ri g k d hi hp hr hk ht | cwr hh ra b k w hi hp hr ht | reg hh rd w hd ht | pair hh p d hd ht =>
    subst ht; exact ⟨rfl, rfl⟩

end Sys2Proof.Machine

open Sys2Proof Sys2Proof.Machine

/-- Settles O22: of the shapes of `ExecShape`, only two write registers, and those their destinations; only LOCK's changes the
phase, and only a fault the fault record. -/
theorem registerAndStatusFrame : Obligations.RegisterAndStatusFrame := by
  intro i s t h
  have hs := exec_shape h
  obtain ⟨hcmd, hwdata⟩ := hs.cmd_wdata_eq
  have hphase (hi : i ≠ .lock) : t.status.phase = s.status.phase := hs.phase.resolve_right fun hl => hi hl.1
  exact ⟨fun _ => hs.readReg_eq, destinations_length_le_two i, hphase, hs.faultRecord_eq, hcmd, hwdata, hs.host_eq⟩
end
